-- ==== Sys2Proof/Word.lean ====
section
/-! DEFINITION. The word types of the block (spec/00_scope.md rules R10 and R12). -/

namespace Sys2Proof

/-- A descriptor word, a buffer address or a command word: 32 unsigned bits, bit 0 the least significant (R10, R12). -/
abbrev Word := BitVec 32

/-- One byte of buffer memory (R12). -/
abbrev Byte := BitVec 8

/-- The opaque tag of the caller, "no identity beyond equality" (R8, D31).
DESIGN CHOICE (log entry 3): the type parameter is taken as the natural numbers, safe. -/
abbrev PacketId := Nat

/-- The opaque channel configuration of ENG.NEW; only what INIT_OK says of it matters (R8, R230).
DESIGN CHOICE (log entry 4): a natural number names a configuration, safe. -/
abbrev ChannelConfig := Nat

/-- A hardware-clock sample, stored and returned unchanged (R12, R103). -/
structure Timestamp where
  seconds : Word
  subsec : Word
  deriving DecidableEq, Repr

/-- Four descriptor words, w0 to w3 (R90). -/
structure Words4 where
  w0 : Word
  w1 : Word
  w2 : Word
  w3 : Word
  deriving DecidableEq, Repr

end Sys2Proof
end

