-- ==== Sys2Proof/Config.lean ====
section
/-! DEFINITION. The parameters of an instance of the block (spec/00_scope.md rule R8), the descriptor layout among them
(spec/30_encoding.md rules R91 to R99), and the free value of a buffer byte that nobody has written. -/

namespace Sys2Proof

/-- The two rings (R12). -/
inductive Dir where
  | rx
  | tx
  deriving DecidableEq, Repr

/-- A descriptor field: bits hi down to lo of one word of the descriptor (R91). -/
structure Field where
  word : Nat
  hi : Nat
  lo : Nat
  deriving DecidableEq, Repr

/-- The receive half of LAYOUT: the read format (R93), the write-back format (R94), the timestamp fields (R95) and
RX_ERR_MASK (R99). OWN has one place in both formats (R92 c). -/
structure RxLayout where
  own : Field
  buf1ap : Field
  buf2ap : Field
  ioc : Field
  buf2v : Field
  buf1v : Field
  ctxt : Field
  fd : Field
  ld : Field
  rs2v : Field
  rs1v : Field
  rs0v : Field
  ce : Field
  gp : Field
  rwt : Field
  oe : Field
  re : Field
  de : Field
  lt : Field
  es : Field
  len : Field
  tsSubsec : Field
  tsSec : Field
  tsv : Field
  errMask : Word
  deriving DecidableEq, Repr

/-- The transmit half of LAYOUT: the read format (R96), the write-back format (R97) and TX_STATUS_CLEAR_MASK (R99). -/
structure TxLayout where
  own : Field
  buf1ap : Field
  b1l : Field
  fd : Field
  ld : Field
  tsSubsec : Field
  tsSec : Field
  tsv : Field
  es : Field
  statusClearMask : Word
  deriving DecidableEq, Repr

/-- The platform predicate INIT_OK on channel configurations (R8, R230), as plain data: a default answer and the
configurations for which the answer is the other one (log entry 4). -/
structure InitPredicate where
  default : Bool
  exceptions : List ChannelConfig
  deriving DecidableEq, Repr

/-- The parameters of an instance, "fixed for the life of an instance" (R8). -/
structure Params where
  nRx : Nat
  nTx : Nat
  rxBufSize : Nat
  txBufSize : Nat
  timestamping : Bool
  hasTsValid : Bool
  rxLayout : RxLayout
  txLayout : TxLayout
  rxBufAddr : List Word
  txBufAddr : List Word
  rxDescBase : Word
  txDescBase : Word
  initOk : InitPredicate
  dmaInOrder : Bool
  dmaLenHonest : Bool
  handoverAtomic : Bool
  deriving DecidableEq, Repr

/-- The value drawn for a buffer byte that nobody has written (R50, U2): a free value, nothing constrains it.
It is applied to the draw counter of State, which every such read advances (log entry 6). -/
opaque Config.freeByte : Nat → Byte

end Sys2Proof
end

