-- ==== Sys2Proof/Machine/Fields.lean ====
section
/-! DEFINITION. Bit fields of descriptor words: `get` and `put` (spec/00_scope.md rule R11), masks, and the byte view of
a word (spec/20_memory.md rule R81). -/

namespace Sys2Proof

/-- The width of a field (R91). -/
def Field.width (f : Field) : Nat := f.hi - f.lo + 1

/-- The all-ones word of a field's width, at bit 0: `2^F.width - 1` (R11). -/
def Field.ones (f : Field) : Word := BitVec.ofNat 32 (2 ^ f.width - 1)

/-- The mask of a field in its word (R93 to R97). -/
def Field.mask (f : Field) : Word := f.ones <<< f.lo

/-- `get(w, F)` (R11). -/
def Field.get (f : Field) (w : Word) : Word := (w >>> f.lo) &&& f.ones

/-- `put(w, F, v)` (R11): the value is truncated to the field, other bits stay. -/
def Field.put (f : Field) (w v : Word) : Word := (w &&& ~~~f.mask) ||| ((v &&& f.ones) <<< f.lo)

/-- A one-bit field is set in a word. -/
def Field.isSet (f : Field) (w : Word) : Bool := f.get w == 1

/-- The word at an index of a descriptor. -/
def Words4.at (v : Words4) : Nat → Word
  | 0 => v.w0
  | 1 => v.w1
  | 2 => v.w2
  | _ => v.w3

/-- Byte `b` of a word: bits 8b+7 down to 8b, little-endian (R81). -/
def wordByte (w : Word) (b : Nat) : Byte := (w >>> (8 * b)).setWidth 8

/-- A word with byte `b` replaced (R81). -/
def setWordByte (w : Word) (b : Nat) (v : Byte) : Word :=
  (w &&& ~~~((0xFF : Word) <<< (8 * b))) ||| ((v.setWidth 32) <<< (8 * b))

/-- The byte address `base + i`, in the 32-bit address space (R45, R10). -/
def addrAt (base : Word) (i : Nat) : Nat := (base.toNat + i) % 2 ^ 32

/-- The answer of INIT_OK on a configuration (R230). -/
def InitPredicate.holds (q : InitPredicate) (c : ChannelConfig) : Bool :=
  if q.exceptions.contains c then !q.default else q.default

end Sys2Proof
end

