-- ==== Sys2Proof/Syntax.lean ====
section
/-! DEFINITION. The 29 operations of the block (spec/30_encoding.md rule R110), one constructor per row of
spec/opcode_table.json, and the operands that travel beside the command word on operand ports (R112). -/

namespace Sys2Proof

/-- An operation with the fields of its command word (R110, R111): `d` is DIR, `slot` is SLOT, `k` is the two-bit K.
Everything else an operation takes stands on the operand ports (R112). -/
inductive Instr where
  /-- 0x00 RAW.READ (R130) -/
  | rawRead (d : Dir) (slot : Nat) (k : Fin 4)
  /-- 0x01 RAW.MODIFY (R131) -/
  | rawModify (d : Dir) (slot : Nat) (k : Fin 4)
  /-- 0x08 FENCE.WW (R140) -/
  | fenceWw
  /-- 0x09 BARRIER.DSB (R141) -/
  | barrierDsb
  /-- 0x0A FENCE.FULL (R142) -/
  | fenceFull
  /-- 0x0B FENCE.RR (R143) -/
  | fenceRr
  /-- 0x0C OWN.TRANSFER (R145) -/
  | ownTransfer (d : Dir) (slot : Nat)
  /-- 0x10 RXD.IS_OWNED (R160) -/
  | rxdIsOwned (slot : Nat)
  /-- 0x11 RXD.SETUP (R161) -/
  | rxdSetup (slot : Nat)
  /-- 0x12 RXD.TAKE_RECEIVED (R162) -/
  | rxdTakeReceived (slot : Nat)
  /-- 0x13 RXD.FRAME_LENGTH (R165) -/
  | rxdFrameLength (slot : Nat)
  /-- 0x14 RXD.PACKET_ID (R166) -/
  | rxdPacketId (slot : Nat)
  /-- 0x15 RXD.TIMESTAMP (R167) -/
  | rxdTimestamp (slot : Nat)
  /-- 0x20 TXD.IS_OWNED (R180) -/
  | txdIsOwned (slot : Nat)
  /-- 0x21 TXD.SEND (R181) -/
  | txdSend (slot : Nat)
  /-- 0x22 TXD.TAKE_COMPLETED (R182) -/
  | txdTakeCompleted (slot : Nat)
  /-- 0x30 RXRING.NEW (R200) -/
  | rxringNew
  /-- 0x31 RXRING.RECV_NEXT (R203) -/
  | rxringRecvNext
  /-- 0x38 TXRING.NEW (R210) -/
  | txringNew
  /-- 0x39 TXRING.SEND (R211) -/
  | txringSend
  /-- 0x3A TXRING.RECLAIM (R213) -/
  | txringReclaim
  /-- 0x40 ENG.NEW (R230) -/
  | engNew
  /-- 0x41 ENG.SEND (R231) -/
  | engSend
  /-- 0x42 ENG.RECV_NEXT (R232) -/
  | engRecvNext
  /-- 0x43 ENG.ENABLE_INTERRUPT (R233) -/
  | engEnableInterrupt
  /-- 0x44 ENG.DISABLE_INTERRUPT (R234) -/
  | engDisableInterrupt
  /-- 0x45 ENG.INTERRUPT_ACK (R235) -/
  | engInterruptAck
  /-- 0x46 ENG.TX_STATE (R236) -/
  | engTxState
  /-- 0x47 ENG.TX_RECLAIM (R237) -/
  | engTxReclaim
  deriving DecidableEq, Repr

/-- The operand `FN : Word -> Word` of RAW.MODIFY (R112, R131) as plain data. Every function on words is the value of
some term (Laws/Operands.lean), so no function of the spec is left out. DESIGN CHOICE (log entry 5), safe. -/
inductive WordFn where
  /-- the word itself, the identity -/
  | arg
  /-- a constant word; alone it is the pseudo-operation RAW.WRITE (R116) -/
  | lit (v : Word)
  | and (f g : WordFn)
  | or (f g : WordFn)
  | xor (f g : WordFn)
  | not (f : WordFn)
  | shl (f : WordFn) (n : Nat)
  | shr (f : WordFn) (n : Nat)
  /-- `t` where the argument is `c`, `e` elsewhere -/
  | ifEq (c : Word) (t e : WordFn)
  deriving DecidableEq, Repr

/-- The operand `FILL : List Byte -> List Byte` of TXRING.SEND, length-preserving by its reading (R112, R211), as plain
data. On the byte lists up to any given length every length-preserving function is the value of some term
(Laws/Operands.lean). DESIGN CHOICE (log entry 5), safe. -/
inductive FillFn where
  /-- the old bytes stay -/
  | keep
  /-- `bs` over the first bytes of the buffer; bytes past `bs` keep their old value -/
  | write (bs : List Byte)
  /-- `t` where the old bytes are `old`, `e` elsewhere -/
  | ifEq (old : List Byte) (t e : FillFn)
  deriving DecidableEq, Repr

/-- The operand ports of the command interface (R112). -/
structure Ports where
  arg0 : Word
  arg1 : Word
  pid : Option PacketId
  fn : WordFn
  fill : FillFn
  cfg : ChannelConfig
  deriving DecidableEq, Repr

/-- A command as it arrives at the interface: its 32-bit word (R111) and the operands beside it (R112). -/
structure Command where
  word : Word
  ports : Ports
  deriving DecidableEq, Repr

/-- The mnemonic of an operation, as rule R110 and the test vectors spell it (R115). -/
def Instr.mnemonic : Instr → String
  | .rawRead _ _ _ => "RAW.READ"
  | .rawModify _ _ _ => "RAW.MODIFY"
  | .fenceWw => "FENCE.WW"
  | .barrierDsb => "BARRIER.DSB"
  | .fenceFull => "FENCE.FULL"
  | .fenceRr => "FENCE.RR"
  | .ownTransfer _ _ => "OWN.TRANSFER"
  | .rxdIsOwned _ => "RXD.IS_OWNED"
  | .rxdSetup _ => "RXD.SETUP"
  | .rxdTakeReceived _ => "RXD.TAKE_RECEIVED"
  | .rxdFrameLength _ => "RXD.FRAME_LENGTH"
  | .rxdPacketId _ => "RXD.PACKET_ID"
  | .rxdTimestamp _ => "RXD.TIMESTAMP"
  | .txdIsOwned _ => "TXD.IS_OWNED"
  | .txdSend _ => "TXD.SEND"
  | .txdTakeCompleted _ => "TXD.TAKE_COMPLETED"
  | .rxringNew => "RXRING.NEW"
  | .rxringRecvNext => "RXRING.RECV_NEXT"
  | .txringNew => "TXRING.NEW"
  | .txringSend => "TXRING.SEND"
  | .txringReclaim => "TXRING.RECLAIM"
  | .engNew => "ENG.NEW"
  | .engSend => "ENG.SEND"
  | .engRecvNext => "ENG.RECV_NEXT"
  | .engEnableInterrupt => "ENG.ENABLE_INTERRUPT"
  | .engDisableInterrupt => "ENG.DISABLE_INTERRUPT"
  | .engInterruptAck => "ENG.INTERRUPT_ACK"
  | .engTxState => "ENG.TX_STATE"
  | .engTxReclaim => "ENG.TX_RECLAIM"

end Sys2Proof
end

