-- ==== Sys2Proof/WellFormed.lean ====
section
/-! DEFINITION. Well-formed operations: SLOT below the ring's capacity (spec/30_encoding.md rule R114). K is two bits
wide by its type, so "a word index above 3 cannot be spelled". -/

namespace Sys2Proof

/-- The capacity N_d of a ring (R8). -/
def Params.capacity (p : Params) : Dir → Nat
  | .rx => p.nRx
  | .tx => p.nTx

/-- The ring and slot an operation names in its command word, if its format has a SLOT field (R111). -/
def Instr.namedSlot : Instr → Option (Dir × Nat)
  | .rawRead d slot _ => some (d, slot)
  | .rawModify d slot _ => some (d, slot)
  | .ownTransfer d slot => some (d, slot)
  | .rxdIsOwned slot => some (.rx, slot)
  | .rxdSetup slot => some (.rx, slot)
  | .rxdTakeReceived slot => some (.rx, slot)
  | .rxdFrameLength slot => some (.rx, slot)
  | .rxdPacketId slot => some (.rx, slot)
  | .rxdTimestamp slot => some (.rx, slot)
  | .txdIsOwned slot => some (.tx, slot)
  | .txdSend slot => some (.tx, slot)
  | .txdTakeCompleted slot => some (.tx, slot)
  | .fenceWw => none
  | .barrierDsb => none
  | .fenceFull => none
  | .fenceRr => none
  | .rxringNew => none
  | .rxringRecvNext => none
  | .txringNew => none
  | .txringSend => none
  | .txringReclaim => none
  | .engNew => none
  | .engSend => none
  | .engRecvNext => none
  | .engEnableInterrupt => none
  | .engDisableInterrupt => none
  | .engInterruptAck => none
  | .engTxState => none
  | .engTxReclaim => none

/-- An operation is well formed for an instance when the slot it names is below its ring's capacity (R114). -/
def Instr.wf (p : Params) (i : Instr) : Bool :=
  match i.namedSlot with
  | some (d, slot) => decide (slot < p.capacity d)
  | none => true

/-- The slot an operation names fits the 16-bit SLOT field (R111). -/
def Instr.encodable (i : Instr) : Bool :=
  match i.namedSlot with
  | some (_, slot) => decide (slot < 65536)
  | none => true

end Sys2Proof
end

