-- ==== Sys2Proof/Machine/Instance.lean ====
section
/-! DEFINITION. The default layout (spec/30_encoding.md rules R93 to R99), the well-formedness of a layout (R92) and of
an instance's parameters (spec/00_scope.md rule R8, spec/20_memory.md rule R82, spec/70_reset_and_hazards.md rule R311),
and the instance the model starts with (spec/95_test_vectors.md). -/

namespace Sys2Proof

/-- The receive half of the default layout (R93, R94), the timestamp fields at the reference instantiation of R95. -/
def defaultRxLayout : RxLayout :=
  { own := ⟨3, 31, 31⟩
    buf1ap := ⟨0, 31, 0⟩
    buf2ap := ⟨2, 31, 0⟩
    ioc := ⟨3, 30, 30⟩
    buf2v := ⟨3, 25, 25⟩
    buf1v := ⟨3, 24, 24⟩
    ctxt := ⟨3, 30, 30⟩
    fd := ⟨3, 29, 29⟩
    ld := ⟨3, 28, 28⟩
    rs2v := ⟨3, 27, 27⟩
    rs1v := ⟨3, 26, 26⟩
    rs0v := ⟨3, 25, 25⟩
    ce := ⟨3, 24, 24⟩
    gp := ⟨3, 23, 23⟩
    rwt := ⟨3, 22, 22⟩
    oe := ⟨3, 21, 21⟩
    re := ⟨3, 20, 20⟩
    de := ⟨3, 19, 19⟩
    lt := ⟨3, 18, 16⟩
    es := ⟨3, 15, 15⟩
    len := ⟨3, 13, 0⟩
    tsSubsec := ⟨0, 31, 0⟩
    tsSec := ⟨2, 31, 0⟩
    tsv := ⟨1, 14, 14⟩
    errMask := 0x00008000 }

/-- The transmit half of the default layout (R96, R97, R99). -/
def defaultTxLayout : TxLayout :=
  { own := ⟨3, 31, 31⟩
    buf1ap := ⟨0, 31, 0⟩
    b1l := ⟨2, 13, 0⟩
    fd := ⟨3, 29, 29⟩
    ld := ⟨3, 28, 28⟩
    tsSubsec := ⟨0, 31, 0⟩
    tsSec := ⟨1, 31, 0⟩
    tsv := ⟨3, 17, 17⟩
    es := ⟨3, 15, 15⟩
    statusClearMask := 0x0002FFFF }

/-- A field lies inside one word of the descriptor (R92 a). -/
def Field.inside (f : Field) : Bool := f.word < 4 && f.lo ≤ f.hi && f.hi ≤ 31

/-- Two fields share no bit. -/
def Field.apart (f g : Field) : Bool := f.word != g.word || f.hi < g.lo || g.hi < f.lo

/-- A test that holds of every two different places of a list. -/
def allPairs (r : α → α → Bool) : List α → Bool
  | [] => true
  | x :: xs => xs.all (r x) && allPairs r xs

/-- The fields of one format: each inside its word, no two overlapping (R92 a, b). -/
def formatWf (fs : List Field) : Bool := fs.all Field.inside && allPairs Field.apart fs

/-- The fields of the receive read format (R93). -/
def RxLayout.readFormat (l : RxLayout) : List Field := [l.own, l.buf1ap, l.buf2ap, l.ioc, l.buf2v, l.buf1v]

/-- The fields of the receive write-back format (R94, R95); TSV "exists only when HAS_TS_VALID". -/
def RxLayout.writeBackFormat (l : RxLayout) (hasTsValid : Bool) : List Field :=
  [l.own, l.ctxt, l.fd, l.ld, l.rs2v, l.rs1v, l.rs0v, l.ce, l.gp, l.rwt, l.oe, l.re, l.de, l.lt, l.es, l.len,
    l.tsSubsec, l.tsSec] ++ (if hasTsValid then [l.tsv] else [])

/-- The fields of the transmit read format (R96). -/
def TxLayout.readFormat (l : TxLayout) : List Field := [l.own, l.buf1ap, l.b1l, l.fd, l.ld]

/-- The fields of the transmit write-back format (R97). -/
def TxLayout.writeBackFormat (l : TxLayout) (hasTsValid : Bool) : List Field :=
  [l.own, l.fd, l.ld, l.es, l.tsSubsec, l.tsSec] ++ (if hasTsValid then [l.tsv] else [])

/-- A field is a whole word (R95, R102, R103). -/
def Field.wholeWord (f : Field) : Bool := f.hi == 31 && f.lo == 0

/-- A field is one bit (R91). -/
def Field.oneBit (f : Field) : Bool := f.hi == f.lo

/-- A receive layout is well formed: R92 (a) to (g); that BUF1AP and the two timestamp fields are whole words and
the flags single bits is read from R93 to R95, R102 and R103 (DEDUCED, log entry 7). -/
def RxLayout.wf (l : RxLayout) (hasTsValid : Bool) : Bool :=
  formatWf l.readFormat && formatWf (l.writeBackFormat hasTsValid)
    && [l.ioc, l.buf1v, l.buf2v, l.fd, l.ld, l.ctxt, l.es, l.len].all (fun f => f.word == l.own.word)
    && l.len.width == 14
    && l.tsSubsec.word != l.own.word && l.tsSec.word != l.own.word
    && [l.buf1ap, l.tsSubsec, l.tsSec].all Field.wholeWord
    && [l.own, l.ioc, l.buf1v, l.buf2v, l.fd, l.ld, l.ctxt, l.es].all Field.oneBit
    && (!hasTsValid || l.tsv.oneBit)

/-- A transmit layout is well formed: R92 (a), (b), (c), (g), (h), and the widths as for receive (log entry 7). -/
def TxLayout.wf (l : TxLayout) (hasTsValid : Bool) : Bool :=
  formatWf l.readFormat && formatWf (l.writeBackFormat hasTsValid)
    && l.tsSubsec.word != l.own.word && l.tsSec.word != l.own.word
    && decide (14 ≤ l.b1l.width)
    && [l.buf1ap, l.tsSubsec, l.tsSec].all Field.wholeWord
    && [l.own, l.fd, l.ld, l.es].all Field.oneBit
    && (!hasTsValid || l.tsv.oneBit)

/-- Two address ranges `(base, size)` are disjoint. -/
def rangesApart (r q : Nat × Nat) : Bool := r.1 + r.2 ≤ q.1 || q.1 + q.2 ≤ r.1

/-- The address ranges of an instance: the two descriptor arrays, 16 bytes a descriptor (R82), and every buffer (R311).
-/
def Params.ranges (p : Params) : List (Nat × Nat) :=
  (p.rxDescBase.toNat, 16 * p.nRx) :: (p.txDescBase.toNat, 16 * p.nTx)
    :: (p.rxBufAddr.map (fun a => (a.toNat, p.rxBufSize)) ++ p.txBufAddr.map (fun a => (a.toNat, p.txBufSize)))

/-- The parameters make an instance of the block: the bounds of R8, one buffer address a slot, aligned descriptor bases
(R82), a well-formed layout (R92), and pairwise disjoint ranges inside the 32-bit address space (R311, U7). -/
def Params.wf (p : Params) : Bool :=
  [decide (2 ≤ p.nRx), decide (p.nRx ≤ 65536), decide (2 ≤ p.nTx), decide (p.nTx ≤ 65536),
    decide (1 ≤ p.rxBufSize), decide (p.rxBufSize ≤ 16383), decide (1 ≤ p.txBufSize), decide (p.txBufSize ≤ 16383),
    p.rxBufAddr.length == p.nRx, p.txBufAddr.length == p.nTx, p.rxDescBase.toNat % 4 == 0,
    p.txDescBase.toNat % 4 == 0, p.rxLayout.wf p.hasTsValid, p.txLayout.wf p.hasTsValid,
    p.ranges.all (fun r => decide (r.1 + r.2 ≤ 2 ^ 32)), allPairs rangesApart p.ranges].all id

/-- The common instance of spec/95_test_vectors.md, with the defaults of R8. DESIGN CHOICE (log entry 2): the instance
the model is in at power-on; every claim is stated for every well-formed instance. -/
def referenceInstance : Params :=
  { nRx := 4
    nTx := 4
    rxBufSize := 1536
    txBufSize := 1536
    timestamping := false
    hasTsValid := false
    rxLayout := defaultRxLayout
    txLayout := defaultTxLayout
    rxBufAddr := [0x20001000, 0x20001600, 0x20001C00, 0x20002200]
    txBufAddr := [0x20004000, 0x20004600, 0x20004C00, 0x20005200]
    rxDescBase := 0x20000000
    txDescBase := 0x20000040
    initOk := ⟨true, []⟩
    dmaInOrder := false
    dmaLenHonest := true
    handoverAtomic := true }

/-- The OWN field of a ring (R92 c). -/
def Params.own (p : Params) : Dir → Field
  | .rx => p.rxLayout.own
  | .tx => p.txLayout.own

/-- `OWNW(d)`: the index of the word that holds a ring's OWN bit (R98). -/
def Params.ownWord (p : Params) (d : Dir) : Nat := (p.own d).word

/-- The bits step 3 of a hand-over sets: OWN, "and, for receive, the interrupt-on-completion bit" (R145, R146). -/
def Params.handoverMask (p : Params) : Dir → Word
  | .rx => p.rxLayout.own.mask ||| p.rxLayout.ioc.mask
  | .tx => p.txLayout.own.mask

/-- The address of descriptor 0 of a ring (R8, R82). -/
def Params.descBase (p : Params) : Dir → Word
  | .rx => p.rxDescBase
  | .tx => p.txDescBase

/-- The address of a receive slot's buffer (R201). -/
def Params.rxBuf (p : Params) (i : Nat) : Word := p.rxBufAddr.getD i 0

/-- The address of a transmit slot's buffer (R45). -/
def Params.txBuf (p : Params) (j : Nat) : Word := p.txBufAddr.getD j 0

/-- The cursor after `c` in a ring of `n` slots: `(c + 1) mod n` (R30, R117). -/
def nextSlot (n c : Nat) : Nat := (c + 1) % n

end Sys2Proof
end

