-- ==== Sys2Proof/Machine/Memory.lean ====
section
/-! DEFINITION. Buffer memory, byte-granular (spec/10_state.md rule R45, spec/20_memory.md rule R64): a list of address
and byte pairs in one canonical form. An address that is not listed holds a byte nobody has written; reading it gives no
value here, and the machine then draws one (R50). -/

namespace Sys2Proof.Machine

/-- Buffer memory: the bytes written so far, at rising addresses. -/
abbrev Memory := List Host.Cell

/-- The byte at an address; none for a byte nobody has written (R50). -/
def Memory.read : Memory → Nat → Option (BitVec 8)
  | [], _ => none
  | (k, v) :: m, a => if a = k then some v else Memory.read m a

/-- Memory with one byte written, in canonical form again. -/
def Memory.write : Memory → Nat → BitVec 8 → Memory
  | [], a, b => [(a, b)]
  | (k, v) :: m, a, b =>
    if a < k then (a, b) :: (k, v) :: m
    else if a = k then (a, b) :: m
    else (k, v) :: Memory.write m a b

/-- Addresses rise strictly from above `low` (one more than the last address seen) and lie below 2^32. -/
def Memory.risesFrom : Nat → Memory → Bool
  | _, [] => true
  | low, (k, _) :: m => decide (low ≤ k) && decide (k < 2 ^ 32) && Memory.risesFrom (k + 1) m

/-- The canonical form: addresses rise strictly and lie in the 32-bit address space (R45). An unlisted byte has no
value, so every listed byte belongs in the list. -/
def Memory.wf (m : Memory) : Bool := Memory.risesFrom 0 m

end Sys2Proof.Machine
end

