-- ==== Sys2Proof/Machine/State.lean ====
section
/-! DEFINITION. The state of the block (spec/10_state.md), the outcomes of an operation (spec/60_exceptions.md rules
R270, R271), the environment's steps as data (spec/46_dma_agent.md), and the power-on state
(spec/70_reset_and_hazards.md rule R300). -/

namespace Sys2Proof.Machine

/-- Software-only metadata of a receive descriptor (R42). -/
structure RxMeta where
  pid : Option PacketId
  ts : Option Timestamp
  deriving DecidableEq, Repr

/-- Software-only metadata of a transmit descriptor, with the busy flag of R44 (R42). -/
structure TxMeta where
  pid : Option PacketId
  ts : Option Timestamp
  busy : Bool
  deriving DecidableEq, Repr

/-- An entry of the write buffer: a pending write of SW to a location, or a fence marker (R46, R65). -/
inductive WbEntry where
  /-- a write of word `k` of descriptor `slot` of ring `d` -/
  | word (d : Dir) (slot k : Nat) (v : Word)
  /-- a write of one byte of buffer memory -/
  | byte (addr : Nat) (v : Byte)
  /-- the marker of FENCE.WW -/
  | fence
  deriving DecidableEq, Repr

/-- A step of an agent other than SW, with everything it draws. Which steps the agents take is an input of the machine
(R21, R257). -/
inductive EnvStep where
  /-- WB.DRAIN of the entry at position `n` of the write buffer (R69) -/
  | drain (n : Nat)
  /-- DMA.RX_WRITEBACK on a slot, with the drawn frame bytes and write-back words (R252) -/
  | rxWriteback (slot : Nat) (bytes : List Byte) (v : Words4)
  /-- DMA.TX_WRITEBACK on a slot, with the drawn write-back words and whether `ti` is set (R254) -/
  | txWriteback (slot : Nat) (v : Words4) (t : Bool)
  /-- the interrupt agent runs ENG.INTERRUPT_ACK (R235) -/
  | interruptAck
  deriving DecidableEq, Repr

/-- What arrives at the machine: a command of the caller, or a step of another agent between two commands. -/
inductive Input where
  | command (c : Command)
  | env (e : EnvStep)
  deriving DecidableEq, Repr

/-- The event `Sent(j, pay)` (R254, R257). -/
structure SentFrame where
  slot : Nat
  bytes : List Byte
  deriving DecidableEq, Repr

/-- The view of a received frame, a snapshot (R207). -/
structure FrameView where
  slot : Nat
  length : Nat
  bytes : List Byte
  deriving DecidableEq, Repr

/-- The diagnostic snapshot of ENG.TX_STATE (R236). -/
structure TxState where
  next : Nat
  reclaim : Nat
  outstanding : Nat
  hwOwned : Nat
  deriving DecidableEq, Repr

/-- `RxError` (R270). -/
inductive RxError where
  | wouldBlock
  | truncated
  deriving DecidableEq, Repr

/-- `TxError` (R270, R272). -/
inductive TxError where
  | wouldBlock
  | errorSummary
  deriving DecidableEq, Repr

/-- The kinds of `ContractViolation` (R271). -/
inductive Contract where
  | badCommand
  | lengthExceedsField
  | lengthExceedsCapacity
  | ringNotConstructed
  | notBound
  | alreadyBound
  deriving DecidableEq, Repr

/-- What a `Fatal` records (R271). -/
inductive FatalInfo where
  | ownershipReadback (d : Dir) (slot : Nat)
  | lengthExceedsBuffer (slot len : Nat)
  deriving DecidableEq, Repr

/-- The value on the result port when an operation ends (R112, R270, R284): a result, a typed error, a fatal condition,
a broken contract, or the refusal of a halted block. -/
inductive Reply where
  /-- `Ok(())`, and the end of an operation that returns nothing -/
  | ok
  | word (w : Word)
  | bool (b : Bool)
  | length (n : Nat)
  | packetId (p : Option PacketId)
  | timestamp (t : Option Timestamp)
  | frame (v : FrameView)
  | txState (t : TxState)
  | rxErr (e : RxError)
  | txErr (e : TxError)
  | initErr
  | contract (k : Contract)
  | fatal (f : FatalInfo)
  | refusedHalted
  deriving DecidableEq, Repr

/-- The state of the machine. Up to `dmaPosTx` it is what the spec gives the block; the fields after it are the model's
own interface: what arrives, what leaves, and the counter of drawn bytes. -/
structure State where
  /-- the parameters of the instance, fixed for its life (R8; log entry 20) -/
  params : Params
  /-- the words of the receive descriptors, four a slot, in shared memory (R22, R64) -/
  rxWords : List Word
  /-- the words of the transmit descriptors (R22, R64) -/
  txWords : List Word
  /-- buffer memory (R45, R64) -/
  mem : Memory
  /-- the write buffer, oldest first (R46, R65) -/
  wb : List WbEntry
  /-- the hand-over window (R47) -/
  handover : Option (Dir × Nat)
  /-- the receive read cursor (R27) -/
  rxNext : Nat
  /-- the transmit submit cursor (R28) -/
  txNext : Nat
  /-- the transmit reclaim cursor (R29) -/
  txReclaim : Nat
  /-- the receive slot lent to the caller (R31) -/
  rxHeld : Option Nat
  /-- metadata of the receive descriptors (R42) -/
  rxMeta : List RxMeta
  /-- metadata of the transmit descriptors (R42) -/
  txMeta : List TxMeta
  /-- interrupt enable (R40) -/
  intEnable : Bool
  /-- receive-complete flag (R40) -/
  ri : Bool
  /-- transmit-complete flag (R40) -/
  ti : Bool
  /-- set by any Fatal, never cleared (R41) -/
  halted : Bool
  /-- the receive ring has been constructed (R49) -/
  readyRx : Bool
  /-- the transmit ring has been constructed (R49) -/
  readyTx : Bool
  /-- ENG.NEW has bound the rings to a channel (R49) -/
  bound : Bool
  /-- the DMA agent's position in the receive ring, used with DMA_IN_ORDER only (R48, R255; log entry 18) -/
  dmaPosRx : Nat
  /-- the DMA agent's position in the transmit ring (R48, R255) -/
  dmaPosTx : Nat
  /-- what has arrived and not been taken yet, oldest first (R257) -/
  inbox : List Input
  /-- the operand ports of the command being run (R112) -/
  ports : Ports
  /-- the steps of the other agents that fall before each coming micro-step of SW (R62) -/
  schedule : List (List EnvStep)
  /-- the result port: how the last operation ended (R112, R270) -/
  reply : Option Reply
  /-- the frames the DMA agent has sent, oldest first (R257; log entry 22) -/
  sent : List SentFrame
  /-- how many bytes have been drawn for reads of unwritten memory (R50) -/
  draws : Nat
  deriving DecidableEq, Repr

/-- Why the machine stops with a fault. There is no such reason: every way an operation of the block ends, `Fatal`
included, is a value on its result port with a next state (R270, R274, R284), and the block goes on refusing commands
while the other agents keep their steps (R276). Nobody raises one; this is safe. -/
inductive Fault where
  deriving DecidableEq, Repr

/-- Why the machine refuses to step. -/
inductive Refusal where
  /-- An operation that has no meaning yet. No arm of `exec` raises it. Safe. -/
  | notModelled (mnemonic : String)
  /-- The parameters make no instance of the block: overlapping buffers, an ill-formed layout, a misaligned descriptor
  base, a parameter out of range. Raised by `step` and by nothing else: "an instance that breaks it is not a model of
  the block" (U7, R82, R92, R311). Safe. -/
  | illFormedInstance
  deriving DecidableEq, Repr

/-- The operand ports at power-on, before any command has set them (log entry 8). -/
def Ports.idle : Ports :=
  { arg0 := 0, arg1 := 0, pid := none, fn := .arg, fill := .keep, cfg := 0 }

/-- The power-on state (R300). R300 gives the flags, the write buffer and the window. What it leaves unspecified is
named here: descriptor words 0, cursors 0, no held slot, empty metadata, DMA positions 0 (DESIGN CHOICE, log entry 1);
no buffer byte is written. The instance is the reference one (log entry 2). -/
def State.reset : State :=
  { params := referenceInstance
    rxWords := List.replicate (4 * referenceInstance.nRx) 0
    txWords := List.replicate (4 * referenceInstance.nTx) 0
    mem := []
    wb := []
    handover := none
    rxNext := 0
    txNext := 0
    txReclaim := 0
    rxHeld := none
    rxMeta := List.replicate referenceInstance.nRx ⟨none, none⟩
    txMeta := List.replicate referenceInstance.nTx ⟨none, none, false⟩
    intEnable := false
    ri := false
    ti := false
    halted := false
    readyRx := false
    readyTx := false
    bound := false
    dmaPosRx := 0
    dmaPosTx := 0
    inbox := []
    ports := Ports.idle
    schedule := []
    reply := none
    sent := []
    draws := 0 }

end Sys2Proof.Machine
end

