-- ==== Sys2Proof/Machine/Flags.lean ====
section
/-! DEFINITION. The status bits of the descriptor words, the block's flags (spec/10_state.md rules R32, R33, R40;
spec/42_rx_descriptor.md rule R163; spec/30_encoding.md rule R101). -/

namespace Sys2Proof

/-- The OWN bit of a word of ring `d` is 1: the slot is hardware-owned (R33). -/
def Params.ownedByHw (p : Params) (d : Dir) (w : Word) : Bool := (p.own d).isSet w

/-- `rx_whole_frame(w)`: first and last segment, no error bit, not a context descriptor (R163). -/
def Params.rxWholeFrame (p : Params) (w : Word) : Bool :=
  p.rxLayout.fd.isSet w && p.rxLayout.ld.isSet w && (w &&& p.rxLayout.errMask) == 0
    && p.rxLayout.ctxt.get w == 0

/-- `rx_len(w)`: the 14-bit frame length (R101). -/
def Params.rxLen (p : Params) (w : Word) : Nat := (p.rxLayout.len.get w).toNat

/-- The error-summary bit of a transmit write-back is set (R182). -/
def Params.txError (p : Params) (w : Word) : Bool := p.txLayout.es.isSet w

/-- What RXD.SETUP makes of the OWN word before the hand-over: BUF1V set, BUF2V clear, every other bit kept (R161). -/
def Params.rxSetupWord (p : Params) (w : Word) : Word :=
  (w ||| p.rxLayout.buf1v.mask) &&& ~~~p.rxLayout.buf2v.mask

/-- What TXD.SEND makes of the OWN word before the hand-over: status bits clear, FD and LD set (R181). -/
def Params.txSendWord (p : Params) (w : Word) : Word :=
  (w &&& ~~~p.txLayout.statusClearMask) ||| p.txLayout.fd.mask ||| p.txLayout.ld.mask

namespace Machine

/-- The interrupt line `irq = int_enable and (ri or ti)` (R40, R282). -/
def State.irq (s : State) : Bool := s.intEnable && (s.ri || s.ti)

end Machine

end Sys2Proof
end

