-- ==== Sys2Proof/Machine/Access.lean ====
section
/-! DEFINITION. Access to shared memory and to the block's registers: descriptor words, buffer bytes, the write buffer
(spec/20_memory.md rules R64 to R69, R81, R82; spec/10_state.md rules R22, R42, R49). -/

namespace Sys2Proof

/-- The descriptor word and the byte in it that lie at a byte address, if the address is inside a descriptor array:
`base_d + 16 * s + 4 * k + b` (R81, R82, R132). -/
def Params.descriptorByte (p : Params) (a : Nat) : Option (Dir × Nat × Nat) :=
  let offRx := a - p.rxDescBase.toNat
  let offTx := a - p.txDescBase.toNat
  if p.rxDescBase.toNat ≤ a ∧ offRx < 16 * p.nRx then some (.rx, offRx / 4, offRx % 4)
  else if p.txDescBase.toNat ≤ a ∧ offTx < 16 * p.nTx then some (.tx, offTx / 4, offTx % 4)
  else none

namespace Machine

/-! ### Descriptor words and metadata -/

/-- The words of a ring's descriptors, in address order (R22, R82). -/
def State.words (s : State) : Dir → List Word
  | .rx => s.rxWords
  | .tx => s.txWords

/-- The state with the words of one ring's descriptors replaced. -/
def State.setWords (s : State) (d : Dir) (ws : List Word) : State :=
  match d with
  | .rx => { s with rxWords := ws }
  | .tx => { s with txWords := ws }

/-- `DmaRead` of a descriptor word, and what is in MEM for SW: word `k` of descriptor `i` of ring `d` (R64, R68, R132).
-/
def State.word (s : State) (d : Dir) (i k : Nat) : Word := (s.words d).getD (4 * i + k) 0

/-- `DmaWrite` of a descriptor word: MEM changes at once (R68). -/
def State.setWord (s : State) (d : Dir) (i k : Nat) (v : Word) : State :=
  s.setWords d ((s.words d).set (4 * i + k) v)

/-- The OWN word of a slot as MEM holds it (R98). -/
def State.ownWordOf (s : State) (d : Dir) (i : Nat) : Word := s.word d i (s.params.ownWord d)

/-- The metadata of a receive slot (R42). -/
def State.rxMetaAt (s : State) (i : Nat) : RxMeta := s.rxMeta.getD i ⟨none, none⟩

/-- The state with a receive slot's metadata replaced. -/
def State.setRxMeta (s : State) (i : Nat) (m : RxMeta) : State := { s with rxMeta := s.rxMeta.set i m }

/-- The metadata of a transmit slot (R42). -/
def State.txMetaAt (s : State) (j : Nat) : TxMeta := s.txMeta.getD j ⟨none, none, false⟩

/-- The state with a transmit slot's metadata replaced. -/
def State.setTxMeta (s : State) (j : Nat) (m : TxMeta) : State := { s with txMeta := s.txMeta.set j m }

/-- `ready[d]` (R49). -/
def State.ready (s : State) : Dir → Bool
  | .rx => s.readyRx
  | .tx => s.readyTx

/-- `dma_pos[d]` (R255). -/
def State.dmaPos (s : State) : Dir → Nat
  | .rx => s.dmaPosRx
  | .tx => s.dmaPosTx

/-! ### Bytes of the address space -/

/-- The byte at an address: a byte of a descriptor word, or a buffer byte, none if nobody has written it (R45, R50). -/
def State.byteAt (s : State) (a : Nat) : Option Byte :=
  match s.params.descriptorByte a with
  | some (d, n, b) => some (wordByte ((s.words d).getD n 0) b)
  | none => s.mem.read a

/-- One byte of MEM written. An address inside a descriptor array changes that descriptor's word: where a hand-made
pointer overlaps a descriptor, "one slot's DMA write changes another slot's bytes" (R311; DESIGN CHOICE, log entry 13). -/
def State.putByte (s : State) (a : Nat) (v : Byte) : State :=
  match s.params.descriptorByte a with
  | some (d, n, b) => s.setWords d ((s.words d).set n (setWordByte ((s.words d).getD n 0) b v))
  | none => { s with mem := s.mem.write a v }

/-- Bytes of MEM written from an address on, the first at the lowest (R81). -/
def State.putBytes (s : State) (base : Word) (i : Nat) : List Byte → State
  | [] => s
  | b :: bs => (s.putByte (addrAt base i) b).putBytes base (i + 1) bs

/-- The value read at one byte, and the draw counter after the read. A byte that nobody has written is a free value
(R50), and the counter then moves past it (log entry 6). -/
def readCell (cell : Option Byte) (draws : Nat) : Byte × Nat :=
  match cell with
  | some b => (b, draws)
  | none => (Config.freeByte draws, draws + 1)

/-- The values read at `n` places of a buffer from place `i` on, lowest address first, through a given view of one byte,
and the draw counter after the reads. -/
def readCells (look : Nat → Option Byte) (base : Word) : Nat → Nat → Nat → List Byte × Nat
  | 0, _, draws => ([], draws)
  | n + 1, i, draws =>
    let b := readCell (look (addrAt base i)) draws
    let rest := readCells look base n (i + 1) b.2
    (b.1 :: rest.1, rest.2)

/-- One byte read through a given view of it. -/
def State.fetchByte (s : State) (cell : Option Byte) : Byte × State :=
  let b := readCell cell s.draws
  (b.1, { s with draws := b.2 })

/-- The bytes at `n` addresses from `base` on in one state: what the DMA agent's atomic step takes (R254), and what a
sequence of byte reads takes when no other agent steps inside it. -/
def State.fetchBytes (s : State) (look : Nat → Option Byte) (base : Word) (n : Nat) : List Byte × State :=
  let r := readCells look base n 0 s.draws
  (r.1, { s with draws := r.2 })

/-! ### The write buffer -/

/-- Two entries write the same location (R69). -/
def WbEntry.sameLoc : WbEntry → WbEntry → Bool
  | .word d i k _, .word d' i' k' _ => d = d' && i = i' && k = k'
  | .byte a _, .byte a' _ => a = a'
  | _, _ => false

/-- An entry reaches MEM; a fence marker changes nothing (R69). -/
def WbEntry.apply (e : WbEntry) (s : State) : State :=
  match e with
  | .word d i k v => s.setWord d i k v
  | .byte a v => s.putByte a v
  | .fence => s

/-- The youngest pending write of a descriptor word (R66). -/
def pendingWord (wb : List WbEntry) (d : Dir) (i k : Nat) : Option Word :=
  wb.foldl (fun found e =>
    match e with
    | .word d' i' k' v => if d' = d ∧ i' = i ∧ k' = k then some v else found
    | _ => found) none

/-- The youngest pending write of a buffer byte (R66). -/
def pendingByte (wb : List WbEntry) (a : Nat) : Option Byte :=
  wb.foldl (fun found e =>
    match e with
    | .byte a' v => if a' = a then some v else found
    | _ => found) none

/-- A descriptor word as SW sees it: the youngest pending write, else MEM (R66). -/
def State.swWord (s : State) (d : Dir) (i k : Nat) : Word :=
  (pendingWord s.wb d i k).getD (s.word d i k)

/-- A byte as SW sees it (R66). -/
def State.swByte (s : State) (a : Nat) : Option Byte :=
  match pendingByte s.wb a with
  | some v => some v
  | none => s.byteAt a

/-- The entry at place `n` may drain: it is a write, no older entry is a fence, no older entry writes the same
location (R69). -/
def mayDrain (wb : List WbEntry) (n : Nat) : Bool :=
  match wb[n]? with
  | some .fence => false
  | some e => (wb.take n).all (fun o => o != .fence && !o.sameLoc e)
  | none => false

/-- `WB.DRAIN`: an oldest fence marker is removed; otherwise the chosen entry reaches MEM, if it may (R69). -/
def State.drain (s : State) (n : Nat) : State :=
  match s.wb with
  | .fence :: rest => { s with wb := rest }
  | _ =>
    match s.wb[n]? with
    | some e => if mayDrain s.wb n then e.apply { s with wb := s.wb.eraseIdx n } else s
    | none => s

/-- Entries reach MEM in list order, the oldest first. -/
def State.applyAll (s : State) : List WbEntry → State
  | [] => s
  | e :: es => (e.apply s).applyAll es

/-- Every entry of the write buffer reaches MEM in list order, and the buffer is empty: one of the orders R69 allows,
which R141 lets BARRIER.DSB take. -/
def State.flush (s : State) : State := { s.applyAll s.wb with wb := [] }

end Machine

end Sys2Proof
end

