-- ==== Sys2Proof/Machine/Environment.lean ====
section
/-! DEFINITION. The steps of the other agents: the DMA agent (spec/46_dma_agent.md), the write-buffer drain
(spec/20_memory.md rule R69) and the interrupt agent (spec/45_engine.md rule R235). A step that is not enabled, or whose
draws break a law, is no step of the agent: the state stays (DESIGN CHOICE, log entry 12). -/

namespace Sys2Proof

/-- The drawn words with OWN cleared in the OWN word (R252, R254). -/
def Params.releasedWord (p : Params) (d : Dir) (v : Words4) : Word :=
  v.at (p.ownWord d) &&& ~~~(p.own d).mask

namespace Machine

/-- When the DMA agent may step on slot `i` of ring `d` (R250, R251, R255). -/
def State.dmaEnabled (s : State) (d : Dir) (i : Nat) : Bool :=
  s.bound && decide (i < s.params.capacity d) && s.params.ownedByHw d (s.ownWordOf d i)
    && !(s.params.handoverAtomic && s.handover == some (d, i))
    && (!s.params.dmaInOrder || s.dmaPos d == i)

/-- The agent's position in a ring after a step on it, with DMA_IN_ORDER (R255). -/
def State.advanceDmaPos (s : State) (d : Dir) : State :=
  if s.params.dmaInOrder then
    match d with
    | .rx => { s with dmaPosRx := nextSlot s.params.nRx s.dmaPosRx }
    | .tx => { s with dmaPosTx := nextSlot s.params.nTx s.dmaPosTx }
  else s

/-- A write-back of four words: the OWN word last, with OWN = 0 (R252, R253, R254). -/
def State.writeBack (s : State) (d : Dir) (i : Nat) (v : Words4) : State :=
  let w := s.params.ownWord d
  let others := ([0, 1, 2, 3].filter (fun k => k != w)).foldl (fun t k => t.setWord d i k (v.at k)) s
  others.setWord d i w (s.params.releasedWord d v)

/-- The laws the draws of a receive write-back keep: at most RX_BUF_SIZE bytes, none where BUF1V is 0 (R252), and, with
DMA_LEN_HONEST, the true length in a whole frame (R256). -/
def State.rxDrawsLegal (s : State) (i : Nat) (bytes : List Byte) (v : Words4) : Bool :=
  decide (bytes.length ≤ s.params.rxBufSize)
    && (s.params.rxLayout.buf1v.isSet (s.ownWordOf .rx i) || bytes.isEmpty)
    && (!s.params.dmaLenHonest || !s.params.rxWholeFrame (s.params.releasedWord .rx v)
      || s.params.rxLen (s.params.releasedWord .rx v) == bytes.length)

/-- `DMA.RX_WRITEBACK i` (R252): the frame's bytes at the address the descriptor holds, then the status words, then
OWN = 0; `ri` is set where IOC was 1. -/
def State.rxWriteback (s : State) (i : Nat) (bytes : List Byte) (v : Words4) : State :=
  if s.dmaEnabled .rx i && s.rxDrawsLegal i bytes v then
    let ioc := s.params.rxLayout.ioc.isSet (s.ownWordOf .rx i)
    let a := s.word .rx i s.params.rxLayout.buf1ap.word
    let t := (s.putBytes a 0 bytes).writeBack .rx i v
    State.advanceDmaPos { t with ri := t.ri || ioc } .rx
  else s

/-- `DMA.TX_WRITEBACK j` (R254): the frame is taken from memory and sent, then the write-back; `ti` is set on the draw.
-/
def State.txWriteback (s : State) (j : Nat) (v : Words4) (t : Bool) : State :=
  if s.dmaEnabled .tx j then
    let a := s.word .tx j s.params.txLayout.buf1ap.word
    let l := (s.params.txLayout.b1l.get (s.word .tx j s.params.txLayout.b1l.word)).toNat
    let taken := s.fetchBytes s.byteAt a l
    let sending : State := { taken.2 with sent := taken.2.sent ++ [⟨j, taken.1⟩] }
    let u := sending.writeBack .tx j v
    State.advanceDmaPos { u with ti := u.ti || t } .tx
  else s

/-- ENG.INTERRUPT_ACK as a step of the interrupt agent: enabled whenever `irq` (R235), and, like the command, without
effect while the block is halted (R276) or not bound (R277) (DEDUCED, log entry 14). -/
def State.handlerAck (s : State) : State :=
  if s.irq && !s.halted && s.bound then { s with ri := false, ti := false } else s

/-- One step of another agent. -/
def State.envStep (s : State) : EnvStep → State
  | .drain n => s.drain n
  | .rxWriteback i bytes v => s.rxWriteback i bytes v
  | .txWriteback j v t => s.txWriteback j v t
  | .interruptAck => s.handlerAck

/-- Any number of steps of the other agents. -/
def State.envSteps (s : State) : List EnvStep → State
  | [] => s
  | e :: es => (s.envStep e).envSteps es

/-- The steps of the other agents that fall before the next micro-step of SW (R62) (DESIGN CHOICE, log entry 10). -/
def State.interleave (s : State) : State :=
  match s.schedule with
  | [] => s
  | es :: rest => State.envSteps { s with schedule := rest } es

end Machine

end Sys2Proof
end

