-- ==== Sys2Proof/Machine/Operands.lean ====
section
/-! DEFINITION. The operand ports that carry functions (spec/30_encoding.md rule R112): what `FN` and `FILL` compute. -/

namespace Sys2Proof

/-- The function of words that an `FN` operand stands for (R112, R131). -/
def WordFn.eval : WordFn → Word → Word
  | .arg, w => w
  | .lit v, _ => v
  | .and f g, w => f.eval w &&& g.eval w
  | .or f g, w => f.eval w ||| g.eval w
  | .xor f g, w => f.eval w ^^^ g.eval w
  | .not f, w => ~~~(f.eval w)
  | .shl f n, w => f.eval w <<< n
  | .shr f n, w => f.eval w >>> n
  | .ifEq c t e, w => if w = c then t.eval w else e.eval w

/-- The function of byte lists that a `FILL` operand stands for: the new bytes from the old ones, as many as there were
(R112, R211). -/
def FillFn.eval : FillFn → List Byte → List Byte
  | .keep, bs => bs
  | .write new, bs => new.take bs.length ++ bs.drop new.length
  | .ifEq old t e, bs => if bs = old then t.eval bs else e.eval bs

end Sys2Proof
end

