-- ==== Sys2Proof/Machine/Ops.lean ====
section
/-! DEFINITION. The micro-steps of SW (spec/20_memory.md rule R62, spec/00_scope.md rule R11), how an operation ends
(spec/60_exceptions.md rules R270 to R277, R280), and the tests that stand before every operation. The block has no trap
entry and no trap return (R284, R285): taking an "exception" is `raise`, and the shared operations for it are
`State.answer`, `State.raiseFatal` and `State.command` below. -/

namespace Sys2Proof.Machine

/-! ### Micro-steps. The other agents step before each one (`State.interleave`, R62). -/

/-- `DW[d][s][k]`: SW reads a descriptor word (R11, R66). -/
def swRead (d : Dir) (i k : Nat) (s : State) : Word × State :=
  let t := s.interleave
  (t.swWord d i k, t)

/-- `DW[d][s][k] <- v`: the write goes to the write buffer (R11, R67). -/
def swWrite (d : Dir) (i k : Nat) (v : Word) (s : State) : State :=
  let t := s.interleave
  { t with wb := t.wb ++ [.word d i k v] }

/-- A read-modify-write of a descriptor word: two micro-steps (R79, R131). -/
def swModify (d : Dir) (i k : Nat) (f : Word → Word) (s : State) : State :=
  let r := swRead d i k s
  swWrite d i k (f r.1) r.2

/-- SW reads one byte of buffer memory (R66, R78). -/
def swReadByte (a : Nat) (s : State) : Byte × State :=
  let t := s.interleave
  t.fetchByte (t.swByte a)

/-- SW writes one byte of buffer memory: the write goes to the write buffer (R67, R78). -/
def swWriteByte (a : Nat) (b : Byte) (s : State) : State :=
  let t := s.interleave
  { t with wb := t.wb ++ [.byte a b] }

/-- SW reads `n` bytes from place `i` of a buffer on, one after another (R78). -/
def readBytes (base : Word) : Nat → Nat → State → List Byte × State
  | 0, _, s => ([], s)
  | n + 1, i, s =>
    let b := swReadByte (addrAt base i) s
    let rest := readBytes base n (i + 1) b.2
    (b.1 :: rest.1, rest.2)

/-- SW writes a run of bytes from place `i` of a buffer on, one after another (R78). -/
def writeBytes (base : Word) : Nat → List Byte → State → State
  | _, [], s => s
  | i, b :: bs, s => writeBytes base (i + 1) bs (swWriteByte (addrAt base i) b s)

/-- `MemRead(addr, n)`: SW reads bytes of buffer memory, lowest address first (R11): "a sequence of byte accesses with no
atomicity", so the other agents step before each byte (R78; DEDUCED where R62 and R207 see one micro-step, log entry 19).
-/
def memRead (base : Word) (n : Nat) (s : State) : List Byte × State := readBytes base n 0 s

/-- `MemWrite(addr, n, v)`: SW writes bytes of buffer memory through the write buffer, lowest address first (R11), byte
by byte as it reads them (R78; log entry 19). -/
def memWrite (base : Word) (bs : List Byte) (s : State) : State := writeBytes base 0 bs s

/-- `FENCE.WW`: a fence marker goes to the write buffer (R140). -/
def fenceWw (s : State) : State :=
  let t := s.interleave
  { t with wb := t.wb ++ [.fence] }

/-- `BARRIER.DSB`: SW goes on when the write buffer is empty. What the drain agent has not drained by then reaches MEM
in list order, as R141 allows; the drains it does in another order are steps of the schedule (DESIGN CHOICE, log entry
11). -/
def barrierDsb (s : State) : State := s.interleave.flush

/-- `FENCE.FULL`: in the model a second BARRIER.DSB (R142). -/
def fenceFull (s : State) : State := s.interleave.flush

/-- `FENCE.RR`: no state change, SW's reads are in order already (R143). -/
def fenceRr (s : State) : State := s.interleave

/-! ### How a nested operation ends -/

/-- A nested operation ends with a value, or raises `Fatal`, which ends every enclosing operation too (R270). -/
inductive Run (α : Type) where
  | done (v : α) (s : State)
  | fatal (f : FatalInfo) (s : State)

/-- Go on after a nested operation, unless it raised (R270). -/
def Run.andThen {α β : Type} (r : Run α) (next : α → State → Run β) : Run β :=
  match r with
  | .done v s => next v s
  | .fatal f s => .fatal f s

/-! ### How an operation ends -/

/-- The operation ends with a value on the result port and no other change (R270, R284). -/
def State.answer (s : State) (r : Reply) : State := { s with reply := some r }

/-- `raise Fatal(info)`: the block halts; what the micro-steps so far did stays (R270, R274). -/
def State.raiseFatal (s : State) (f : FatalInfo) : State := { s with halted := true, reply := some (.fatal f) }

/-- The end of an operation that ran (R270). -/
def conclude : Run Reply → Host.Outcome State Fault Refusal
  | .done r s => .next (s.answer r)
  | .fatal f s => .next (s.raiseFatal f)

/-- A test before an operation: whether it holds, and what the operation is refused with where it does not. -/
abbrev Check := Bool × Reply

/-- The reply of the first test that fails, in the order of R280. -/
def firstRefusal : List Check → Option Reply
  | [] => none
  | (holds, r) :: cs => if holds then firstRefusal cs else some r

/-- An operation at the command interface: refused with no state change where a test fails (R275, R276, R280), else
run. -/
def State.command (s : State) (checks : List Check) (run : State → Run Reply) : Host.Outcome State Fault Refusal :=
  match firstRefusal checks with
  | some r => .next (s.answer r)
  | none => conclude (run s)

/-- SLOT is below the ring's capacity, else `ContractViolation(BadCommand)` (R114). -/
def State.slotCheck (s : State) (d : Dir) (i : Nat) : Check :=
  (decide (i < s.params.capacity d), .contract .badCommand)

/-- The block is not halted, else `Refused(Halted)` (R276). -/
def State.liveCheck (s : State) : Check := (!s.halted, .refusedHalted)

/-- The ring has been constructed, else `ContractViolation(RingNotConstructed)` (R277). -/
def State.readyCheck (s : State) (d : Dir) : Check := (s.ready d, .contract .ringNotConstructed)

/-- Both rings have been constructed (R230, R277). -/
def State.bothReadyCheck (s : State) : Check := (s.readyRx && s.readyTx, .contract .ringNotConstructed)

/-- The engine is bound, else `ContractViolation(NotBound)` (R277). -/
def State.boundCheck (s : State) : Check := (s.bound, .contract .notBound)

/-- The engine is not bound yet, else `ContractViolation(AlreadyBound)` (R277). -/
def State.unboundCheck (s : State) : Check := (!s.bound, .contract .alreadyBound)

/-- The tests of an operation on a named slot: decode, halt, construction (R114, R276, R277, R280). -/
def State.slotChecks (s : State) (d : Dir) (i : Nat) : List Check :=
  [s.slotCheck d i, s.liveCheck, s.readyCheck d]

/-- `len <= TX_BUF_SIZE`, else `ContractViolation(LengthExceedsCapacity)` (R211). -/
def State.capacityCheck (s : State) : Check :=
  (decide (s.ports.arg0.toNat ≤ s.params.txBufSize), .contract .lengthExceedsCapacity)

/-- `len <= 16383`, else `ContractViolation(LengthExceedsField)` (R181). -/
def State.fieldCheck (s : State) : Check :=
  (decide (s.ports.arg1.toNat ≤ 16383), .contract .lengthExceedsField)

end Sys2Proof.Machine
end

