-- ==== Sys2Proof/Machine/Ownership.lean ====
section
/-! DEFINITION. The ordering micro-operations and the ownership hand-over (spec/41_ownership_transfer.md). -/

namespace Sys2Proof.Machine

/-- Steps 2 to 6 of the hand-over (R145). The window opens at the write of step 3 (R146) and closes at the read of step
5, whatever it reads (R148). -/
def ownTransfer (d : Dir) (i : Nat) (s : State) : Run Unit :=
  let w := s.params.ownWord d
  let fenced := fenceWw s
  let old := swRead d i w fenced
  let written := swWrite d i w (old.1 ||| s.params.handoverMask d) old.2
  let visible := barrierDsb { written with handover := some (d, i) }
  let back := swRead d i w visible
  let closed : State := { back.2 with handover := none }
  if s.params.ownedByHw d back.1 then .done () (fenceFull closed)
  else .fatal (.ownershipReadback d i) closed

/-- `FENCE.WW` (R140). -/
def execFenceWw (s : State) : Host.Outcome State Fault Refusal :=
  s.command [s.liveCheck] fun s => .done .ok (fenceWw s)

/-- `BARRIER.DSB` (R141). -/
def execBarrierDsb (s : State) : Host.Outcome State Fault Refusal :=
  s.command [s.liveCheck] fun s => .done .ok (barrierDsb s)

/-- `FENCE.FULL` (R142). -/
def execFenceFull (s : State) : Host.Outcome State Fault Refusal :=
  s.command [s.liveCheck] fun s => .done .ok (fenceFull s)

/-- `FENCE.RR` (R143). -/
def execFenceRr (s : State) : Host.Outcome State Fault Refusal :=
  s.command [s.liveCheck] fun s => .done .ok (fenceRr s)

/-- `OWN.TRANSFER d, s` (R145). -/
def execOwnTransfer (d : Dir) (slot : Nat) (s : State) : Host.Outcome State Fault Refusal :=
  s.command (s.slotChecks d slot) fun s => (ownTransfer d slot s).andThen fun _ s => .done .ok s

end Sys2Proof.Machine
end

