-- ==== Sys2Proof/Machine/RxDescriptor.lean ====
section
/-! DEFINITION. The receive descriptor (spec/42_rx_descriptor.md). -/

namespace Sys2Proof.Machine

/-- The owner of a slot, "derived each call from the ownership bit" (R160, R180). -/
def isOwned (d : Dir) (i : Nat) (s : State) : Bool × State :=
  let r := swRead d i (s.params.ownWord d) s
  (s.params.ownedByHw d r.1, r.2)

/-- `RXD.SETUP i, buf`: metadata cleared, step 1, then the hand-over (R161). -/
def rxSetup (i : Nat) (buf : Word) (s : State) : Run Unit :=
  let cleared := s.setRxMeta i ⟨none, none⟩
  let addressed := swModify .rx i s.params.rxLayout.buf1ap.word (fun _ => buf) cleared
  let marked := swModify .rx i (s.params.ownWord .rx) s.params.rxSetupWord addressed
  ownTransfer .rx i marked

/-- `rx_cache_ts(i, w)` (R168). -/
def rxCacheTs (i : Nat) (w : Word) (s : State) : Option Timestamp × State :=
  let l := s.params.rxLayout
  if !s.params.timestamping then (none, s)
  else if !l.ld.isSet w then (none, s)
  else
    let valid : Bool × State :=
      if s.params.hasTsValid then
        let v := swRead .rx i l.tsv.word s
        (l.tsv.isSet v.1, v.2)
      else (true, s)
    if !valid.1 then (none, valid.2)
    else
      let sec := swRead .rx i l.tsSec.word valid.2
      let sub := swRead .rx i l.tsSubsec.word sec.2
      (some ⟨sec.1, sub.1⟩, sub.2)

/-- `RXD.TAKE_RECEIVED i, p, fb` (R162): would block, a whole frame, or dropped and re-armed (R164). -/
def takeReceived (i : Nat) (p : Option PacketId) (fb : Word) (s : State) : Run (Except RxError Unit) :=
  let o := isOwned .rx i s
  if o.1 then .done (.error .wouldBlock) o.2
  else
    let w := swRead .rx i (s.params.ownWord .rx) (fenceRr o.2)
    if s.params.rxWholeFrame w.1 then
      let ts := rxCacheTs i w.1 w.2
      .done (.ok ()) (ts.2.setRxMeta i ⟨p, ts.1⟩)
    else
      (rxSetup i fb w.2).andThen fun _ s => .done (.error .truncated) s

/-- `RXD.FRAME_LENGTH i` (R165). -/
def frameLength (i : Nat) (s : State) : Nat × State :=
  let r := swRead .rx i (s.params.ownWord .rx) s
  (if s.params.ownedByHw .rx r.1 then 0 else s.params.rxLen r.1, r.2)

/-- `RXD.IS_OWNED i -> Bool` (R160). -/
def execRxdIsOwned (slot : Nat) (s : State) : Host.Outcome State Fault Refusal :=
  s.command (s.slotChecks .rx slot) fun s =>
    let r := isOwned .rx slot s
    .done (.bool r.1) r.2

/-- `RXD.SETUP i, ARG0 = buf` (R161). -/
def execRxdSetup (slot : Nat) (s : State) : Host.Outcome State Fault Refusal :=
  s.command (s.slotChecks .rx slot) fun s =>
    (rxSetup slot s.ports.arg0 s).andThen fun _ s => .done .ok s

/-- The result of RXD.TAKE_RECEIVED on the result port (R162). -/
def receivedReply : Except RxError Unit → Reply
  | .ok _ => .ok
  | .error e => .rxErr e

/-- `RXD.TAKE_RECEIVED i, PID = p, ARG0 = fb -> Result () RxError` (R162). -/
def execRxdTakeReceived (slot : Nat) (s : State) : Host.Outcome State Fault Refusal :=
  s.command (s.slotChecks .rx slot) fun s =>
    (takeReceived slot s.ports.pid s.ports.arg0 s).andThen fun r s => .done (receivedReply r) s

/-- `RXD.FRAME_LENGTH i -> Nat` (R165). -/
def execRxdFrameLength (slot : Nat) (s : State) : Host.Outcome State Fault Refusal :=
  s.command (s.slotChecks .rx slot) fun s =>
    let r := frameLength slot s
    .done (.length r.1) r.2

/-- `RXD.PACKET_ID i -> Option PacketId` (R166). -/
def execRxdPacketId (slot : Nat) (s : State) : Host.Outcome State Fault Refusal :=
  s.command (s.slotChecks .rx slot) fun s => .done (.packetId (s.rxMetaAt slot).pid) s

/-- `RXD.TIMESTAMP i -> Option Timestamp` (R167). -/
def execRxdTimestamp (slot : Nat) (s : State) : Host.Outcome State Fault Refusal :=
  s.command (s.slotChecks .rx slot) fun s => .done (.timestamp (s.rxMetaAt slot).ts) s

end Sys2Proof.Machine
end

