-- ==== Sys2Proof/Machine/TxDescriptor.lean ====
section
/-! DEFINITION. The transmit descriptor (spec/43_tx_descriptor.md). -/

namespace Sys2Proof.Machine

/-- `TXD.SEND j, ptr, len, p` past its length test: metadata, step 1, then the hand-over (R181). TXRING.SEND runs it on a
length it has tested itself (DEDUCED, log entry 16). -/
def txSend (j : Nat) (ptr len : Word) (p : Option PacketId) (s : State) : Run Unit :=
  let l := s.params.txLayout
  let tagged := s.setTxMeta j { s.txMetaAt j with pid := p, ts := none }
  let addressed := swModify .tx j l.buf1ap.word (fun _ => ptr) tagged
  let sized := swModify .tx j l.b1l.word (fun w => l.b1l.put w len) addressed
  let marked := swModify .tx j (s.params.ownWord .tx) s.params.txSendWord sized
  ownTransfer .tx j marked

/-- The timestamp-valid test of R183: where TX.TSV lies in another word than the OWN word, that word is read first. -/
def txTsValid (j : Nat) (w : Word) (s : State) : Bool × State :=
  let l := s.params.txLayout
  if !s.params.hasTsValid then (true, s)
  else if l.tsv.word = s.params.ownWord .tx then (l.tsv.isSet w, s)
  else
    let v := swRead .tx j l.tsv.word s
    (l.tsv.isSet v.1, v.2)

/-- `tx_cache_ts(j, w)` (R183). -/
def txCacheTs (j : Nat) (w : Word) (s : State) : Option Timestamp × State :=
  let l := s.params.txLayout
  if !s.params.timestamping then (none, s)
  else if !l.ld.isSet w then (none, s)
  else
    let valid := txTsValid j w s
    if !valid.1 then (none, valid.2)
    else
      let sec := swRead .tx j l.tsSec.word valid.2
      let sub := swRead .tx j l.tsSubsec.word sec.2
      (some ⟨sec.1, sub.1⟩, sub.2)

/-- `TXD.TAKE_COMPLETED j, q` (R182): the stored identifier leaves the descriptor, and the timestamp is returned to the
caller who names it (R184). -/
def takeCompleted (j : Nat) (q : Option PacketId) (s : State) : Except TxError (Option Timestamp) × State :=
  let o := isOwned .tx j s
  if o.1 then (.error .wouldBlock, o.2)
  else
    let w := swRead .tx j (s.params.ownWord .tx) (fenceRr o.2)
    let stored := (w.2.txMetaAt j).pid
    let untagged := w.2.setTxMeta j { w.2.txMetaAt j with pid := none }
    if s.params.txError w.1 then
      (.error .errorSummary, untagged.setTxMeta j { untagged.txMetaAt j with ts := none })
    else
      let t := txCacheTs j w.1 untagged
      let cached := t.2.setTxMeta j { t.2.txMetaAt j with ts := t.1 }
      (.ok (if stored = q then t.1 else none), cached)

/-- The result of a transmit reclaim on the result port (R182, R213). -/
def completedReply : Except TxError (Option Timestamp) → Reply
  | .ok t => .timestamp t
  | .error e => .txErr e

/-- `TXD.IS_OWNED j -> Bool` (R180). -/
def execTxdIsOwned (slot : Nat) (s : State) : Host.Outcome State Fault Refusal :=
  s.command (s.slotChecks .tx slot) fun s =>
    let r := isOwned .tx slot s
    .done (.bool r.1) r.2

/-- `TXD.SEND j, ARG0 = ptr, ARG1 = len, PID = p` (R181). -/
def execTxdSend (slot : Nat) (s : State) : Host.Outcome State Fault Refusal :=
  s.command (s.slotChecks .tx slot ++ [s.fieldCheck]) fun s =>
    (txSend slot s.ports.arg0 s.ports.arg1 s.ports.pid s).andThen fun _ s => .done .ok s

/-- `TXD.TAKE_COMPLETED j, PID = q -> Result (Option Timestamp) TxError` (R182). -/
def execTxdTakeCompleted (slot : Nat) (s : State) : Host.Outcome State Fault Refusal :=
  s.command (s.slotChecks .tx slot) fun s =>
    let r := takeCompleted slot s.ports.pid s
    .done (completedReply r.1) r.2

end Sys2Proof.Machine
end

