-- ==== Sys2Proof/Machine/Rings.lean ====
section
/-! DEFINITION. The receive ring and the transmit ring (spec/44_rings.md). -/

namespace Sys2Proof.Machine

/-- All four words of a descriptor set to zero, in order, by RAW.MODIFY (R200, R210). -/
def zeroDescriptor (d : Dir) (i : Nat) (s : State) : State :=
  [0, 1, 2, 3].foldl (fun t k => swModify d i k (fun _ => 0) t) s

/-- Slots `i`, `i + 1`, ... of the receive ring zeroed and armed with their own buffers (R200, R201). -/
def armSlots : Nat → Nat → State → Run Unit
  | 0, _, s => .done () s
  | n + 1, i, s =>
    (rxSetup i (s.params.rxBuf i) (zeroDescriptor .rx i s)).andThen fun _ s => armSlots n (i + 1) s

/-- `RXRING.NEW` past its tests (R200). -/
def rxringNew (s : State) : Run Unit :=
  (armSlots s.params.nRx 0 s).andThen fun _ s =>
    .done () { s with rxNext := 0, rxHeld := none, readyRx := true }

/-- `rearm_held()`: the held slot, if any, is armed with its own buffer (R203, R205). -/
def rearmHeld (s : State) : Run Unit :=
  match s.rxHeld with
  | none => .done () s
  | some h => (rxSetup h (s.params.rxBuf h) s).andThen fun _ s => .done () { s with rxHeld := none }

/-- `RXRING.RECV_NEXT p` past its tests (R203). -/
def recvNext (p : Option PacketId) (s : State) : Run (Except RxError FrameView) :=
  let i := s.rxNext
  let n := s.params.nRx
  (takeReceived i p (s.params.rxBuf i) s).andThen fun r s =>
    match r with
    | .error .wouldBlock => .done (.error .wouldBlock) s
    | .error .truncated =>
      (rearmHeld s).andThen fun _ s => .done (.error .truncated) { s with rxNext := nextSlot n i }
    | .ok _ =>
      let len := frameLength i s
      if s.params.rxBufSize < len.1 then .fatal (.lengthExceedsBuffer i len.1) len.2
      else
        let bytes := memRead (s.params.rxBuf i) len.1 len.2
        (rearmHeld bytes.2).andThen fun _ s =>
          .done (.ok ⟨i, len.1, bytes.1⟩) { s with rxHeld := some i, rxNext := nextSlot n i }

/-- The result of RXRING.RECV_NEXT on the result port (R203). -/
def frameReply : Except RxError FrameView → Reply
  | .ok v => .frame v
  | .error e => .rxErr e

/-- Slots `j`, `j + 1`, ... of the transmit ring zeroed and their metadata cleared (R210). -/
def clearSlots : Nat → Nat → State → State
  | 0, _, s => s
  | n + 1, j, s => clearSlots n (j + 1) ((zeroDescriptor .tx j s).setTxMeta j ⟨none, none, false⟩)

/-- `TXRING.NEW` past its tests (R210). -/
def txringNew (s : State) : State :=
  { barrierDsb (fenceWw (clearSlots s.params.nTx 0 s)) with txNext := 0, txReclaim := 0, readyTx := true }

/-- The transmit slot is busy: sent, and not reclaimed or overwritten since (R44). -/
def State.busy (s : State) (j : Nat) : Bool := (s.txMetaAt j).busy

/-- The state with the busy flag of a transmit slot set to a value (R44). -/
def State.setBusy (s : State) (j : Nat) (b : Bool) : State := s.setTxMeta j { s.txMetaAt j with busy := b }

/-- The overwrite case: a completion never reclaimed is dropped, and the reclaim cursor moves past it (R212). -/
def dropLapped (j : Nat) (s : State) : State :=
  if s.busy j then { s with txReclaim := nextSlot s.params.nTx s.txReclaim } else s

/-- `TXRING.SEND len, p, g` past its tests (R211). -/
def ringSend (len : Word) (p : Option PacketId) (g : FillFn) (s : State) : Run (Except TxError Unit) :=
  let j := s.txNext
  let n := s.params.nTx
  let buf := s.params.txBuf j
  let o := isOwned .tx j s
  if o.1 then .done (.error .wouldBlock) o.2
  else
    let old := memRead buf len.toNat (dropLapped j o.2)
    let filled := memWrite buf (g.eval old.1) old.2
    (txSend j buf len p filled).andThen fun _ s =>
      .done (.ok ()) { s.setBusy j true with txNext := nextSlot n j }

/-- The result of TXRING.SEND on the result port (R211). -/
def sendReply : Except TxError Unit → Reply
  | .ok _ => .ok
  | .error e => .txErr e

/-- `TXRING.RECLAIM q` past its tests (R213). -/
def ringReclaim (q : Option PacketId) (s : State) : Except TxError (Option Timestamp) × State :=
  let j := s.txReclaim
  if !s.busy j then (.error .wouldBlock, s)
  else
    let r := takeCompleted j q s
    match r.1 with
    | .error .wouldBlock => r
    | _ => (r.1, { r.2.setBusy j false with txReclaim := nextSlot s.params.nTx j })

/-- `RXRING.NEW` (R200). -/
def execRxringNew (s : State) : Host.Outcome State Fault Refusal :=
  s.command [s.liveCheck, s.unboundCheck] fun s => (rxringNew s).andThen fun _ s => .done .ok s

/-- `RXRING.RECV_NEXT PID = p -> Result FrameView RxError` (R203). -/
def execRxringRecvNext (s : State) : Host.Outcome State Fault Refusal :=
  s.command [s.liveCheck, s.readyCheck .rx] fun s =>
    (recvNext s.ports.pid s).andThen fun r s => .done (frameReply r) s

/-- `TXRING.NEW` (R210). -/
def execTxringNew (s : State) : Host.Outcome State Fault Refusal :=
  s.command [s.liveCheck, s.unboundCheck] fun s => .done .ok (txringNew s)

/-- `TXRING.SEND ARG0 = len, PID = p, FILL = g -> Result () TxError` (R211). -/
def execTxringSend (s : State) : Host.Outcome State Fault Refusal :=
  s.command [s.liveCheck, s.readyCheck .tx, s.capacityCheck] fun s =>
    (ringSend s.ports.arg0 s.ports.pid s.ports.fill s).andThen fun r s => .done (sendReply r) s

/-- `TXRING.RECLAIM PID = q -> Result (Option Timestamp) TxError` (R213). -/
def execTxringReclaim (s : State) : Host.Outcome State Fault Refusal :=
  s.command [s.liveCheck, s.readyCheck .tx] fun s =>
    let r := ringReclaim s.ports.pid s
    .done (completedReply r.1) r.2

end Sys2Proof.Machine
end

