-- ==== Sys2Proof/Machine/Engine.lean ====
section
/-! DEFINITION. The DMA engine object (spec/45_engine.md). The ENG operations test `bound` and not `ready` (R277; DEDUCED, log
entry 17). -/

namespace Sys2Proof.Machine

/-- The configuration on the CFG port passes INIT_OK, else `Err(InitError)` (R230, R279). -/
def State.initCheck (s : State) : Check := (s.params.initOk.holds s.ports.cfg, .initErr)

/-- The engine is bound: interrupt bits clear, and the DMA agent may step from here on, at position 0 of each ring
(R230, R255). -/
def bindEngine (s : State) : State :=
  { s with intEnable := false, ri := false, ti := false, bound := true, dmaPosRx := 0, dmaPosTx := 0 }

/-- How many of the slots `j`, `j + 1`, ... SW reads as hardware-owned, one read each (R236). -/
def countOwned : Nat → Nat → State → Nat × State
  | 0, _, s => (0, s)
  | n + 1, j, s =>
    let o := isOwned .tx j s
    let rest := countOwned n (j + 1) o.2
    (if o.1 then rest.1 + 1 else rest.1, rest.2)

/-- How many transmit slots are busy (R236). -/
def State.outstanding (s : State) : Nat := (List.range s.params.nTx).countP (fun j => s.busy j)

/-- `ENG.NEW CFG = c -> Result () InitError` (R230). -/
def execEngNew (s : State) : Host.Outcome State Fault Refusal :=
  s.command [s.liveCheck, s.unboundCheck, s.bothReadyCheck, s.initCheck] fun s => .done .ok (bindEngine s)

/-- `ENG.SEND ARG0 = len, PID = p, FILL = g -> Result () TxError` (R231). -/
def execEngSend (s : State) : Host.Outcome State Fault Refusal :=
  s.command [s.liveCheck, s.boundCheck, s.capacityCheck] fun s =>
    (ringSend s.ports.arg0 s.ports.pid s.ports.fill s).andThen fun r s => .done (sendReply r) s

/-- `ENG.RECV_NEXT PID = p -> Result FrameView RxError` (R232). -/
def execEngRecvNext (s : State) : Host.Outcome State Fault Refusal :=
  s.command [s.liveCheck, s.boundCheck] fun s =>
    (recvNext s.ports.pid s).andThen fun r s => .done (frameReply r) s

/-- `ENG.ENABLE_INTERRUPT` (R233). -/
def execEngEnableInterrupt (s : State) : Host.Outcome State Fault Refusal :=
  s.command [s.liveCheck, s.boundCheck] fun s => .done .ok { s with intEnable := true }

/-- `ENG.DISABLE_INTERRUPT` (R234). -/
def execEngDisableInterrupt (s : State) : Host.Outcome State Fault Refusal :=
  s.command [s.liveCheck, s.boundCheck] fun s => .done .ok { s with intEnable := false }

/-- `ENG.INTERRUPT_ACK` as a command of SW (R235). -/
def execEngInterruptAck (s : State) : Host.Outcome State Fault Refusal :=
  s.command [s.liveCheck, s.boundCheck] fun s => .done .ok { s with ri := false, ti := false }

/-- `ENG.TX_STATE -> TxState` (R236). -/
def execEngTxState (s : State) : Host.Outcome State Fault Refusal :=
  s.command [s.liveCheck, s.boundCheck] fun s =>
    let h := countOwned s.params.nTx 0 s
    .done (.txState ⟨h.2.txNext, h.2.txReclaim, h.2.outstanding, h.1⟩) h.2

/-- `ENG.TX_RECLAIM PID = q -> Result (Option Timestamp) TxError` (R237). -/
def execEngTxReclaim (s : State) : Host.Outcome State Fault Refusal :=
  s.command [s.liveCheck, s.boundCheck] fun s =>
    let r := ringReclaim s.ports.pid s
    .done (completedReply r.1) r.2

end Sys2Proof.Machine
end

