-- ==== Sys2Proof/Machine/Raw.lean ====
section
/-! DEFINITION. The raw descriptor accessor (spec/40_raw_accessor.md). -/

namespace Sys2Proof.Machine

/-- `RAW.READ d, s, k -> Word` (R130). -/
def execRawRead (d : Dir) (slot : Nat) (k : Fin 4) (s : State) : Host.Outcome State Fault Refusal :=
  s.command (s.slotChecks d slot) fun s =>
    let r := swRead d slot k s
    .done (.word r.1) r.2

/-- `RAW.MODIFY d, s, k, FN` (R131). -/
def execRawModify (d : Dir) (slot : Nat) (k : Fin 4) (s : State) : Host.Outcome State Fault Refusal :=
  s.command (s.slotChecks d slot) fun s => .done .ok (swModify d slot k s.ports.fn.eval s)

end Sys2Proof.Machine
end

