-- ==== Sys2Proof/Machine/Dispatch.lean ====
section
/-! DEFINITION. The meaning of every operation (spec/30_encoding.md rule R110), one arm a constructor. -/

namespace Sys2Proof.Machine

def exec (i : Instr) (s : State) : Host.Outcome State Fault Refusal :=
  match i with
  | .rawRead d slot k => Sys2Proof.Machine.execRawRead d slot k s
  | .rawModify d slot k => Sys2Proof.Machine.execRawModify d slot k s
  | .fenceWw => Sys2Proof.Machine.execFenceWw s
  | .barrierDsb => Sys2Proof.Machine.execBarrierDsb s
  | .fenceFull => Sys2Proof.Machine.execFenceFull s
  | .fenceRr => Sys2Proof.Machine.execFenceRr s
  | .ownTransfer d slot => Sys2Proof.Machine.execOwnTransfer d slot s
  | .rxdIsOwned slot => Sys2Proof.Machine.execRxdIsOwned slot s
  | .rxdSetup slot => Sys2Proof.Machine.execRxdSetup slot s
  | .rxdTakeReceived slot => Sys2Proof.Machine.execRxdTakeReceived slot s
  | .rxdFrameLength slot => Sys2Proof.Machine.execRxdFrameLength slot s
  | .rxdPacketId slot => Sys2Proof.Machine.execRxdPacketId slot s
  | .rxdTimestamp slot => Sys2Proof.Machine.execRxdTimestamp slot s
  | .txdIsOwned slot => Sys2Proof.Machine.execTxdIsOwned slot s
  | .txdSend slot => Sys2Proof.Machine.execTxdSend slot s
  | .txdTakeCompleted slot => Sys2Proof.Machine.execTxdTakeCompleted slot s
  | .rxringNew => Sys2Proof.Machine.execRxringNew s
  | .rxringRecvNext => Sys2Proof.Machine.execRxringRecvNext s
  | .txringNew => Sys2Proof.Machine.execTxringNew s
  | .txringSend => Sys2Proof.Machine.execTxringSend s
  | .txringReclaim => Sys2Proof.Machine.execTxringReclaim s
  | .engNew => Sys2Proof.Machine.execEngNew s
  | .engSend => Sys2Proof.Machine.execEngSend s
  | .engRecvNext => Sys2Proof.Machine.execEngRecvNext s
  | .engEnableInterrupt => Sys2Proof.Machine.execEngEnableInterrupt s
  | .engDisableInterrupt => Sys2Proof.Machine.execEngDisableInterrupt s
  | .engInterruptAck => Sys2Proof.Machine.execEngInterruptAck s
  | .engTxState => Sys2Proof.Machine.execEngTxState s
  | .engTxReclaim => Sys2Proof.Machine.execEngTxReclaim s

end Sys2Proof.Machine
end

