-- ==== Sys2Proof/Decode.lean ====
section
/-! DEFINITION. The command word (spec/30_encoding.md rules R110, R111, R113, R114): the decoder, total on every word
and rejecting by name, and after it the encoder. -/

namespace Sys2Proof

/-- Why a command word is no operation; each case is `ContractViolation(BadCommand)` (R114). -/
inductive DecodeError where
  /-- OP is not in rule R110 (R113) -/
  | unassignedOp
  /-- a reserved bit of 15:11 is set (R111) -/
  | reservedBits
  /-- a field the operation's format does not have is not zero (R111) -/
  | unusedField
  deriving DecidableEq, Repr

/-- The four formats of a command word (R111). -/
inductive Format where
  | cmd0
  | cmdS
  | cmdDS
  | cmdR
  deriving DecidableEq, Repr

/-- The fields of a command word (R111): OP is bits 7:0, K bits 9:8, DIR bit 10, the reserved bits 15:11, SLOT 31:16. -/
structure CommandFields where
  op : Nat
  k : Fin 4
  dir : Dir
  reserved : Nat
  slot : Nat
  deriving DecidableEq, Repr

/-- The fields a command word holds (R111). -/
def commandFields (w : Word) : CommandFields :=
  { op := w.toNat % 256
    k := ⟨w.toNat / 256 % 4, Nat.mod_lt _ (by decide)⟩
    dir := if w.toNat / 1024 % 2 = 0 then .rx else .tx
    reserved := w.toNat / 2048 % 32
    slot := w.toNat / 65536 }

/-- Whether the fields a format does not have are all zero (R111, R114). -/
def CommandFields.unusedZero (c : CommandFields) : Format → Bool
  | .cmd0 => c.k = 0 && c.dir = .rx && c.slot = 0
  | .cmdS => c.k = 0 && c.dir = .rx
  | .cmdDS => c.k = 0
  | .cmdR => true

/-- The operation and the format that an opcode number selects; none for an unassigned number (R110, R113). -/
def CommandFields.select (c : CommandFields) : Option (Format × Instr) :=
  match c.op with
  | 0x00 => some (.cmdR, .rawRead c.dir c.slot c.k)
  | 0x01 => some (.cmdR, .rawModify c.dir c.slot c.k)
  | 0x08 => some (.cmd0, .fenceWw)
  | 0x09 => some (.cmd0, .barrierDsb)
  | 0x0A => some (.cmd0, .fenceFull)
  | 0x0B => some (.cmd0, .fenceRr)
  | 0x0C => some (.cmdDS, .ownTransfer c.dir c.slot)
  | 0x10 => some (.cmdS, .rxdIsOwned c.slot)
  | 0x11 => some (.cmdS, .rxdSetup c.slot)
  | 0x12 => some (.cmdS, .rxdTakeReceived c.slot)
  | 0x13 => some (.cmdS, .rxdFrameLength c.slot)
  | 0x14 => some (.cmdS, .rxdPacketId c.slot)
  | 0x15 => some (.cmdS, .rxdTimestamp c.slot)
  | 0x20 => some (.cmdS, .txdIsOwned c.slot)
  | 0x21 => some (.cmdS, .txdSend c.slot)
  | 0x22 => some (.cmdS, .txdTakeCompleted c.slot)
  | 0x30 => some (.cmd0, .rxringNew)
  | 0x31 => some (.cmd0, .rxringRecvNext)
  | 0x38 => some (.cmd0, .txringNew)
  | 0x39 => some (.cmd0, .txringSend)
  | 0x3A => some (.cmd0, .txringReclaim)
  | 0x40 => some (.cmd0, .engNew)
  | 0x41 => some (.cmd0, .engSend)
  | 0x42 => some (.cmd0, .engRecvNext)
  | 0x43 => some (.cmd0, .engEnableInterrupt)
  | 0x44 => some (.cmd0, .engDisableInterrupt)
  | 0x45 => some (.cmd0, .engInterruptAck)
  | 0x46 => some (.cmd0, .engTxState)
  | 0x47 => some (.cmd0, .engTxReclaim)
  | _ => none

/-- The decoder (R111, R114). The test of SLOT against the ring's capacity needs the instance's parameters and stands
first in every operation (`State.slotCheck`). -/
def decode (w : Word) : Except DecodeError Instr :=
  match (commandFields w).select with
  | none => .error .unassignedOp
  | some (f, i) =>
    if (commandFields w).reserved = 0 then
      if (commandFields w).unusedZero f then .ok i else .error .unusedField
    else .error .reservedBits

/-- The opcode number of an operation (R110). -/
def Instr.opcode : Instr → Nat
  | .rawRead _ _ _ => 0x00
  | .rawModify _ _ _ => 0x01
  | .fenceWw => 0x08
  | .barrierDsb => 0x09
  | .fenceFull => 0x0A
  | .fenceRr => 0x0B
  | .ownTransfer _ _ => 0x0C
  | .rxdIsOwned _ => 0x10
  | .rxdSetup _ => 0x11
  | .rxdTakeReceived _ => 0x12
  | .rxdFrameLength _ => 0x13
  | .rxdPacketId _ => 0x14
  | .rxdTimestamp _ => 0x15
  | .txdIsOwned _ => 0x20
  | .txdSend _ => 0x21
  | .txdTakeCompleted _ => 0x22
  | .rxringNew => 0x30
  | .rxringRecvNext => 0x31
  | .txringNew => 0x38
  | .txringSend => 0x39
  | .txringReclaim => 0x3A
  | .engNew => 0x40
  | .engSend => 0x41
  | .engRecvNext => 0x42
  | .engEnableInterrupt => 0x43
  | .engDisableInterrupt => 0x44
  | .engInterruptAck => 0x45
  | .engTxState => 0x46
  | .engTxReclaim => 0x47

/-- The DIR bit (R111). -/
def Dir.bit : Dir → Nat
  | .rx => 0
  | .tx => 1

/-- A command word from its fields (R111). -/
def commandWord (op k : Nat) (d : Dir) (slot : Nat) : Word :=
  BitVec.ofNat 32 (op + 256 * k + 1024 * d.bit + 65536 * slot)

/-- The encoder: the command word of an operation (R111). -/
def encode (i : Instr) : Word :=
  match i with
  | .rawRead d slot k => commandWord i.opcode k d slot
  | .rawModify d slot k => commandWord i.opcode k d slot
  | .ownTransfer d slot => commandWord i.opcode 0 d slot
  | .rxdIsOwned slot => commandWord i.opcode 0 .rx slot
  | .rxdSetup slot => commandWord i.opcode 0 .rx slot
  | .rxdTakeReceived slot => commandWord i.opcode 0 .rx slot
  | .rxdFrameLength slot => commandWord i.opcode 0 .rx slot
  | .rxdPacketId slot => commandWord i.opcode 0 .rx slot
  | .rxdTimestamp slot => commandWord i.opcode 0 .rx slot
  | .txdIsOwned slot => commandWord i.opcode 0 .rx slot
  | .txdSend slot => commandWord i.opcode 0 .rx slot
  | .txdTakeCompleted slot => commandWord i.opcode 0 .rx slot
  | .fenceWw => commandWord i.opcode 0 .rx 0
  | .barrierDsb => commandWord i.opcode 0 .rx 0
  | .fenceFull => commandWord i.opcode 0 .rx 0
  | .fenceRr => commandWord i.opcode 0 .rx 0
  | .rxringNew => commandWord i.opcode 0 .rx 0
  | .rxringRecvNext => commandWord i.opcode 0 .rx 0
  | .txringNew => commandWord i.opcode 0 .rx 0
  | .txringSend => commandWord i.opcode 0 .rx 0
  | .txringReclaim => commandWord i.opcode 0 .rx 0
  | .engNew => commandWord i.opcode 0 .rx 0
  | .engSend => commandWord i.opcode 0 .rx 0
  | .engRecvNext => commandWord i.opcode 0 .rx 0
  | .engEnableInterrupt => commandWord i.opcode 0 .rx 0
  | .engDisableInterrupt => commandWord i.opcode 0 .rx 0
  | .engInterruptAck => commandWord i.opcode 0 .rx 0
  | .engTxState => commandWord i.opcode 0 .rx 0
  | .engTxReclaim => commandWord i.opcode 0 .rx 0

/-- The host's question: what the decoder reads from an operation whose bits are `w`. A command is one 32-bit word
on the command port (R111), so it has no byte order. -/
def decodeTableWord (nbits w : Nat) : Option Instr :=
  match decode (BitVec.ofNat 32 (w % 2 ^ nbits)) with
  | .ok i => some i
  | .error _ => none

end Sys2Proof
end

