-- ==== Sys2Proof/Machine/Fetch.lean ====
section
/-! DEFINITION. Taking what arrives at the command interface (spec/30_encoding.md rules R111, R112, R114;
spec/10_state.md rule R26: the block fetches nothing, commands come to it from outside). -/

namespace Sys2Proof.Machine

/-- The operand ports take the operands that came with a command (R112). -/
def State.latch (s : State) (rest : List Input) (c : Command) : State := { s with inbox := rest, ports := c.ports }

/-- A command word that is no operation: `ContractViolation(BadCommand)`, no other change (R114, R275). -/
def State.badCommand (s : State) : State := s.answer (.contract .badCommand)

/-- The machine with a command word at the head of what arrives, its operands those on the ports now. -/
def State.placeCommand (s : State) (w : Word) : State := { s with inbox := .command ⟨w, s.ports⟩ :: s.inbox }

end Sys2Proof.Machine
end

