-- ==== Sys2Proof/Machine/Step.lean ====
section
/-! DEFINITION. One step of the machine: the next thing that has arrived is taken. A command is decoded and runs as one
step, with the other agents' steps between its micro-steps as the schedule says (spec/20_memory.md rule R62); a step of
another agent is taken alone; with nothing arrived the block waits. -/

namespace Sys2Proof.Machine

/-- One step. An instance whose parameters are ill formed is refused (U7; DESIGN CHOICE, log entry 15). -/
def step (s : State) : Host.Outcome State Fault Refusal :=
  if s.params.wf then
    match s.inbox with
    | [] => .next s
    | .env e :: rest => .next (State.envStep { s with inbox := rest } e)
    | .command c :: rest =>
      match decode c.word with
      | .ok i => exec i (s.latch rest c)
      | .error _ => .next (s.latch rest c).badCommand
  else .refused .illFormedInstance

/-- The state whose very next step runs the command word `w` (log entry 9). -/
def State.withFetchWord (s : State) (nbits w : Nat) : State := s.placeCommand (BitVec.ofNat 32 (w % 2 ^ nbits))

end Sys2Proof.Machine
end

