-- ==== Sys2Proof/Machine/Outcomes.lean ====
section
/-! DEFINITION. The codes of the outcomes (spec/60_exceptions.md rule R271), and the maps between descriptor records and
words (spec/30_encoding.md rule R105), which no operation uses and claims may (log entry 21). -/

namespace Sys2Proof

namespace Machine

/-- The code of an outcome (R271); every normal result is 0x00. -/
def Reply.code : Reply → BitVec 8
  | .ok => 0x00
  | .word _ => 0x00
  | .bool _ => 0x00
  | .length _ => 0x00
  | .packetId _ => 0x00
  | .timestamp _ => 0x00
  | .frame _ => 0x00
  | .txState _ => 0x00
  | .rxErr .wouldBlock => 0x01
  | .txErr .wouldBlock => 0x01
  | .rxErr .truncated => 0x02
  | .txErr .errorSummary => 0x03
  | .initErr => 0x04
  | .contract .badCommand => 0x40
  | .contract .lengthExceedsField => 0x41
  | .contract .lengthExceedsCapacity => 0x42
  | .contract .ringNotConstructed => 0x43
  | .contract .notBound => 0x44
  | .contract .alreadyBound => 0x45
  | .fatal (.ownershipReadback _ _) => 0x80
  | .fatal (.lengthExceedsBuffer _ _) => 0x81
  | .refusedHalted => 0xFF

end Machine

/-- The word at an index that a list of field values makes, other bits zero (R105). -/
def placeFields (fs : List (Field × Word)) (k : Nat) : Word :=
  fs.foldl (fun w f => if f.1.word = k then f.1.put w f.2 else w) 0

/-- Four words from field values (R105). -/
def wordsOfFields (fs : List (Field × Word)) : Words4 :=
  ⟨placeFields fs 0, placeFields fs 1, placeFields fs 2, placeFields fs 3⟩

/-- `enc_rx_read` (R105). -/
def RxLayout.encRead (l : RxLayout) (buf1 own ioc buf2v buf1v : Word) : Words4 :=
  wordsOfFields [(l.buf1ap, buf1), (l.own, own), (l.ioc, ioc), (l.buf2v, buf2v), (l.buf1v, buf1v)]

/-- `enc_tx_read` (R105). -/
def TxLayout.encRead (l : TxLayout) (buf1 len own fd ld : Word) : Words4 :=
  wordsOfFields [(l.buf1ap, buf1), (l.b1l, len), (l.own, own), (l.fd, fd), (l.ld, ld)]

/-- A receive write-back as a record (R105). -/
structure RxWriteBack where
  own : Bool
  ctxt : Bool
  fd : Bool
  ld : Bool
  es : Bool
  len : Nat
  deriving DecidableEq, Repr

/-- `dec_rx_wb` (R105). -/
def RxLayout.decWriteBack (l : RxLayout) (v : Words4) : RxWriteBack :=
  { own := l.own.isSet (v.at l.own.word)
    ctxt := l.ctxt.isSet (v.at l.ctxt.word)
    fd := l.fd.isSet (v.at l.fd.word)
    ld := l.ld.isSet (v.at l.ld.word)
    es := l.es.isSet (v.at l.es.word)
    len := (l.len.get (v.at l.len.word)).toNat }

/-- A transmit write-back as a record (R105). -/
structure TxWriteBack where
  own : Bool
  ld : Bool
  tsv : Bool
  es : Bool
  subsec : Word
  sec : Word
  deriving DecidableEq, Repr

/-- `dec_tx_wb` (R105). -/
def TxLayout.decWriteBack (l : TxLayout) (v : Words4) : TxWriteBack :=
  { own := l.own.isSet (v.at l.own.word)
    ld := l.ld.isSet (v.at l.ld.word)
    tsv := l.tsv.isSet (v.at l.tsv.word)
    es := l.es.isSet (v.at l.es.word)
    subsec := v.at l.tsSubsec.word
    sec := v.at l.tsSec.word }

end Sys2Proof
end

