-- ==== Sys2Proof/Safety.lean ====
section
/-! DEFINITION. The terms claims are stated in: when no other agent steps inside an operation, the invariants of the
block (spec/10_state.md rules R27 to R31, R44 to R49), and the parts of the state an agent may not touch
(spec/46_dma_agent.md rule R250). -/

namespace Sys2Proof

/-- The byte addresses of word `k` of a descriptor (R82, R132). -/
def Params.holdsWord (p : Params) (d : Dir) (i k a : Nat) : Prop :=
  ∃ b, p.descriptorByte a = some (d, 4 * i + k, b)

namespace Machine

/-- No step of another agent falls inside the operations to come (R62). -/
def State.Quiet (s : State) : Prop := s.schedule = []

/-- The state holds what its parameters say: four words a descriptor, one metadata record a slot (R22, R42). -/
structure State.Sized (s : State) : Prop where
  rxWords : s.rxWords.length = 4 * s.params.nRx
  txWords : s.txWords.length = 4 * s.params.nTx
  rxMeta : s.rxMeta.length = s.params.nRx
  txMeta : s.txMeta.length = s.params.nTx

/-- "A cursor holds a value below its ring's capacity at all times" (R30). -/
structure State.CursorsBelowCapacity (s : State) : Prop where
  rxNext : s.rxNext < s.params.nRx
  txNext : s.txNext < s.params.nTx
  txReclaim : s.txReclaim < s.params.nTx

/-- The held slot is the one just behind the receive cursor (R31). -/
def State.HeldBehindCursor (s : State) : Prop :=
  ∀ h, s.rxHeld = some h → h < s.params.nRx ∧ s.rxNext = nextSlot s.params.nRx h

/-- The busy transmit slots are exactly the cyclic range from the reclaim cursor up to the submit cursor, all of them
when the ring is full (R44): `n` slots from `txReclaim` on. -/
def State.BusyRange (s : State) : Prop :=
  ∃ n, n ≤ s.params.nTx ∧ s.txNext = (s.txReclaim + n) % s.params.nTx ∧
    ∀ j, j < s.params.nTx → (s.busy j = true ↔ ∃ m, m < n ∧ j = (s.txReclaim + m) % s.params.nTx)

/-- Buffer memory is in canonical form, and lists no byte of a descriptor. -/
structure State.MemoryCanonical (s : State) : Prop where
  wf : s.mem.wf = true
  apart : ∀ c ∈ s.mem, s.params.descriptorByte c.1 = none

/-- An entry of the write buffer that SW can have made: a word of a descriptor that exists, or a byte outside the
descriptor arrays (R22, R211, R311). -/
def WbEntry.Sound (p : Params) : WbEntry → Prop
  | .word d i k _ => i < p.capacity d ∧ k < 4
  | .byte a _ => p.descriptorByte a = none ∧ a < 2 ^ 32
  | .fence => True

/-- Every entry of the write buffer is one SW can have made. -/
def State.WbSound (s : State) : Prop := ∀ e ∈ s.wb, e.Sound s.params

/-- The construction flags and the interrupt bits agree (R49, R230, R250): bound only over constructed rings, no
interrupt bit set before. -/
structure State.EngineConsistent (s : State) : Prop where
  readyRx : s.bound = true → s.readyRx = true
  readyTx : s.bound = true → s.readyTx = true
  quietBefore : s.bound = false → s.intEnable = false ∧ s.ri = false ∧ s.ti = false

/-- The block runs: its instance is well formed, its state has the sizes of its instance, it is not halted, and no step
of another agent falls inside the operation (R8, R22, R276, R62). -/
structure State.Undisturbed (s : State) : Prop where
  instanceWf : s.params.wf = true
  sized : s.Sized
  running : s.halted = false
  quiet : s.Quiet

/-- The cursors and the held slot agree in two states. -/
structure SameCursors (s t : State) : Prop where
  rxNext : t.rxNext = s.rxNext
  txNext : t.txNext = s.txNext
  txReclaim : t.txReclaim = s.txReclaim
  rxHeld : t.rxHeld = s.rxHeld

/-- The control state agrees in two states: parameters, interrupt bits, construction flags, `halted`, the agents'
positions, and the model's own interface but for the result port and the draw counter. -/
structure SameControl (s t : State) : Prop where
  params : t.params = s.params
  intEnable : t.intEnable = s.intEnable
  ri : t.ri = s.ri
  ti : t.ti = s.ti
  halted : t.halted = s.halted
  readyRx : t.readyRx = s.readyRx
  readyTx : t.readyTx = s.readyTx
  bound : t.bound = s.bound
  dmaPosRx : t.dmaPosRx = s.dmaPosRx
  dmaPosTx : t.dmaPosTx = s.dmaPosTx
  inbox : t.inbox = s.inbox
  ports : t.ports = s.ports
  schedule : t.schedule = s.schedule
  sent : t.sent = s.sent

/-- What no other agent may touch agrees in two states: the software-only state, the control state but for the two
interrupt flags, and the ports (R250, R42, R49). -/
structure SameForSoftware (s t : State) : Prop where
  params : t.params = s.params
  rxNext : t.rxNext = s.rxNext
  txNext : t.txNext = s.txNext
  txReclaim : t.txReclaim = s.txReclaim
  rxHeld : t.rxHeld = s.rxHeld
  rxMeta : t.rxMeta = s.rxMeta
  txMeta : t.txMeta = s.txMeta
  intEnable : t.intEnable = s.intEnable
  halted : t.halted = s.halted
  readyRx : t.readyRx = s.readyRx
  readyTx : t.readyTx = s.readyTx
  bound : t.bound = s.bound
  inbox : t.inbox = s.inbox
  ports : t.ports = s.ports
  reply : t.reply = s.reply

/-- The invariants of the block between two steps: a well-formed instance, the sizes of its state, the cursors (R30),
the held slot (R31), canonical memory, a write buffer SW can have made, the construction flags (R49), and no hand-over
window open (R47). -/
structure State.Invariant (s : State) : Prop where
  instanceWf : s.params.wf = true
  sized : s.Sized
  cursors : s.CursorsBelowCapacity
  held : s.HeldBehindCursor
  memory : s.MemoryCanonical
  writeBuffer : s.WbSound
  engine : s.EngineConsistent
  window : s.handover = none

/-- Every receive slot that MEM shows hardware-owned holds a buffer address whose buffer lies outside the descriptor
arrays: the caller's duty of R311, as far as the hand-over needs it. -/
def State.PointersApart (s : State) : Prop :=
  ∀ i, i < s.params.nRx → s.params.ownedByHw .rx (s.ownWordOf .rx i) = true →
    ∀ k, k < s.params.rxBufSize →
      s.params.descriptorByte (addrAt (s.word .rx i s.params.rxLayout.buf1ap.word) k) = none

/-- The timestamp a receive reclaim caches when the frame is whole (R168): two words of the descriptor as SW sees them,
if timestamping is on and, where the variant has it, the valid bit is set. -/
def State.rxTimestamp (s : State) (i : Nat) : Option Timestamp :=
  let l := s.params.rxLayout
  if s.params.timestamping && (!s.params.hasTsValid || l.tsv.isSet (s.swWord .rx i l.tsv.word)) then
    some ⟨s.swWord .rx i l.tsSec.word, s.swWord .rx i l.tsSubsec.word⟩
  else none

/-- The timestamp a transmit reclaim caches (R183). -/
def State.txTimestamp (s : State) (j : Nat) : Option Timestamp :=
  let l := s.params.txLayout
  if s.params.timestamping && l.ld.isSet (s.swWord .tx j l.own.word)
      && (!s.params.hasTsValid || l.tsv.isSet (s.swWord .tx j l.tsv.word)) then
    some ⟨s.swWord .tx j l.tsSec.word, s.swWord .tx j l.tsSubsec.word⟩
  else none

/-- The OWN word of a slot as SW sees it. -/
def State.swOwnWord (s : State) (d : Dir) (i : Nat) : Word := s.swWord d i (s.params.ownWord d)

/-- SW reads a slot as hardware-owned (R33, R160, R180). -/
def State.swOwned (s : State) (d : Dir) (i : Nat) : Bool := s.params.ownedByHw d (s.swOwnWord d i)

/-- Every byte outside a set of addresses reads the same in two states. -/
def SameBytesOutside (stored : Nat → Prop) (s t : State) : Prop := ∀ a, ¬ stored a → t.byteAt a = s.byteAt a

end Machine

end Sys2Proof
end

