-- ==== Sys2Proof/Certificates/Slice0/Obligations.lean ====
section
/-! DEFINITION. The statements for the provers. Where a statement speaks of one operation, no other agent steps inside
it (`State.Undisturbed`, or `State.Quiet`) unless its docstring says "whatever the schedule". -/

open Sys2Proof Sys2Proof.Machine

/-! ### Encoding and steps -/

/-- Words of spec/95_test_vectors.md V30.1 to V30.17, written out from the formats of R111. -/
def Obligations.SpecWordsDecode : Prop :=
  decode 0x00020300 = .ok (.rawRead .rx 2 3) ∧
  decode 0x00010601 = .ok (.rawModify .tx 1 2) ∧
  decode 0x0003040C = .ok (.ownTransfer .tx 3) ∧
  decode 0x00000009 = .ok .barrierDsb ∧
  decode 0x00030013 = .ok (.rxdFrameLength 3) ∧
  decode 0x00020022 = .ok (.txdTakeCompleted 2) ∧
  decode 0x00000031 = .ok .rxringRecvNext ∧
  decode 0x00000047 = .ok .engTxReclaim ∧
  decode 0x00000002 = .error .unassignedOp ∧
  decode 0x00000830 = .error .reservedBits ∧
  decode 0x00010030 = .error .unusedField ∧
  decode 0x0000030C = .error .unusedField

/-- Decoding the command word of an operation gives the operation back, every operand at every value its field admits
(R110, R111). -/
def Obligations.DecodeOfEncodeIsTheOperation : Prop :=
  ∀ i : Instr, i.encodable = true → decode (encode i) = .ok i

/-- A word that decodes is the command word of what it decodes to: each word has one meaning and no bit is dropped
(R111, R114). -/
def Obligations.DecodedWordIsItsEncoding : Prop :=
  ∀ (w : Word) (i : Instr), decode w = .ok i → i.encodable = true ∧ encode i = w

/-- The opcode numbers of rule R110. -/
def assignedOpcodes : List Nat :=
  [0x00, 0x01, 0x08, 0x09, 0x0A, 0x0B, 0x0C, 0x10, 0x11, 0x12, 0x13, 0x14, 0x15, 0x20, 0x21, 0x22, 0x30, 0x31, 0x38, 0x39,
    0x3A, 0x40, 0x41, 0x42, 0x43, 0x44, 0x45, 0x46, 0x47]

/-- R114: a word whose OP is unassigned, whose reserved bits are not zero, or whose unused field is not zero (the upper
24 bits of a CMD0 word, K and DIR of a CMDS word, K of OWN.TRANSFER), or whose SLOT is not below the ring's capacity, is
refused with BadCommand and no state changes but that the command is taken from the inbox and its operands stand on the
ports; any other word is a well-formed operation. -/
def Obligations.IllegalCommandIsRefused : Prop :=
  ∀ (s : State) (c : Command) (rest : List Input), s.params.wf = true → s.inbox = .command c :: rest →
    let op := c.word.toNat % 256
    let illegal :=
      op ∉ assignedOpcodes ∨ c.word.toNat / 2048 % 32 ≠ 0 ∨
      (op ∈ [0x08, 0x09, 0x0A, 0x0B, 0x30, 0x31, 0x38, 0x39, 0x3A, 0x40, 0x41, 0x42, 0x43, 0x44, 0x45, 0x46, 0x47] ∧
        c.word.toNat / 256 ≠ 0) ∨
      (op ∈ [0x10, 0x11, 0x12, 0x13, 0x14, 0x15, 0x20, 0x21, 0x22] ∧ c.word.toNat / 256 % 8 ≠ 0) ∨
      (op = 0x0C ∧ c.word.toNat / 256 % 4 ≠ 0) ∨
      (op ∈ [0x00, 0x01, 0x0C] ∧ s.params.capacity (if c.word.toNat / 1024 % 2 = 0 then .rx else .tx) ≤ c.word.toNat / 65536) ∨
      (op ∈ [0x10, 0x11, 0x12, 0x13, 0x14, 0x15] ∧ s.params.nRx ≤ c.word.toNat / 65536) ∨
      (op ∈ [0x20, 0x21, 0x22] ∧ s.params.nTx ≤ c.word.toNat / 65536)
    (illegal → step s = .next ((s.latch rest c).answer (.contract .badCommand))) ∧
    (¬ illegal → ∃ i, decode c.word = .ok i ∧ i.wf s.params = true)

/-- The word at the head of what has arrived is decoded, its operands go to the ports, and the step is the meaning of
the operation there. -/
def Obligations.StepRunsTheDecodedCommand : Prop :=
  ∀ (s : State) (c : Command) (rest : List Input) (i : Instr), s.params.wf = true → s.inbox = .command c :: rest →
    decode c.word = .ok i → step s = exec i { s with inbox := rest, ports := c.ports }

/-- A step of another agent between two commands is taken alone; with nothing arrived the block waits; an instance that
is ill formed is refused (U7). -/
def Obligations.StepOtherwise : Prop :=
  ∀ s : State,
    (∀ e rest, s.params.wf = true → s.inbox = .env e :: rest → step s = .next (State.envStep { s with inbox := rest } e)) ∧
    (s.params.wf = true → s.inbox = [] → step s = .next s) ∧
    (s.params.wf = false → step s = .refused .illFormedInstance)

/-! ### Fields -/

/-- R117 (b): the laws of `get` and `put` for a field inside a word; the other bits of the word stay. -/
def Obligations.FieldGetPutLaws : Prop :=
  ∀ (f : Field) (w v : Word), f.lo ≤ f.hi → f.hi ≤ 31 →
    (f.get (f.put w v)).toNat = v.toNat % 2 ^ f.width ∧
    f.put w (f.get w) = w ∧
    ∀ b, b < f.lo ∨ f.hi < b → (f.put w v).getLsbD b = w.getLsbD b

/-- R101, R163 in the default layout: the classification is one mask test, and the length is bits 13:0 of the status
word. -/
def Obligations.DefaultLayoutClassification : Prop :=
  ∀ (p : Params) (w : Word), p.rxLayout = defaultRxLayout →
    p.rxWholeFrame w = ((w &&& 0x70008000) == 0x30000000) ∧
    p.rxLen w = w.toNat % 16384 ∧
    p.ownedByHw .rx w = w.getLsbD 31

/-! ### The write buffer -/

/-- Draining changes nothing SW can read (R66, R69, R141): a word of a descriptor, or a byte outside the descriptor
arrays. -/
def Obligations.DrainKeepsWhatSoftwareReads : Prop :=
  ∀ (s : State) (n : Nat), s.params.wf = true → s.Sized → s.WbSound →
    (∀ d i k, i < s.params.capacity d → k < 4 → (s.drain n).swWord d i k = s.swWord d i k) ∧
    (∀ a, s.params.descriptorByte a = none → (s.drain n).swByte a = s.swByte a)

/-- R69, R73: while an entry older than a fence is pending, every entry younger than the fence stays pending, whatever
the other agents do; entries leave and none arrive. -/
def Obligations.FenceHoldsYoungerWritesBack : Prop :=
  ∀ (s : State) (old young : List WbEntry) (es : List EnvStep), s.wb = old ++ .fence :: young →
    (∃ left, left.Sublist old ∧ (s.envSteps es).wb = left ++ .fence :: young) ∨ (s.envSteps es).wb.Sublist young

/-! ### Raw accessor, fences, hand-over -/

/-- R130: RAW.READ answers the word as SW sees it and changes nothing. -/
def Obligations.RawReadAnswersTheWord : Prop :=
  ∀ (s : State) (d : Dir) (slot : Nat) (k : Fin 4), s.Undisturbed → slot < s.params.capacity d → s.ready d = true →
    exec (.rawRead d slot k) s = .next (s.answer (.word (s.swWord d slot k)))

/-- R131: RAW.MODIFY queues one write, of FN of the word SW sees, and changes nothing else; SW then reads the new word,
and MEM keeps the old one. -/
def Obligations.RawModifyQueuesOneWrite : Prop :=
  ∀ (s : State) (d : Dir) (slot : Nat) (k : Fin 4), s.Undisturbed → slot < s.params.capacity d → s.ready d = true →
    let t := State.answer { s with wb := s.wb ++ [.word d slot k (s.ports.fn.eval (s.swWord d slot k))] } .ok
    exec (.rawModify d slot k) s = .next t ∧
    t.swWord d slot k = s.ports.fn.eval (s.swWord d slot k) ∧
    t.word d slot k = s.word d slot k

/-- R140, R143: FENCE.WW appends a fence marker, FENCE.RR changes nothing. -/
def Obligations.FencesOrderOnly : Prop :=
  ∀ s : State, s.Undisturbed →
    exec .fenceWw s = .next (State.answer { s with wb := s.wb ++ [.fence] } .ok) ∧
    exec .fenceRr s = .next (s.answer .ok)

/-- R141, R142: BARRIER.DSB and FENCE.FULL end with nothing pending; what SW read before is then what MEM holds, for
every word of a descriptor and every byte outside the descriptor arrays, and no register but shared memory has changed.
-/
def Obligations.BarriersEmptyTheWriteBuffer : Prop :=
  ∀ s : State, s.Undisturbed → s.WbSound →
    ∃ t, exec .barrierDsb s = .next t ∧ exec .fenceFull s = .next t ∧ t.reply = some .ok ∧ t.wb = [] ∧
      (∀ d i k, i < s.params.capacity d → k < 4 → t.word d i k = s.swWord d i k) ∧
      (∀ a, s.params.descriptorByte a = none → t.byteAt a = s.swByte a) ∧
      SameCursors s t ∧ SameControl s t ∧ t.rxMeta = s.rxMeta ∧ t.txMeta = s.txMeta ∧ t.handover = s.handover ∧
      t.draws = s.draws

/-- R145: OWN.TRANSFER ends with everything pending in MEM, the OWN word with the mask of step 3 set and no other bit
changed, the slot hardware-owned, the window closed; every other field of the state is as the barrier leaves it. -/
def Obligations.OwnTransferHandsOver : Prop :=
  ∀ (s : State) (d : Dir) (slot : Nat), s.Undisturbed → slot < s.params.capacity d → s.ready d = true →
    let w := s.swOwnWord d slot ||| s.params.handoverMask d
    let t := State.answer { s.flush.setWord d slot (s.params.ownWord d) w with handover := none } .ok
    exec (.ownTransfer d slot) s = .next t ∧ t.wb = [] ∧
    t.word d slot (s.params.ownWord d) = w ∧ s.params.ownedByHw d w = true

/-- The frame of the operations that store to a descriptor and nowhere else, byte by byte: OWN.TRANSFER stores to the
OWN word, RXD.SETUP to the buffer-address word too, TXD.SEND to the buffer-address, length and OWN words; every other
byte reads as it does once what was pending has drained, and no cursor, no control state, no other slot's metadata
changes. -/
def Obligations.DescriptorStoresFrame : Prop :=
  ∀ (s t : State) (slot : Nat), s.Undisturbed →
    (∀ d, slot < s.params.capacity d → s.ready d = true → exec (.ownTransfer d slot) s = .next t →
      SameBytesOutside (s.params.holdsWord d slot (s.params.ownWord d)) s.flush t ∧
      SameCursors s t ∧ SameControl s t ∧ t.rxMeta = s.rxMeta ∧ t.txMeta = s.txMeta ∧ t.draws = s.draws) ∧
    (slot < s.params.nRx → s.readyRx = true → exec (.rxdSetup slot) s = .next t →
      SameBytesOutside (fun a => s.params.holdsWord .rx slot (s.params.ownWord .rx) a ∨
        s.params.holdsWord .rx slot s.params.rxLayout.buf1ap.word a) s.flush t ∧
      SameCursors s t ∧ SameControl s t ∧ t.rxMeta = s.rxMeta.set slot ⟨none, none⟩ ∧ t.txMeta = s.txMeta ∧
      t.draws = s.draws) ∧
    (slot < s.params.nTx → s.readyTx = true → s.ports.arg1.toNat ≤ 16383 → exec (.txdSend slot) s = .next t →
      SameBytesOutside (fun a => s.params.holdsWord .tx slot (s.params.ownWord .tx) a ∨
        s.params.holdsWord .tx slot s.params.txLayout.b1l.word a ∨
        s.params.holdsWord .tx slot s.params.txLayout.buf1ap.word a) s.flush t ∧
      SameCursors s t ∧ SameControl s t ∧ t.rxMeta = s.rxMeta ∧
      t.txMeta = s.txMeta.set slot ⟨s.ports.pid, none, s.busy slot⟩ ∧ t.draws = s.draws)

/-- R150: with HANDOVER_ATOMIC the read-back of step 5 never fails, whatever the schedule: every order of drains,
write-backs of other slots and interrupts inside the hand-over. The write buffer is empty before it, and no
hardware-owned receive slot points into a descriptor (R311). -/
def Obligations.AtomicHandoverNeverFails : Prop :=
  ∀ (s : State) (d : Dir) (slot : Nat), s.params.wf = true → s.params.handoverAtomic = true → s.Sized → s.halted = false →
    slot < s.params.capacity d → s.ready d = true → s.wb = [] → s.PointersApart →
    ∃ t, exec (.ownTransfer d slot) s = .next t ∧ t.reply = some .ok ∧ t.halted = false ∧ t.handover = none

/-! ### Receive descriptor -/

/-- R160, R180: the owner is the OWN bit as SW reads it now; nothing changes. -/
def Obligations.IsOwnedAnswersTheOwnershipBit : Prop :=
  ∀ (s : State) (slot : Nat), s.Undisturbed →
    (slot < s.params.nRx → s.readyRx = true → exec (.rxdIsOwned slot) s = .next (s.answer (.bool (s.swOwned .rx slot)))) ∧
    (slot < s.params.nTx → s.readyTx = true → exec (.txdIsOwned slot) s = .next (s.answer (.bool (s.swOwned .tx slot))))

/-- R161: RXD.SETUP ends with the buffer address and the OWN word in MEM, BUF1V set, BUF2V clear, then OWN and IOC set,
every other bit of the OWN word kept, the other words as they were, and the metadata cleared. -/
def Obligations.RxdSetupArmsTheSlot : Prop :=
  ∀ (s : State) (slot : Nat), s.Undisturbed → slot < s.params.nRx → s.readyRx = true →
    ∃ t, exec (.rxdSetup slot) s = .next t ∧ t.reply = some .ok ∧ t.wb = [] ∧ t.handover = none ∧
      t.word .rx slot s.params.rxLayout.buf1ap.word = s.ports.arg0 ∧
      t.word .rx slot (s.params.ownWord .rx) =
        s.params.rxSetupWord (s.swOwnWord .rx slot) ||| s.params.handoverMask .rx ∧
      s.params.ownedByHw .rx (t.word .rx slot (s.params.ownWord .rx)) = true ∧
      (∀ d i k, k < 4 → ¬ (d = .rx ∧ i = slot ∧ (k = s.params.ownWord .rx ∨ k = s.params.rxLayout.buf1ap.word)) →
        t.word d i k = s.flush.word d i k) ∧
      t.mem = s.flush.mem ∧ t.rxMetaAt slot = ⟨none, none⟩

/-- R162: a slot SW reads as hardware-owned gives WouldBlock and nothing changes. -/
def Obligations.TakeReceivedWouldBlock : Prop :=
  ∀ (s : State) (slot : Nat), s.Undisturbed → slot < s.params.nRx → s.readyRx = true → s.swOwned .rx slot = true →
    exec (.rxdTakeReceived slot) s = .next (s.answer (.rxErr .wouldBlock))

/-- R162, R168: a whole frame is taken: the identifier on PID is stored, and the timestamp if one is valid; nothing else
changes, no descriptor word among it. -/
def Obligations.TakeReceivedStoresTagAndTimestamp : Prop :=
  ∀ (s : State) (slot : Nat), s.Undisturbed → slot < s.params.nRx → s.readyRx = true → s.swOwned .rx slot = false →
    s.params.rxWholeFrame (s.swOwnWord .rx slot) = true →
    exec (.rxdTakeReceived slot) s =
      .next ((s.setRxMeta slot ⟨s.ports.pid, s.rxTimestamp slot⟩).answer .ok)

/-- R162, R164, R152: a slot that holds no whole frame is armed again with the fallback buffer, exactly as RXD.SETUP
arms it, and the answer is Truncated; the slot is hardware-owned again and its metadata is empty. -/
def Obligations.TakeReceivedTruncatedRearms : Prop :=
  ∀ (s : State) (slot : Nat), s.Undisturbed → slot < s.params.nRx → s.readyRx = true → s.swOwned .rx slot = false →
    s.params.rxWholeFrame (s.swOwnWord .rx slot) = false →
    ∃ u, exec (.rxdSetup slot) s = .next u ∧
      exec (.rxdTakeReceived slot) s = .next (u.answer (.rxErr .truncated)) ∧
      u.reply = some .ok ∧ s.params.ownedByHw .rx (u.word .rx slot (s.params.ownWord .rx)) = true ∧
      u.rxMetaAt slot = ⟨none, none⟩

/-- R165: the frame length is 0 while SW reads the slot as hardware-owned, else the length field; nothing changes. -/
def Obligations.FrameLengthAnswersTheField : Prop :=
  ∀ (s : State) (slot : Nat), s.Undisturbed → slot < s.params.nRx → s.readyRx = true →
    exec (.rxdFrameLength slot) s =
      .next (s.answer (.length (if s.swOwned .rx slot then 0 else s.params.rxLen (s.swOwnWord .rx slot))))

/-- R166, R167: the accessors answer the cached metadata, read no descriptor and change nothing, whatever the schedule;
after RXD.SETUP both answer None. -/
def Obligations.MetadataAccessorsAnswerTheCache : Prop :=
  ∀ (s : State) (slot : Nat), s.halted = false → slot < s.params.nRx → s.readyRx = true →
    exec (.rxdPacketId slot) s = .next (s.answer (.packetId (s.rxMetaAt slot).pid)) ∧
    exec (.rxdTimestamp slot) s = .next (s.answer (.timestamp (s.rxMetaAt slot).ts)) ∧
    (s.Undisturbed → ∃ t, exec (.rxdSetup slot) s = .next t ∧
      exec (.rxdPacketId slot) t = .next (t.answer (.packetId none)) ∧
      exec (.rxdTimestamp slot) t = .next (t.answer (.timestamp none)))

/-! ### Transmit descriptor -/

/-- R181: TXD.SEND ends with the pointer, the length field and the OWN word in MEM: the status bits of the clear mask
clear, FD, LD and OWN set. The length word may be the OWN word in a layout of the instance's own; its new value is then
what the OWN word starts from. -/
def Obligations.TxdSendSubmitsTheSlot : Prop :=
  ∀ (s : State) (slot : Nat), s.Undisturbed → slot < s.params.nTx → s.readyTx = true → s.ports.arg1.toNat ≤ 16383 →
    let l := s.params.txLayout
    let sized := l.b1l.put (s.swWord .tx slot l.b1l.word) s.ports.arg1
    let start := if l.b1l.word = s.params.ownWord .tx then sized else s.swOwnWord .tx slot
    ∃ t, exec (.txdSend slot) s = .next t ∧ t.reply = some .ok ∧ t.wb = [] ∧ t.handover = none ∧
      t.word .tx slot l.buf1ap.word = s.ports.arg0 ∧
      (l.b1l.word ≠ s.params.ownWord .tx → t.word .tx slot l.b1l.word = sized) ∧
      t.word .tx slot (s.params.ownWord .tx) = s.params.txSendWord start ||| s.params.handoverMask .tx ∧
      s.params.ownedByHw .tx (t.word .tx slot (s.params.ownWord .tx)) = true ∧
      (∀ d i k, k < 4 →
        ¬ (d = .tx ∧ i = slot ∧ (k = s.params.ownWord .tx ∨ k = l.buf1ap.word ∨ k = l.b1l.word)) →
        t.word d i k = s.flush.word d i k) ∧
      t.mem = s.flush.mem ∧ t.txMetaAt slot = ⟨s.ports.pid, none, s.busy slot⟩

/-- R181, R271: a length above 16383 is refused by TXD.SEND, one above TX_BUF_SIZE by TXRING.SEND and ENG.SEND, whatever
the ring's state, with no state change (R275, R280). -/
def Obligations.OversizedLengthIsRefused : Prop :=
  ∀ (s : State) (slot : Nat), s.halted = false →
    (slot < s.params.nTx → s.readyTx = true → 16383 < s.ports.arg1.toNat →
      exec (.txdSend slot) s = .next (s.answer (.contract .lengthExceedsField))) ∧
    (s.readyTx = true → s.params.txBufSize < s.ports.arg0.toNat →
      exec .txringSend s = .next (s.answer (.contract .lengthExceedsCapacity))) ∧
    (s.bound = true → s.params.txBufSize < s.ports.arg0.toNat →
      exec .engSend s = .next (s.answer (.contract .lengthExceedsCapacity)))

/-- R182 to R184: WouldBlock and no change while SW reads the slot as hardware-owned; else the identifier leaves the
descriptor, and the answer is ErrorSummary, or the timestamp for the caller who names the stored identifier; no
descriptor word changes. -/
def Obligations.TakeCompletedAnswers : Prop :=
  ∀ (s : State) (slot : Nat), s.Undisturbed → slot < s.params.nTx → s.readyTx = true →
    (s.swOwned .tx slot = true → exec (.txdTakeCompleted slot) s = .next (s.answer (.txErr .wouldBlock))) ∧
    (s.swOwned .tx slot = false → s.params.txError (s.swOwnWord .tx slot) = true →
      exec (.txdTakeCompleted slot) s =
        .next ((s.setTxMeta slot ⟨none, none, s.busy slot⟩).answer (.txErr .errorSummary))) ∧
    (s.swOwned .tx slot = false → s.params.txError (s.swOwnWord .tx slot) = false →
      exec (.txdTakeCompleted slot) s =
        .next ((s.setTxMeta slot ⟨none, s.txTimestamp slot, s.busy slot⟩).answer
          (.timestamp (if (s.txMetaAt slot).pid = s.ports.pid then s.txTimestamp slot else none))))

/-! ### Rings -/

/-- R200: RXRING.NEW leaves every receive descriptor in the read format with its own buffer, hardware-owned, in MEM;
metadata empty, the cursor 0, no slot held, the ring ready; the transmit ring, buffer memory and the control state as
they were. -/
def Obligations.RxringNewArmsEverySlot : Prop :=
  ∀ s : State, s.Undisturbed → s.bound = false →
    ∃ t, exec .rxringNew s = .next t ∧ t.reply = some .ok ∧ t.wb = [] ∧
      (∀ i k, i < s.params.nRx → k < 4 →
        t.word .rx i k = (s.params.rxLayout.encRead (s.params.rxBuf i) 1 1 0 1).at k) ∧
      (∀ i, i < s.params.nRx → s.params.ownedByHw .rx (t.ownWordOf .rx i) = true ∧ t.rxMetaAt i = ⟨none, none⟩) ∧
      t.rxNext = 0 ∧ t.rxHeld = none ∧ t.readyRx = true ∧ t.handover = none ∧
      t.txWords = s.flush.txWords ∧ t.mem = s.flush.mem ∧ t.txMeta = s.txMeta ∧ t.txNext = s.txNext ∧
      t.txReclaim = s.txReclaim ∧ SameControl s { t with readyRx := s.readyRx }

/-- R210: TXRING.NEW leaves every transmit descriptor all zero in MEM, software-owned; metadata empty and not busy, both
cursors 0, the ring ready; the receive ring, buffer memory and the control state as they were. -/
def Obligations.TxringNewClearsEverySlot : Prop :=
  ∀ s : State, s.Undisturbed → s.bound = false →
    ∃ t, exec .txringNew s = .next t ∧ t.reply = some .ok ∧ t.wb = [] ∧
      (∀ j k, j < s.params.nTx → k < 4 → t.word .tx j k = 0) ∧
      (∀ j, j < s.params.nTx → s.params.ownedByHw .tx (t.ownWordOf .tx j) = false ∧ t.txMetaAt j = ⟨none, none, false⟩) ∧
      t.txNext = 0 ∧ t.txReclaim = 0 ∧ t.readyTx = true ∧
      t.rxWords = s.flush.rxWords ∧ t.mem = s.flush.mem ∧ t.rxMeta = s.rxMeta ∧ t.rxNext = s.rxNext ∧
      t.rxHeld = s.rxHeld ∧ SameControl s { t with readyTx := s.readyTx }

/-- R208: while the slot at the cursor reads hardware-owned, RXRING.RECV_NEXT and ENG.RECV_NEXT answer WouldBlock and
change nothing, and so does the same call again. -/
def Obligations.RecvNextIsIdempotentWhileBlocked : Prop :=
  ∀ s : State, s.Undisturbed → s.swOwned .rx s.rxNext = true →
    (s.readyRx = true →
      exec .rxringRecvNext s = .next (s.answer (.rxErr .wouldBlock)) ∧
      exec .rxringRecvNext (s.answer (.rxErr .wouldBlock)) = .next (s.answer (.rxErr .wouldBlock))) ∧
    (s.bound = true →
      exec .engRecvNext s = .next (s.answer (.rxErr .wouldBlock)) ∧
      exec .engRecvNext (s.answer (.rxErr .wouldBlock)) = .next (s.answer (.rxErr .wouldBlock)))

/-- R203, R205, R232: a whole frame that fits is delivered: the view has the length of the status word and the bytes of
the slot's buffer, the cursor advances, the slot is held, its identifier and timestamp are stored. Where no slot was
held no shared memory changes; where slot `h` was, it is armed again with its own buffer and its metadata cleared. -/
def Obligations.RecvNextDeliversTheFrame : Prop :=
  ∀ (s : State) (op : Instr), s.Undisturbed → s.CursorsBelowCapacity → s.HeldBehindCursor →
    (op = .rxringRecvNext ∧ s.readyRx = true ∨ op = .engRecvNext ∧ s.bound = true) →
    s.swOwned .rx s.rxNext = false → s.params.rxWholeFrame (s.swOwnWord .rx s.rxNext) = true →
    s.params.rxLen (s.swOwnWord .rx s.rxNext) ≤ s.params.rxBufSize →
    let i := s.rxNext
    let len := s.params.rxLen (s.swOwnWord .rx i)
    ∃ t v, exec op s = .next t ∧ t.reply = some (.frame v) ∧ v.slot = i ∧ v.length = len ∧ v.bytes.length = len ∧
      (∀ k b, k < len → s.swByte (addrAt (s.params.rxBuf i) k) = some b → v.bytes[k]? = some b) ∧
      t.rxNext = nextSlot s.params.nRx i ∧ t.rxHeld = some i ∧
      t.rxMetaAt i = ⟨s.ports.pid, s.rxTimestamp i⟩ ∧
      t.txNext = s.txNext ∧ t.txReclaim = s.txReclaim ∧ t.txMeta = s.txMeta ∧ SameControl s t ∧
      (s.rxHeld = none → t.rxWords = s.rxWords ∧ t.txWords = s.txWords ∧ t.mem = s.mem ∧ t.wb = s.wb ∧
        t.handover = s.handover ∧ ∀ h, h ≠ i → t.rxMetaAt h = s.rxMetaAt h) ∧
      (∀ h, s.rxHeld = some h →
        t.wb = [] ∧ t.handover = none ∧ t.mem = s.flush.mem ∧
        t.word .rx h s.params.rxLayout.buf1ap.word = s.params.rxBuf h ∧
        t.word .rx h (s.params.ownWord .rx) =
          s.params.rxSetupWord (s.swOwnWord .rx h) ||| s.params.handoverMask .rx ∧
        (∀ d i' k, k < 4 →
          ¬ (d = .rx ∧ i' = h ∧ (k = s.params.ownWord .rx ∨ k = s.params.rxLayout.buf1ap.word)) →
          t.word d i' k = s.flush.word d i' k) ∧
        t.rxMetaAt h = ⟨none, none⟩ ∧ ∀ h', h' ≠ i → h' ≠ h → t.rxMetaAt h' = s.rxMetaAt h')

/-- R203, R209, R278: a slot that holds no whole frame gives Truncated: it is armed again with its own buffer, the held
slot too, the cursor advances, no slot is held. Every other word, and buffer memory, is as the barrier leaves it. -/
def Obligations.RecvNextTruncatedRearms : Prop :=
  ∀ (s : State) (op : Instr), s.Undisturbed → s.CursorsBelowCapacity → s.HeldBehindCursor → s.WbSound →
    (op = .rxringRecvNext ∧ s.readyRx = true ∨ op = .engRecvNext ∧ s.bound = true) →
    s.swOwned .rx s.rxNext = false → s.params.rxWholeFrame (s.swOwnWord .rx s.rxNext) = false →
    ∃ t, exec op s = .next t ∧ t.reply = some (.rxErr .truncated) ∧ t.wb = [] ∧ t.handover = none ∧
      t.rxNext = nextSlot s.params.nRx s.rxNext ∧ t.rxHeld = none ∧ t.mem = s.flush.mem ∧
      (∀ i, i = s.rxNext ∨ s.rxHeld = some i →
        t.word .rx i s.params.rxLayout.buf1ap.word = s.params.rxBuf i ∧
        t.word .rx i (s.params.ownWord .rx) =
          s.params.rxSetupWord (s.swOwnWord .rx i) ||| s.params.handoverMask .rx ∧
        s.params.ownedByHw .rx (t.word .rx i (s.params.ownWord .rx)) = true ∧ t.rxMetaAt i = ⟨none, none⟩) ∧
      (∀ d i k, k < 4 →
        ¬ (d = .rx ∧ (i = s.rxNext ∨ s.rxHeld = some i) ∧
          (k = s.params.ownWord .rx ∨ k = s.params.rxLayout.buf1ap.word)) →
        t.word d i k = s.flush.word d i k) ∧
      (∀ i, i ≠ s.rxNext → s.rxHeld ≠ some i → t.rxMetaAt i = s.rxMetaAt i) ∧
      t.txNext = s.txNext ∧ t.txReclaim = s.txReclaim ∧ t.txMeta = s.txMeta ∧ SameControl s t

/-- R206: a whole frame longer than the slot's buffer halts the block; the identifier and the timestamp are already
stored, and nothing else has changed. -/
def Obligations.OverlongFrameHalts : Prop :=
  ∀ (s : State) (op : Instr), s.Undisturbed →
    (op = .rxringRecvNext ∧ s.readyRx = true ∨ op = .engRecvNext ∧ s.bound = true) →
    s.swOwned .rx s.rxNext = false → s.params.rxWholeFrame (s.swOwnWord .rx s.rxNext) = true →
    s.params.rxBufSize < s.params.rxLen (s.swOwnWord .rx s.rxNext) →
    exec op s = .next ((s.setRxMeta s.rxNext ⟨s.ports.pid, s.rxTimestamp s.rxNext⟩).raiseFatal
      (.lengthExceedsBuffer s.rxNext (s.params.rxLen (s.swOwnWord .rx s.rxNext))))

/-- R211, R214: while the slot at the submit cursor reads hardware-owned, TXRING.SEND and ENG.SEND answer WouldBlock and
change nothing: no byte, no descriptor, no cursor. -/
def Obligations.SendWouldBlockChangesNothing : Prop :=
  ∀ s : State, s.Undisturbed → s.swOwned .tx s.txNext = true → s.ports.arg0.toNat ≤ s.params.txBufSize →
    (s.readyTx = true → exec .txringSend s = .next (s.answer (.txErr .wouldBlock))) ∧
    (s.bound = true → exec .engSend s = .next (s.answer (.txErr .wouldBlock)))

/-- R211, R212, R231: TXRING.SEND and ENG.SEND on a software-owned slot: the buffer's first `len` bytes are FILL of what
SW read there (a byte nobody wrote being a free value), every other byte outside the slot's pointer, length and OWN
words is as the barrier leaves it; the slot is hardware-owned and busy, the submit cursor advances, and the reclaim
cursor only where a completion is dropped. -/
def Obligations.SendSubmitsTheFrame : Prop :=
  ∀ (s : State) (op : Instr), s.Undisturbed → s.CursorsBelowCapacity → s.WbSound →
    (op = .txringSend ∧ s.readyTx = true ∨ op = .engSend ∧ s.bound = true) →
    s.swOwned .tx s.txNext = false → s.ports.arg0.toNat ≤ s.params.txBufSize →
    let j := s.txNext
    let l := s.params.txLayout
    let len := s.ports.arg0.toNat
    let old := (s.fetchBytes s.swByte (s.params.txBuf j) len).1
    let sized := l.b1l.put (s.swWord .tx j l.b1l.word) s.ports.arg0
    let start := if l.b1l.word = s.params.ownWord .tx then sized else s.swOwnWord .tx j
    ∃ t, exec op s = .next t ∧ t.reply = some .ok ∧ t.wb = [] ∧ t.handover = none ∧
      t.txNext = nextSlot s.params.nTx j ∧
      t.txReclaim = (if s.busy j then nextSlot s.params.nTx s.txReclaim else s.txReclaim) ∧
      t.txMetaAt j = ⟨s.ports.pid, none, true⟩ ∧ (∀ i, i ≠ j → t.txMetaAt i = s.txMetaAt i) ∧
      (∀ k, k < len → t.byteAt (addrAt (s.params.txBuf j) k) = (s.ports.fill.eval old)[k]?) ∧
      t.word .tx j l.buf1ap.word = s.params.txBuf j ∧
      (l.b1l.word ≠ s.params.ownWord .tx → t.word .tx j l.b1l.word = sized) ∧
      t.word .tx j (s.params.ownWord .tx) = s.params.txSendWord start ||| s.params.handoverMask .tx ∧
      s.params.ownedByHw .tx (t.word .tx j (s.params.ownWord .tx)) = true ∧
      SameBytesOutside (fun a => (∃ k, k < len ∧ a = addrAt (s.params.txBuf j) k) ∨
        s.params.holdsWord .tx j (s.params.ownWord .tx) a ∨ s.params.holdsWord .tx j l.b1l.word a ∨
        s.params.holdsWord .tx j l.buf1ap.word a) s.flush t ∧
      t.rxNext = s.rxNext ∧ t.rxHeld = s.rxHeld ∧ t.rxMeta = s.rxMeta ∧ SameControl s t

/-- R213, R237: TXRING.RECLAIM and ENG.TX_RECLAIM: WouldBlock and no change where the slot at the reclaim cursor is not
busy or reads hardware-owned; else the slot is freed and the cursor advances, with ErrorSummary, or with the timestamp
for the caller who names the stored identifier; no descriptor word and no byte changes. -/
def Obligations.ReclaimAnswersAndFreesTheSlot : Prop :=
  ∀ (s : State) (op : Instr), s.Undisturbed → s.CursorsBelowCapacity →
    (op = .txringReclaim ∧ s.readyTx = true ∨ op = .engTxReclaim ∧ s.bound = true) →
    let j := s.txReclaim
    (s.busy j = false ∨ s.swOwned .tx j = true → exec op s = .next (s.answer (.txErr .wouldBlock))) ∧
    (s.busy j = true → s.swOwned .tx j = false → s.params.txError (s.swOwnWord .tx j) = true →
      exec op s = .next (State.answer
        { s.setTxMeta j ⟨none, none, false⟩ with txReclaim := nextSlot s.params.nTx j } (.txErr .errorSummary))) ∧
    (s.busy j = true → s.swOwned .tx j = false → s.params.txError (s.swOwnWord .tx j) = false →
      exec op s = .next (State.answer
        { s.setTxMeta j ⟨none, s.txTimestamp j, false⟩ with txReclaim := nextSlot s.params.nTx j }
        (.timestamp (if (s.txMetaAt j).pid = s.ports.pid then s.txTimestamp j else none))))

/-! ### Engine -/

/-- R230, R255: ENG.NEW on two constructed rings with an accepted configuration binds the engine: the interrupt bits
clear, the DMA agent's positions 0, nothing else changed, whatever the schedule. -/
def Obligations.EngNewBindsTheEngine : Prop :=
  ∀ s : State, s.halted = false → s.bound = false → s.readyRx = true → s.readyTx = true →
    s.params.initOk.holds s.ports.cfg = true →
    exec .engNew s = .next (State.answer
      { s with intEnable := false, ri := false, ti := false, bound := true, dmaPosRx := 0, dmaPosTx := 0 } .ok)

/-- R279: ENG.NEW returns InitError exactly when INIT_OK rejects the configuration; no state changes, and the call may
be repeated with another configuration. -/
def Obligations.InitErrorExactlyOnRejection : Prop :=
  ∀ s : State, s.halted = false → s.bound = false → s.readyRx = true → s.readyTx = true →
    ((∃ t, exec .engNew s = .next t ∧ t.reply = some .initErr) ↔ s.params.initOk.holds s.ports.cfg = false) ∧
    (s.params.initOk.holds s.ports.cfg = false →
      exec .engNew s = .next (s.answer .initErr) ∧
      ∀ c, s.params.initOk.holds c.cfg = true →
        ∃ t, exec .engNew { s.answer .initErr with ports := c } = .next t ∧ t.reply = some .ok ∧ t.bound = true)

/-- R233: ENG.ENABLE_INTERRUPT, command word 0x43, sets the enable and touches neither flag: the line rises at once
where one is set; a second call changes nothing more; it is refused only on a halted or an unbound block. Whatever the
schedule. -/
def Obligations.EnableInterruptRaisesThePendingLine : Prop :=
  decode 0x00000043 = .ok .engEnableInterrupt ∧
  ∀ s : State,
    (s.halted = false → s.bound = true →
      let t := State.answer { s with intEnable := true } .ok
      exec .engEnableInterrupt s = .next t ∧ t.irq = (s.ri || s.ti) ∧ t.ri = s.ri ∧ t.ti = s.ti ∧
      exec .engEnableInterrupt t = .next t) ∧
    (s.halted = false → s.bound = false → exec .engEnableInterrupt s = .next (s.answer (.contract .notBound))) ∧
    (s.halted = true → exec .engEnableInterrupt s = .next (s.answer .refusedHalted))

/-- R234: ENG.DISABLE_INTERRUPT clears the enable; the line is low, the flags keep their values, and the DMA agent goes
on setting them. -/
def Obligations.DisableInterruptMasksTheLine : Prop :=
  ∀ s : State, s.halted = false → s.bound = true →
    let t := State.answer { s with intEnable := false } .ok
    exec .engDisableInterrupt s = .next t ∧ t.irq = false ∧ t.ri = s.ri ∧ t.ti = s.ti ∧
    (∀ j v, t.dmaEnabled .tx j = true → (t.envStep (.txWriteback j v true)).ti = true) ∧
    (∀ i bytes v, t.dmaEnabled .rx i = true → t.rxDrawsLegal i bytes v = true →
      t.params.rxLayout.ioc.isSet (t.ownWordOf .rx i) = true → (t.envStep (.rxWriteback i bytes v)).ri = true)

/-- R235: ENG.INTERRUPT_ACK clears both flags, so the line is low, and changes nothing else; as a step of the interrupt
agent it does the same whenever the line is high on a running, bound block. -/
def Obligations.InterruptAckClearsBothFlags : Prop :=
  ∀ s : State, s.halted = false → s.bound = true →
    let t := State.answer { s with ri := false, ti := false } .ok
    exec .engInterruptAck s = .next t ∧ t.irq = false ∧
    (s.irq = true → s.envStep .interruptAck = { s with ri := false, ti := false })

/-- R236: ENG.TX_STATE answers the cursors, the number of busy slots and the number of slots SW reads as hardware-owned,
and changes nothing. -/
def Obligations.TxStateCountsTheRing : Prop :=
  ∀ s : State, s.Undisturbed → s.bound = true →
    exec .engTxState s = .next (s.answer (.txState
      { next := s.txNext
        reclaim := s.txReclaim
        outstanding := (List.range s.params.nTx).countP (fun j => (s.txMetaAt j).busy)
        hwOwned := (List.range s.params.nTx).countP (fun j => s.swOwned .tx j) }))

/-! ### Outcomes -/

/-- R276: while the block is halted every well-formed operation ends with Refused(Halted) and changes nothing but the
result port; the drain and the DMA agent step as they would on a running block. That the interrupt agent's own
acknowledgement (R235) leaves a halted block as it is, with no Refused(Halted) on the result port either, is the model's
reading of R276 and R285 (log entry 14, DEDUCED). -/
def Obligations.HaltedBlockRefusesEveryOperation : Prop :=
  (∀ (s : State) (i : Instr), s.halted = true → i.wf s.params = true → exec i s = .next (s.answer .refusedHalted)) ∧
  (∀ s : State, s.halted = true → s.envStep .interruptAck = s) ∧
  (∀ (s : State) (e : EnvStep), e ≠ .interruptAck →
    State.envStep { s with halted := true } e = { s.envStep e with halted := true })

/-- R277: the construction-order table, on a running block and for a slot in range. The fences are never refused. -/
def Obligations.ConstructionOrderIsEnforced : Prop :=
  ∀ s : State, s.halted = false →
    (s.bound = true → ∀ i ∈ [Instr.rxringNew, .txringNew, .engNew], exec i s = .next (s.answer (.contract .alreadyBound))) ∧
    (s.bound = false → (s.readyRx && s.readyTx) = false →
      exec .engNew s = .next (s.answer (.contract .ringNotConstructed))) ∧
    (∀ d slot (k : Fin 4), s.ready d = false → slot < s.params.capacity d →
      ∀ i ∈ [Instr.rawRead d slot k, .rawModify d slot k, .ownTransfer d slot],
        exec i s = .next (s.answer (.contract .ringNotConstructed))) ∧
    (∀ slot, s.readyRx = false → slot < s.params.nRx →
      ∀ i ∈ [Instr.rxdIsOwned slot, .rxdSetup slot, .rxdTakeReceived slot, .rxdFrameLength slot, .rxdPacketId slot,
          .rxdTimestamp slot, .rxringRecvNext],
        exec i s = .next (s.answer (.contract .ringNotConstructed))) ∧
    (∀ slot, s.readyTx = false → slot < s.params.nTx →
      ∀ i ∈ [Instr.txdIsOwned slot, .txdSend slot, .txdTakeCompleted slot, .txringSend, .txringReclaim],
        exec i s = .next (s.answer (.contract .ringNotConstructed))) ∧
    (s.bound = false →
      ∀ i ∈ [Instr.engSend, .engRecvNext, .engEnableInterrupt, .engDisableInterrupt, .engInterruptAck, .engTxState,
          .engTxReclaim],
        exec i s = .next (s.answer (.contract .notBound))) ∧
    (∀ i ∈ [Instr.fenceWw, .barrierDsb, .fenceFull, .fenceRr], ∃ t, exec i s = .next t ∧ t.reply = some .ok)

/-- R275, R276, R279, R284: an operation that ends in a broken contract, Refused or InitError has changed no state at
all, whatever the schedule: not even another agent has stepped. -/
def Obligations.RefusedOperationChangesNothing : Prop :=
  ∀ (s t : State) (i : Instr), exec i s = .next t →
    (t.reply = some .refusedHalted ∨ t.reply = some .initErr ∨ ∃ k, t.reply = some (.contract k)) →
    ∃ r, t = s.answer r

/-- R273: an operation that answers WouldBlock has changed no state at all, and the same operation may be repeated any
number of times. -/
def Obligations.WouldBlockChangesNoState : Prop :=
  ∀ (s t : State) (i : Instr), s.Quiet → exec i s = .next t →
    (t.reply = some (.rxErr .wouldBlock) ∨ t.reply = some (.txErr .wouldBlock)) →
    (∃ r, t = s.answer r) ∧ exec i t = .next t

/-- Every operation answers a next state, with an outcome on the result port; it halts the block exactly where that
outcome is Fatal (R270, R274, R284). Whatever the schedule. -/
def Obligations.EveryOperationEndsWithAnOutcome : Prop :=
  ∀ (s : State) (i : Instr), ∃ t r, exec i s = .next t ∧ t.reply = some r ∧
    (t.halted = true ↔ s.halted = true ∨ ∃ f, r = .fatal f)

/-! ### The DMA agent -/

/-- R250, R251: the agent takes no step on a slot while the engine is not bound, while MEM shows OWN = 0, while the
hand-over window forbids it, or out of order with DMA_IN_ORDER. -/
def Obligations.AgentStepsOnlyOnItsSlots : Prop :=
  ∀ (s : State) (slot : Nat) (bytes : List Byte) (v : Words4) (t : Bool),
    (s.bound = false ∨ s.params.ownedByHw .rx (s.ownWordOf .rx slot) = false ∨
      (s.params.handoverAtomic = true ∧ s.handover = some (.rx, slot)) ∨
      (s.params.dmaInOrder = true ∧ slot ≠ s.dmaPosRx) → s.envStep (.rxWriteback slot bytes v) = s) ∧
    (s.bound = false ∨ s.params.ownedByHw .tx (s.ownWordOf .tx slot) = false ∨
      (s.params.handoverAtomic = true ∧ s.handover = some (.tx, slot)) ∨
      (s.params.dmaInOrder = true ∧ slot ≠ s.dmaPosTx) → s.envStep (.txWriteback slot v t) = s)

/-- R252, R253, R255: a receive write-back that is enabled and legal: the bytes at the descriptor's buffer address, the
drawn words with OWN clear, `ri` set where IOC was 1, the position advanced with DMA_IN_ORDER; no other word and no
other byte. The bytes lie outside the descriptor arrays (R311). -/
def Obligations.RxWritebackEffect : Prop :=
  ∀ (s : State) (i : Nat) (bytes : List Byte) (v : Words4), s.params.wf = true → s.Sized → s.dmaEnabled .rx i = true →
    s.rxDrawsLegal i bytes v = true →
    let a := s.word .rx i s.params.rxLayout.buf1ap.word
    (∀ k, k < bytes.length → s.params.descriptorByte (addrAt a k) = none) →
    let t := s.envStep (.rxWriteback i bytes v)
    (∀ k, k < bytes.length → t.byteAt (addrAt a k) = bytes[k]?) ∧
    (∀ k, k < 4 → k ≠ s.params.ownWord .rx → t.word .rx i k = v.at k) ∧
    t.ownWordOf .rx i = v.at (s.params.ownWord .rx) &&& ~~~s.params.rxLayout.own.mask ∧
    s.params.ownedByHw .rx (t.ownWordOf .rx i) = false ∧
    (∀ d i' k, k < 4 → ¬ (d = .rx ∧ i' = i) → t.word d i' k = s.word d i' k) ∧
    (∀ b, s.params.descriptorByte b = none → (∀ k, k < bytes.length → b ≠ addrAt a k) → t.byteAt b = s.byteAt b) ∧
    t.ri = (s.ri || s.params.rxLayout.ioc.isSet (s.ownWordOf .rx i)) ∧ t.ti = s.ti ∧ t.wb = s.wb ∧ t.sent = s.sent ∧
    t.dmaPosRx = (if s.params.dmaInOrder then nextSlot s.params.nRx s.dmaPosRx else s.dmaPosRx)

/-- R254, R255: a transmit write-back that is enabled: the frame the descriptor names is sent, byte by byte what memory
holds; the drawn words with OWN clear; `ti` set on the draw; no other word and no byte of memory. -/
def Obligations.TxWritebackEffect : Prop :=
  ∀ (s : State) (j : Nat) (v : Words4) (raise : Bool), s.params.wf = true → s.Sized → s.dmaEnabled .tx j = true →
    let l := s.params.txLayout
    let a := s.word .tx j l.buf1ap.word
    let n := (l.b1l.get (s.word .tx j l.b1l.word)).toNat
    let t := s.envStep (.txWriteback j v raise)
    (∃ pay, t.sent = s.sent ++ [⟨j, pay⟩] ∧ pay.length = n ∧
      ∀ k b, k < n → s.byteAt (addrAt a k) = some b → pay[k]? = some b) ∧
    (∀ k, k < 4 → k ≠ s.params.ownWord .tx → t.word .tx j k = v.at k) ∧
    t.ownWordOf .tx j = v.at (s.params.ownWord .tx) &&& ~~~l.own.mask ∧
    s.params.ownedByHw .tx (t.ownWordOf .tx j) = false ∧
    (∀ d i k, k < 4 → ¬ (d = .tx ∧ i = j) → t.word d i k = s.word d i k) ∧ t.mem = s.mem ∧
    t.ti = (s.ti || raise) ∧ t.ri = s.ri ∧ t.wb = s.wb ∧
    t.dmaPosTx = (if s.params.dmaInOrder then nextSlot s.params.nTx s.dmaPosTx else s.dmaPosTx)

/-- R160, R250, R290: a slot MEM shows software-owned keeps its four words through any steps of the other agents, while
SW has nothing pending and no hardware-owned receive slot points into a descriptor (R311): only SW hands a slot over. -/
def Obligations.SoftwareOwnedSlotStaysSoftwares : Prop :=
  ∀ (s : State) (es : List EnvStep) (d : Dir) (i k : Nat), s.params.wf = true → s.Sized → s.wb = [] → s.PointersApart →
    i < s.params.capacity d → k < 4 → s.params.ownedByHw d (s.ownWordOf d i) = false →
    (s.envSteps es).word d i k = s.word d i k

/-! ### Whole-machine rules -/

/-- R300: what the power-on state holds of the values the rule gives, and what the model adds is a state the invariants
hold of. -/
def Obligations.PowerOnState : Prop :=
  let s := State.reset
  s.halted = false ∧ s.readyRx = false ∧ s.readyTx = false ∧ s.bound = false ∧ s.intEnable = false ∧ s.ri = false ∧
  s.ti = false ∧ s.wb = [] ∧ s.handover = none ∧ s.Invariant ∧ s.BusyRange

/-- Every step keeps the invariants of the block, from every state that has them, whatever the schedule: sizes, cursors
below capacity (R30), the held slot behind the cursor (R31), canonical memory, a sound write buffer, construction flags
and interrupt bits in agreement (R49), no window left open (R47). -/
def Obligations.StepKeepsTheInvariants : Prop :=
  ∀ s t : State, s.Invariant → step s = .next t → t.Invariant

/-- R44: the busy slots are the cyclic range from the reclaim cursor to the submit cursor, after every step from a state
where they are, whatever the schedule, until a Fatal halts the block. -/
def Obligations.StepKeepsTheBusyRange : Prop :=
  ∀ s t : State, s.Invariant → s.BusyRange → step s = .next t → t.halted = true ∨ t.BusyRange

/-- R8, R41, R49, R300: a step never changes a parameter and never clears `halted`, `ready[RX]`, `ready[TX]` or `bound`.
-/
def Obligations.NothingClearsTheStickyFlags : Prop :=
  ∀ s t : State, step s = .next t →
    t.params = s.params ∧ (s.halted = true → t.halted = true) ∧ (s.readyRx = true → t.readyRx = true) ∧
    (s.readyTx = true → t.readyTx = true) ∧ (s.bound = true → t.bound = true)

/-- R30, R216, R316: which operation moves which cursor, whatever the schedule and the outcome: each cursor stays, or
moves to its successor by a ring operation of its own direction, or is set to 0 by the ring's NEW. -/
def Obligations.CursorsMoveByRingOperationsOnly : Prop :=
  ∀ (s t : State) (i : Instr), exec i s = .next t →
    (t.rxNext = s.rxNext ∨
      t.rxNext = nextSlot s.params.nRx s.rxNext ∧ (i = .rxringRecvNext ∨ i = .engRecvNext) ∨ t.rxNext = 0 ∧ i = .rxringNew) ∧
    (t.txNext = s.txNext ∨
      t.txNext = nextSlot s.params.nTx s.txNext ∧ (i = .txringSend ∨ i = .engSend) ∨ t.txNext = 0 ∧ i = .txringNew) ∧
    (t.txReclaim = s.txReclaim ∨
      t.txReclaim = nextSlot s.params.nTx s.txReclaim ∧
        (i = .txringSend ∨ i = .engSend ∨ i = .txringReclaim ∨ i = .engTxReclaim) ∨
      t.txReclaim = 0 ∧ i = .txringNew)

/-- The frame of the software-only and control state, whatever the schedule (R32, R40, R42, R49, R316): who may write
what. -/
def Obligations.SoftwareStateFrame : Prop :=
  ∀ (s t : State) (i : Instr), exec i s = .next t →
    t.params = s.params ∧ t.inbox = s.inbox ∧ t.ports = s.ports ∧
    (i ≠ .rxringNew → i ≠ .rxringRecvNext → i ≠ .engRecvNext → t.rxHeld = s.rxHeld) ∧
    ((∀ n, i ≠ .rxdSetup n) → (∀ n, i ≠ .rxdTakeReceived n) → i ≠ .rxringNew → i ≠ .rxringRecvNext → i ≠ .engRecvNext →
      t.rxMeta = s.rxMeta) ∧
    ((∀ n, i ≠ .txdSend n) → (∀ n, i ≠ .txdTakeCompleted n) → i ≠ .txringNew → i ≠ .txringSend → i ≠ .engSend →
      i ≠ .txringReclaim → i ≠ .engTxReclaim → t.txMeta = s.txMeta) ∧
    (i ≠ .txringNew → i ≠ .txringSend → i ≠ .engSend → i ≠ .txringReclaim → i ≠ .engTxReclaim →
      ∀ j, t.busy j = s.busy j) ∧
    (i ≠ .engNew → i ≠ .engEnableInterrupt → i ≠ .engDisableInterrupt → t.intEnable = s.intEnable) ∧
    (i ≠ .rxringNew → t.readyRx = s.readyRx) ∧ (i ≠ .txringNew → t.readyTx = s.readyTx) ∧
    (i ≠ .engNew → t.bound = s.bound)

/-- R72: nothing is pending at the end of an operation that began so, whatever the schedule. The rule excepts RAW.MODIFY
issued on its own; FENCE.WW issued on its own leaves its marker (R140), which the rule does not mention. -/
def Obligations.NothingPendingAtTheEndOfAnOperation : Prop :=
  ∀ (s t : State) (i : Instr), s.wb = [] → exec i s = .next t → (∀ d n k, i ≠ .rawModify d n k) → i ≠ .fenceWw → t.wb = []

/-- R281, R283: where the interrupt agent's acknowledgements fall inside an operation makes no difference to anything
but the two interrupt flags: the same operation with every acknowledgement taken out of the schedule ends with the same
outcome and the same state. -/
def Obligations.AcknowledgementsDoNotDisturbOperations : Prop :=
  ∀ (s t : State) (i : Instr), exec i s = .next t →
    ∃ u, exec i { s with schedule := s.schedule.map (fun es => es.filter (fun e => e != .interruptAck)) } = .next u ∧
      t = { u with ri := t.ri, ti := t.ti, schedule := t.schedule }

/-- R275, R276: after a Fatal the software-only state stays as it is for ever: no step of a halted block changes a
cursor, the held slot, metadata, the enable or a construction flag. -/
def Obligations.HaltedBlockIsFrozen : Prop :=
  ∀ s t : State, s.halted = true → step s = .next t →
    t.halted = true ∧ SameCursors s t ∧ t.rxMeta = s.rxMeta ∧ t.txMeta = s.txMeta ∧ t.intEnable = s.intEnable ∧
    t.readyRx = s.readyRx ∧ t.readyTx = s.readyTx ∧ t.bound = s.bound ∧ t.params = s.params
end

