-- ==== Sys2Proof/Laws/Fields.lean ====
section
/-! SUPPORT. Small facts about bit fields and about the ring successor. -/

namespace Sys2Proof

/-- The tests of `Params.wf` as one conjunction. -/
theorem Params.wf_tests (p : Params) : p.wf = (
  decide (2 ≤ p.nRx) && decide (p.nRx ≤ 65536) && decide (2 ≤ p.nTx) && decide (p.nTx ≤ 65536)
    && decide (1 ≤ p.rxBufSize) && decide (p.rxBufSize ≤ 16383)
    && decide (1 ≤ p.txBufSize) && decide (p.txBufSize ≤ 16383)
    && p.rxBufAddr.length == p.nRx && p.txBufAddr.length == p.nTx
    && p.rxDescBase.toNat % 4 == 0 && p.txDescBase.toNat % 4 == 0
    && p.rxLayout.wf p.hasTsValid && p.txLayout.wf p.hasTsValid
    && p.ranges.all (fun r => decide (r.1 + r.2 ≤ 2 ^ 32)) && allPairs rangesApart p.ranges) := by
  simp only [Params.wf, List.all_cons, List.all_nil, id, Bool.and_true, Bool.and_assoc]

theorem Field.width_oneBit (f : Field) (h : f.oneBit = true) : f.width = 1 := by
  simp only [Field.oneBit, beq_iff_eq] at h
  simp [Field.width, h]

/-- The value of a one-bit field is the bit. -/
theorem Field.isSet_oneBit (f : Field) (h : f.oneBit = true) (w : Word) : f.isSet w = w.getLsbD f.lo := by
  have hw := f.width_oneBit h
  rw [Bool.eq_iff_iff]
  simp only [Field.isSet, Field.get, Field.ones, hw, beq_iff_eq]
  constructor
  · intro e
    have := congrArg (fun v : Word => v.getLsbD 0) e
    simpa using this
  · intro e
    apply BitVec.eq_of_getLsbD_eq
    intro i hi
    by_cases h0 : i = 0
    · subst h0; simp [e]
    · have : (1 : Word).getLsbD i = false := by
        have : i ≥ 1 := by omega
        simp [BitVec.getLsbD_one]; omega
      simp only [BitVec.getLsbD_and]
      have h1 : (BitVec.ofNat 32 (2 ^ 1 - 1)).getLsbD i = false := by simpa using this
      rw [h1, this]; simp

/-- The mask of a one-bit field is the bit alone. -/
theorem Field.mask_oneBit (f : Field) (h : f.oneBit = true) (i : Nat) :
    f.mask.getLsbD i = (decide (i < 32) && decide (i = f.lo)) := by
  have hw := f.width_oneBit h
  simp only [Field.mask, Field.ones, hw]
  simp [BitVec.getLsbD_shiftLeft, BitVec.getLsbD_one]
  by_cases h1 : i < 32 <;> by_cases h2 : i < f.lo <;> simp [h1, h2] <;> omega

/-- Setting a one-bit field by its mask sets it (R145, R148). -/
theorem Field.isSet_or_mask (f : Field) (h : f.oneBit = true) (hl : f.lo < 32) (w v : Word) :
    f.isSet (w ||| (f.mask ||| v)) = true := by
  rw [f.isSet_oneBit h]
  simp [f.mask_oneBit h, hl]

/-- Clearing a one-bit field by its mask clears it (R252, R254). -/
theorem Field.isSet_andNot_mask (f : Field) (h : f.oneBit = true) (w : Word) : f.isSet (w &&& ~~~f.mask) = false := by
  rw [f.isSet_oneBit h]
  by_cases hl : f.lo < 32 <;> simp [f.mask_oneBit h, hl]

theorem nextSlot_lt (n c : Nat) (h : 0 < n) : nextSlot n c < n := Nat.mod_lt _ h

/-- The ring successor in the two cases of R117: `c + 1`, and 0 after the last slot. -/
theorem nextSlot_eq (n c : Nat) (h : c < n) : nextSlot n c = if c + 1 = n then 0 else c + 1 := by
  unfold nextSlot
  split
  · next e => rw [e]; exact Nat.mod_self n
  · exact Nat.mod_eq_of_lt (by omega)

/-- What a well-formed instance guarantees of its OWN fields. -/
theorem Params.wf_own (p : Params) (h : p.wf = true) (d : Dir) :
    (p.own d).oneBit = true ∧ (p.own d).lo < 32 ∧ p.ownWord d < 4 := by
  simp only [Params.wf_tests, RxLayout.wf, TxLayout.wf, formatWf, RxLayout.readFormat, TxLayout.readFormat, Field.inside,
    List.all_cons, Bool.and_eq_true, decide_eq_true_eq] at h
  cases d <;> simp only [Params.ownWord, Params.own] <;> refine ⟨by tauto, ?_, ?_⟩ <;> omega

/-- After a hand-over mask is set, the slot is hardware-owned (R145). -/
theorem Params.ownedByHw_or_handoverMask (p : Params) (h : p.wf = true) (d : Dir) (w : Word) :
    p.ownedByHw d (w ||| p.handoverMask d) = true := by
  obtain ⟨h1, h2, _⟩ := p.wf_own h d
  cases d with
  | rx => exact (p.own .rx).isSet_or_mask h1 h2 w _
  | tx =>
    have := (p.own .tx).isSet_or_mask h1 h2 w 0
    simpa [Params.ownedByHw, Params.handoverMask, Params.own] using this

/-! ### Well-formed layouts -/

theorem Params.wf_layouts (p : Params) (h : p.wf = true) :
    p.rxLayout.wf p.hasTsValid = true ∧ p.txLayout.wf p.hasTsValid = true := by
  simp only [Params.wf_tests, Bool.and_eq_true] at h
  exact ⟨h.1.1.1.2, h.1.1.2⟩

/-- A whole-word field shares its word with no other. -/
theorem Field.word_ne_of_apart (f g : Field) (hf : f.inside = true) (hw : g.wholeWord = true)
    (h : f.apart g = true ∨ g.apart f = true) : f.word ≠ g.word := by
  simp only [Field.inside, Field.wholeWord, Field.apart, Bool.and_eq_true, Bool.or_eq_true, decide_eq_true_eq,
    bne_iff_ne, beq_iff_eq] at hf hw h
  omega

theorem Field.apart_comm (f g : Field) : f.apart g = g.apart f := by
  rw [Bool.eq_iff_iff]
  simp only [Field.apart, Bool.or_eq_true, decide_eq_true_eq, bne_iff_ne]
  exact ⟨by omega, by omega⟩

/-- Two one-bit fields of one word that do not overlap are different bits. -/
theorem Field.lo_ne_of_apart (f g : Field) (hf : f.oneBit = true) (hg : g.oneBit = true) (hw : f.word = g.word)
    (h : f.apart g = true) : f.lo ≠ g.lo := by
  simp only [Field.oneBit, Field.apart, Bool.or_eq_true, decide_eq_true_eq, bne_iff_ne, beq_iff_eq] at hf hg h
  omega

theorem Field.word_lt_of_inside (f : Field) (hf : f.inside = true) : f.word < 4 := by
  simp only [Field.inside, Bool.and_eq_true, decide_eq_true_eq] at hf
  exact hf.1.1

/-- Where the fields of the receive read format lie. -/
theorem Params.wf_rxRead (p : Params) (h : p.wf = true) :
    p.rxLayout.buf1ap.word < 4 ∧ p.rxLayout.buf1ap.word ≠ p.ownWord .rx := by
  obtain ⟨h, _⟩ := p.wf_layouts h
  simp only [RxLayout.wf, formatWf, RxLayout.readFormat, allPairs, List.all_cons, List.all_nil, Bool.and_eq_true] at h
  obtain ⟨⟨⟨⟨⟨⟨⟨⟨⟨⟨h1, h2, _⟩, h3, _⟩, _⟩, _⟩, _⟩, _⟩, _⟩, h4, _⟩, _⟩, _⟩ := h
  exact ⟨Field.word_lt_of_inside _ h2, (Field.word_ne_of_apart _ _ h1 h4 (.inl h3.1)).symm⟩

/-- Where the fields of the transmit read format lie. -/
theorem Params.wf_txRead (p : Params) (h : p.wf = true) :
    p.txLayout.buf1ap.word < 4 ∧ p.txLayout.b1l.word < 4 ∧ p.txLayout.buf1ap.word ≠ p.ownWord .tx ∧
    p.txLayout.b1l.word ≠ p.txLayout.buf1ap.word := by
  obtain ⟨_, h⟩ := p.wf_layouts h
  simp only [TxLayout.wf, formatWf, TxLayout.readFormat, allPairs, List.all_cons, List.all_nil, Bool.and_eq_true] at h
  obtain ⟨⟨⟨⟨⟨⟨⟨⟨⟨h1, h2, h3, _⟩, h4, h5, _⟩, _⟩, _⟩, _⟩, _⟩, h6, _⟩, _⟩, _⟩ := h
  exact ⟨Field.word_lt_of_inside _ h2, Field.word_lt_of_inside _ h3, (Field.word_ne_of_apart _ _ h1 h6 (.inl h4.1)).symm,
    Field.word_ne_of_apart _ _ h3 h6 (.inr h5.1)⟩

end Sys2Proof
end

