-- ==== Sys2Proof/Laws/State.lean ====
section
/-! SUPPORT. One lemma a field and update of State, so that no later proof unfolds a record update. -/

namespace Sys2Proof.Machine


/-! ### `State.answer` -/

@[simp] theorem State.answer_params (s : State) (r : Reply) : (s.answer r).params = s.params := rfl
@[simp] theorem State.answer_rxWords (s : State) (r : Reply) : (s.answer r).rxWords = s.rxWords := rfl
@[simp] theorem State.answer_txWords (s : State) (r : Reply) : (s.answer r).txWords = s.txWords := rfl
@[simp] theorem State.answer_mem (s : State) (r : Reply) : (s.answer r).mem = s.mem := rfl
@[simp] theorem State.answer_wb (s : State) (r : Reply) : (s.answer r).wb = s.wb := rfl
@[simp] theorem State.answer_handover (s : State) (r : Reply) : (s.answer r).handover = s.handover := rfl
@[simp] theorem State.answer_rxNext (s : State) (r : Reply) : (s.answer r).rxNext = s.rxNext := rfl
@[simp] theorem State.answer_txNext (s : State) (r : Reply) : (s.answer r).txNext = s.txNext := rfl
@[simp] theorem State.answer_txReclaim (s : State) (r : Reply) : (s.answer r).txReclaim = s.txReclaim := rfl
@[simp] theorem State.answer_rxHeld (s : State) (r : Reply) : (s.answer r).rxHeld = s.rxHeld := rfl
@[simp] theorem State.answer_rxMeta (s : State) (r : Reply) : (s.answer r).rxMeta = s.rxMeta := rfl
@[simp] theorem State.answer_txMeta (s : State) (r : Reply) : (s.answer r).txMeta = s.txMeta := rfl
@[simp] theorem State.answer_intEnable (s : State) (r : Reply) : (s.answer r).intEnable = s.intEnable := rfl
@[simp] theorem State.answer_ri (s : State) (r : Reply) : (s.answer r).ri = s.ri := rfl
@[simp] theorem State.answer_ti (s : State) (r : Reply) : (s.answer r).ti = s.ti := rfl
@[simp] theorem State.answer_halted (s : State) (r : Reply) : (s.answer r).halted = s.halted := rfl
@[simp] theorem State.answer_readyRx (s : State) (r : Reply) : (s.answer r).readyRx = s.readyRx := rfl
@[simp] theorem State.answer_readyTx (s : State) (r : Reply) : (s.answer r).readyTx = s.readyTx := rfl
@[simp] theorem State.answer_bound (s : State) (r : Reply) : (s.answer r).bound = s.bound := rfl
@[simp] theorem State.answer_dmaPosRx (s : State) (r : Reply) : (s.answer r).dmaPosRx = s.dmaPosRx := rfl
@[simp] theorem State.answer_dmaPosTx (s : State) (r : Reply) : (s.answer r).dmaPosTx = s.dmaPosTx := rfl
@[simp] theorem State.answer_inbox (s : State) (r : Reply) : (s.answer r).inbox = s.inbox := rfl
@[simp] theorem State.answer_ports (s : State) (r : Reply) : (s.answer r).ports = s.ports := rfl
@[simp] theorem State.answer_schedule (s : State) (r : Reply) : (s.answer r).schedule = s.schedule := rfl
@[simp] theorem State.answer_reply (s : State) (r : Reply) : (s.answer r).reply = some r := rfl
@[simp] theorem State.answer_sent (s : State) (r : Reply) : (s.answer r).sent = s.sent := rfl
@[simp] theorem State.answer_draws (s : State) (r : Reply) : (s.answer r).draws = s.draws := rfl

/-! ### `State.raiseFatal` -/

@[simp] theorem State.raiseFatal_params (s : State) (f : FatalInfo) : (s.raiseFatal f).params = s.params := rfl
@[simp] theorem State.raiseFatal_rxWords (s : State) (f : FatalInfo) : (s.raiseFatal f).rxWords = s.rxWords := rfl
@[simp] theorem State.raiseFatal_txWords (s : State) (f : FatalInfo) : (s.raiseFatal f).txWords = s.txWords := rfl
@[simp] theorem State.raiseFatal_mem (s : State) (f : FatalInfo) : (s.raiseFatal f).mem = s.mem := rfl
@[simp] theorem State.raiseFatal_wb (s : State) (f : FatalInfo) : (s.raiseFatal f).wb = s.wb := rfl
@[simp] theorem State.raiseFatal_handover (s : State) (f : FatalInfo) : (s.raiseFatal f).handover = s.handover := rfl
@[simp] theorem State.raiseFatal_rxNext (s : State) (f : FatalInfo) : (s.raiseFatal f).rxNext = s.rxNext := rfl
@[simp] theorem State.raiseFatal_txNext (s : State) (f : FatalInfo) : (s.raiseFatal f).txNext = s.txNext := rfl
@[simp] theorem State.raiseFatal_txReclaim (s : State) (f : FatalInfo) : (s.raiseFatal f).txReclaim = s.txReclaim := rfl
@[simp] theorem State.raiseFatal_rxHeld (s : State) (f : FatalInfo) : (s.raiseFatal f).rxHeld = s.rxHeld := rfl
@[simp] theorem State.raiseFatal_rxMeta (s : State) (f : FatalInfo) : (s.raiseFatal f).rxMeta = s.rxMeta := rfl
@[simp] theorem State.raiseFatal_txMeta (s : State) (f : FatalInfo) : (s.raiseFatal f).txMeta = s.txMeta := rfl
@[simp] theorem State.raiseFatal_intEnable (s : State) (f : FatalInfo) : (s.raiseFatal f).intEnable = s.intEnable := rfl
@[simp] theorem State.raiseFatal_ri (s : State) (f : FatalInfo) : (s.raiseFatal f).ri = s.ri := rfl
@[simp] theorem State.raiseFatal_ti (s : State) (f : FatalInfo) : (s.raiseFatal f).ti = s.ti := rfl
@[simp] theorem State.raiseFatal_halted (s : State) (f : FatalInfo) : (s.raiseFatal f).halted = true := rfl
@[simp] theorem State.raiseFatal_readyRx (s : State) (f : FatalInfo) : (s.raiseFatal f).readyRx = s.readyRx := rfl
@[simp] theorem State.raiseFatal_readyTx (s : State) (f : FatalInfo) : (s.raiseFatal f).readyTx = s.readyTx := rfl
@[simp] theorem State.raiseFatal_bound (s : State) (f : FatalInfo) : (s.raiseFatal f).bound = s.bound := rfl
@[simp] theorem State.raiseFatal_dmaPosRx (s : State) (f : FatalInfo) : (s.raiseFatal f).dmaPosRx = s.dmaPosRx := rfl
@[simp] theorem State.raiseFatal_dmaPosTx (s : State) (f : FatalInfo) : (s.raiseFatal f).dmaPosTx = s.dmaPosTx := rfl
@[simp] theorem State.raiseFatal_inbox (s : State) (f : FatalInfo) : (s.raiseFatal f).inbox = s.inbox := rfl
@[simp] theorem State.raiseFatal_ports (s : State) (f : FatalInfo) : (s.raiseFatal f).ports = s.ports := rfl
@[simp] theorem State.raiseFatal_schedule (s : State) (f : FatalInfo) : (s.raiseFatal f).schedule = s.schedule := rfl
@[simp] theorem State.raiseFatal_reply (s : State) (f : FatalInfo) : (s.raiseFatal f).reply = some (.fatal f) := rfl
@[simp] theorem State.raiseFatal_sent (s : State) (f : FatalInfo) : (s.raiseFatal f).sent = s.sent := rfl
@[simp] theorem State.raiseFatal_draws (s : State) (f : FatalInfo) : (s.raiseFatal f).draws = s.draws := rfl

/-! ### `State.setRxMeta` -/

@[simp] theorem State.setRxMeta_params (s : State) (i : Nat) (m : RxMeta) : (s.setRxMeta i m).params = s.params := rfl
@[simp] theorem State.setRxMeta_rxWords (s : State) (i : Nat) (m : RxMeta) :
    (s.setRxMeta i m).rxWords = s.rxWords := rfl
@[simp] theorem State.setRxMeta_txWords (s : State) (i : Nat) (m : RxMeta) :
    (s.setRxMeta i m).txWords = s.txWords := rfl
@[simp] theorem State.setRxMeta_mem (s : State) (i : Nat) (m : RxMeta) : (s.setRxMeta i m).mem = s.mem := rfl
@[simp] theorem State.setRxMeta_wb (s : State) (i : Nat) (m : RxMeta) : (s.setRxMeta i m).wb = s.wb := rfl
@[simp] theorem State.setRxMeta_handover (s : State) (i : Nat) (m : RxMeta) :
    (s.setRxMeta i m).handover = s.handover := rfl
@[simp] theorem State.setRxMeta_rxNext (s : State) (i : Nat) (m : RxMeta) : (s.setRxMeta i m).rxNext = s.rxNext := rfl
@[simp] theorem State.setRxMeta_txNext (s : State) (i : Nat) (m : RxMeta) : (s.setRxMeta i m).txNext = s.txNext := rfl
@[simp] theorem State.setRxMeta_txReclaim (s : State) (i : Nat) (m : RxMeta) :
    (s.setRxMeta i m).txReclaim = s.txReclaim := rfl
@[simp] theorem State.setRxMeta_rxHeld (s : State) (i : Nat) (m : RxMeta) : (s.setRxMeta i m).rxHeld = s.rxHeld := rfl
@[simp] theorem State.setRxMeta_rxMeta (s : State) (i : Nat) (m : RxMeta) :
    (s.setRxMeta i m).rxMeta = s.rxMeta.set i m := rfl
@[simp] theorem State.setRxMeta_txMeta (s : State) (i : Nat) (m : RxMeta) : (s.setRxMeta i m).txMeta = s.txMeta := rfl
@[simp] theorem State.setRxMeta_intEnable (s : State) (i : Nat) (m : RxMeta) :
    (s.setRxMeta i m).intEnable = s.intEnable := rfl
@[simp] theorem State.setRxMeta_ri (s : State) (i : Nat) (m : RxMeta) : (s.setRxMeta i m).ri = s.ri := rfl
@[simp] theorem State.setRxMeta_ti (s : State) (i : Nat) (m : RxMeta) : (s.setRxMeta i m).ti = s.ti := rfl
@[simp] theorem State.setRxMeta_halted (s : State) (i : Nat) (m : RxMeta) : (s.setRxMeta i m).halted = s.halted := rfl
@[simp] theorem State.setRxMeta_readyRx (s : State) (i : Nat) (m : RxMeta) :
    (s.setRxMeta i m).readyRx = s.readyRx := rfl
@[simp] theorem State.setRxMeta_readyTx (s : State) (i : Nat) (m : RxMeta) :
    (s.setRxMeta i m).readyTx = s.readyTx := rfl
@[simp] theorem State.setRxMeta_bound (s : State) (i : Nat) (m : RxMeta) : (s.setRxMeta i m).bound = s.bound := rfl
@[simp] theorem State.setRxMeta_dmaPosRx (s : State) (i : Nat) (m : RxMeta) :
    (s.setRxMeta i m).dmaPosRx = s.dmaPosRx := rfl
@[simp] theorem State.setRxMeta_dmaPosTx (s : State) (i : Nat) (m : RxMeta) :
    (s.setRxMeta i m).dmaPosTx = s.dmaPosTx := rfl
@[simp] theorem State.setRxMeta_inbox (s : State) (i : Nat) (m : RxMeta) : (s.setRxMeta i m).inbox = s.inbox := rfl
@[simp] theorem State.setRxMeta_ports (s : State) (i : Nat) (m : RxMeta) : (s.setRxMeta i m).ports = s.ports := rfl
@[simp] theorem State.setRxMeta_schedule (s : State) (i : Nat) (m : RxMeta) :
    (s.setRxMeta i m).schedule = s.schedule := rfl
@[simp] theorem State.setRxMeta_reply (s : State) (i : Nat) (m : RxMeta) : (s.setRxMeta i m).reply = s.reply := rfl
@[simp] theorem State.setRxMeta_sent (s : State) (i : Nat) (m : RxMeta) : (s.setRxMeta i m).sent = s.sent := rfl
@[simp] theorem State.setRxMeta_draws (s : State) (i : Nat) (m : RxMeta) : (s.setRxMeta i m).draws = s.draws := rfl

/-! ### `State.setTxMeta` -/

@[simp] theorem State.setTxMeta_params (s : State) (j : Nat) (m : TxMeta) : (s.setTxMeta j m).params = s.params := rfl
@[simp] theorem State.setTxMeta_rxWords (s : State) (j : Nat) (m : TxMeta) :
    (s.setTxMeta j m).rxWords = s.rxWords := rfl
@[simp] theorem State.setTxMeta_txWords (s : State) (j : Nat) (m : TxMeta) :
    (s.setTxMeta j m).txWords = s.txWords := rfl
@[simp] theorem State.setTxMeta_mem (s : State) (j : Nat) (m : TxMeta) : (s.setTxMeta j m).mem = s.mem := rfl
@[simp] theorem State.setTxMeta_wb (s : State) (j : Nat) (m : TxMeta) : (s.setTxMeta j m).wb = s.wb := rfl
@[simp] theorem State.setTxMeta_handover (s : State) (j : Nat) (m : TxMeta) :
    (s.setTxMeta j m).handover = s.handover := rfl
@[simp] theorem State.setTxMeta_rxNext (s : State) (j : Nat) (m : TxMeta) : (s.setTxMeta j m).rxNext = s.rxNext := rfl
@[simp] theorem State.setTxMeta_txNext (s : State) (j : Nat) (m : TxMeta) : (s.setTxMeta j m).txNext = s.txNext := rfl
@[simp] theorem State.setTxMeta_txReclaim (s : State) (j : Nat) (m : TxMeta) :
    (s.setTxMeta j m).txReclaim = s.txReclaim := rfl
@[simp] theorem State.setTxMeta_rxHeld (s : State) (j : Nat) (m : TxMeta) : (s.setTxMeta j m).rxHeld = s.rxHeld := rfl
@[simp] theorem State.setTxMeta_rxMeta (s : State) (j : Nat) (m : TxMeta) : (s.setTxMeta j m).rxMeta = s.rxMeta := rfl
@[simp] theorem State.setTxMeta_txMeta (s : State) (j : Nat) (m : TxMeta) :
    (s.setTxMeta j m).txMeta = s.txMeta.set j m := rfl
@[simp] theorem State.setTxMeta_intEnable (s : State) (j : Nat) (m : TxMeta) :
    (s.setTxMeta j m).intEnable = s.intEnable := rfl
@[simp] theorem State.setTxMeta_ri (s : State) (j : Nat) (m : TxMeta) : (s.setTxMeta j m).ri = s.ri := rfl
@[simp] theorem State.setTxMeta_ti (s : State) (j : Nat) (m : TxMeta) : (s.setTxMeta j m).ti = s.ti := rfl
@[simp] theorem State.setTxMeta_halted (s : State) (j : Nat) (m : TxMeta) : (s.setTxMeta j m).halted = s.halted := rfl
@[simp] theorem State.setTxMeta_readyRx (s : State) (j : Nat) (m : TxMeta) :
    (s.setTxMeta j m).readyRx = s.readyRx := rfl
@[simp] theorem State.setTxMeta_readyTx (s : State) (j : Nat) (m : TxMeta) :
    (s.setTxMeta j m).readyTx = s.readyTx := rfl
@[simp] theorem State.setTxMeta_bound (s : State) (j : Nat) (m : TxMeta) : (s.setTxMeta j m).bound = s.bound := rfl
@[simp] theorem State.setTxMeta_dmaPosRx (s : State) (j : Nat) (m : TxMeta) :
    (s.setTxMeta j m).dmaPosRx = s.dmaPosRx := rfl
@[simp] theorem State.setTxMeta_dmaPosTx (s : State) (j : Nat) (m : TxMeta) :
    (s.setTxMeta j m).dmaPosTx = s.dmaPosTx := rfl
@[simp] theorem State.setTxMeta_inbox (s : State) (j : Nat) (m : TxMeta) : (s.setTxMeta j m).inbox = s.inbox := rfl
@[simp] theorem State.setTxMeta_ports (s : State) (j : Nat) (m : TxMeta) : (s.setTxMeta j m).ports = s.ports := rfl
@[simp] theorem State.setTxMeta_schedule (s : State) (j : Nat) (m : TxMeta) :
    (s.setTxMeta j m).schedule = s.schedule := rfl
@[simp] theorem State.setTxMeta_reply (s : State) (j : Nat) (m : TxMeta) : (s.setTxMeta j m).reply = s.reply := rfl
@[simp] theorem State.setTxMeta_sent (s : State) (j : Nat) (m : TxMeta) : (s.setTxMeta j m).sent = s.sent := rfl
@[simp] theorem State.setTxMeta_draws (s : State) (j : Nat) (m : TxMeta) : (s.setTxMeta j m).draws = s.draws := rfl

/-! ### `State.latch` -/

@[simp] theorem State.latch_params (s : State) (rest : List Input) (c : Command) :
    (s.latch rest c).params = s.params := rfl
@[simp] theorem State.latch_rxWords (s : State) (rest : List Input) (c : Command) :
    (s.latch rest c).rxWords = s.rxWords := rfl
@[simp] theorem State.latch_txWords (s : State) (rest : List Input) (c : Command) :
    (s.latch rest c).txWords = s.txWords := rfl
@[simp] theorem State.latch_mem (s : State) (rest : List Input) (c : Command) : (s.latch rest c).mem = s.mem := rfl
@[simp] theorem State.latch_wb (s : State) (rest : List Input) (c : Command) : (s.latch rest c).wb = s.wb := rfl
@[simp] theorem State.latch_handover (s : State) (rest : List Input) (c : Command) :
    (s.latch rest c).handover = s.handover := rfl
@[simp] theorem State.latch_rxNext (s : State) (rest : List Input) (c : Command) :
    (s.latch rest c).rxNext = s.rxNext := rfl
@[simp] theorem State.latch_txNext (s : State) (rest : List Input) (c : Command) :
    (s.latch rest c).txNext = s.txNext := rfl
@[simp] theorem State.latch_txReclaim (s : State) (rest : List Input) (c : Command) :
    (s.latch rest c).txReclaim = s.txReclaim := rfl
@[simp] theorem State.latch_rxHeld (s : State) (rest : List Input) (c : Command) :
    (s.latch rest c).rxHeld = s.rxHeld := rfl
@[simp] theorem State.latch_rxMeta (s : State) (rest : List Input) (c : Command) :
    (s.latch rest c).rxMeta = s.rxMeta := rfl
@[simp] theorem State.latch_txMeta (s : State) (rest : List Input) (c : Command) :
    (s.latch rest c).txMeta = s.txMeta := rfl
@[simp] theorem State.latch_intEnable (s : State) (rest : List Input) (c : Command) :
    (s.latch rest c).intEnable = s.intEnable := rfl
@[simp] theorem State.latch_ri (s : State) (rest : List Input) (c : Command) : (s.latch rest c).ri = s.ri := rfl
@[simp] theorem State.latch_ti (s : State) (rest : List Input) (c : Command) : (s.latch rest c).ti = s.ti := rfl
@[simp] theorem State.latch_halted (s : State) (rest : List Input) (c : Command) :
    (s.latch rest c).halted = s.halted := rfl
@[simp] theorem State.latch_readyRx (s : State) (rest : List Input) (c : Command) :
    (s.latch rest c).readyRx = s.readyRx := rfl
@[simp] theorem State.latch_readyTx (s : State) (rest : List Input) (c : Command) :
    (s.latch rest c).readyTx = s.readyTx := rfl
@[simp] theorem State.latch_bound (s : State) (rest : List Input) (c : Command) :
    (s.latch rest c).bound = s.bound := rfl
@[simp] theorem State.latch_dmaPosRx (s : State) (rest : List Input) (c : Command) :
    (s.latch rest c).dmaPosRx = s.dmaPosRx := rfl
@[simp] theorem State.latch_dmaPosTx (s : State) (rest : List Input) (c : Command) :
    (s.latch rest c).dmaPosTx = s.dmaPosTx := rfl
@[simp] theorem State.latch_inbox (s : State) (rest : List Input) (c : Command) : (s.latch rest c).inbox = rest := rfl
@[simp] theorem State.latch_ports (s : State) (rest : List Input) (c : Command) :
    (s.latch rest c).ports = c.ports := rfl
@[simp] theorem State.latch_schedule (s : State) (rest : List Input) (c : Command) :
    (s.latch rest c).schedule = s.schedule := rfl
@[simp] theorem State.latch_reply (s : State) (rest : List Input) (c : Command) :
    (s.latch rest c).reply = s.reply := rfl
@[simp] theorem State.latch_sent (s : State) (rest : List Input) (c : Command) : (s.latch rest c).sent = s.sent := rfl
@[simp] theorem State.latch_draws (s : State) (rest : List Input) (c : Command) :
    (s.latch rest c).draws = s.draws := rfl

/-! ### `State.placeCommand` -/

@[simp] theorem State.placeCommand_params (s : State) (w : Word) : (s.placeCommand w).params = s.params := rfl
@[simp] theorem State.placeCommand_rxWords (s : State) (w : Word) : (s.placeCommand w).rxWords = s.rxWords := rfl
@[simp] theorem State.placeCommand_txWords (s : State) (w : Word) : (s.placeCommand w).txWords = s.txWords := rfl
@[simp] theorem State.placeCommand_mem (s : State) (w : Word) : (s.placeCommand w).mem = s.mem := rfl
@[simp] theorem State.placeCommand_wb (s : State) (w : Word) : (s.placeCommand w).wb = s.wb := rfl
@[simp] theorem State.placeCommand_handover (s : State) (w : Word) : (s.placeCommand w).handover = s.handover := rfl
@[simp] theorem State.placeCommand_rxNext (s : State) (w : Word) : (s.placeCommand w).rxNext = s.rxNext := rfl
@[simp] theorem State.placeCommand_txNext (s : State) (w : Word) : (s.placeCommand w).txNext = s.txNext := rfl
@[simp] theorem State.placeCommand_txReclaim (s : State) (w : Word) : (s.placeCommand w).txReclaim = s.txReclaim := rfl
@[simp] theorem State.placeCommand_rxHeld (s : State) (w : Word) : (s.placeCommand w).rxHeld = s.rxHeld := rfl
@[simp] theorem State.placeCommand_rxMeta (s : State) (w : Word) : (s.placeCommand w).rxMeta = s.rxMeta := rfl
@[simp] theorem State.placeCommand_txMeta (s : State) (w : Word) : (s.placeCommand w).txMeta = s.txMeta := rfl
@[simp] theorem State.placeCommand_intEnable (s : State) (w : Word) : (s.placeCommand w).intEnable = s.intEnable := rfl
@[simp] theorem State.placeCommand_ri (s : State) (w : Word) : (s.placeCommand w).ri = s.ri := rfl
@[simp] theorem State.placeCommand_ti (s : State) (w : Word) : (s.placeCommand w).ti = s.ti := rfl
@[simp] theorem State.placeCommand_halted (s : State) (w : Word) : (s.placeCommand w).halted = s.halted := rfl
@[simp] theorem State.placeCommand_readyRx (s : State) (w : Word) : (s.placeCommand w).readyRx = s.readyRx := rfl
@[simp] theorem State.placeCommand_readyTx (s : State) (w : Word) : (s.placeCommand w).readyTx = s.readyTx := rfl
@[simp] theorem State.placeCommand_bound (s : State) (w : Word) : (s.placeCommand w).bound = s.bound := rfl
@[simp] theorem State.placeCommand_dmaPosRx (s : State) (w : Word) : (s.placeCommand w).dmaPosRx = s.dmaPosRx := rfl
@[simp] theorem State.placeCommand_dmaPosTx (s : State) (w : Word) : (s.placeCommand w).dmaPosTx = s.dmaPosTx := rfl
@[simp] theorem State.placeCommand_inbox (s : State) (w : Word) :
    (s.placeCommand w).inbox = .command ⟨w, s.ports⟩ :: s.inbox := rfl
@[simp] theorem State.placeCommand_ports (s : State) (w : Word) : (s.placeCommand w).ports = s.ports := rfl
@[simp] theorem State.placeCommand_schedule (s : State) (w : Word) : (s.placeCommand w).schedule = s.schedule := rfl
@[simp] theorem State.placeCommand_reply (s : State) (w : Word) : (s.placeCommand w).reply = s.reply := rfl
@[simp] theorem State.placeCommand_sent (s : State) (w : Word) : (s.placeCommand w).sent = s.sent := rfl
@[simp] theorem State.placeCommand_draws (s : State) (w : Word) : (s.placeCommand w).draws = s.draws := rfl

/-! ### `State.setWords` -/

@[simp] theorem State.setWords_params (s : State) (d : Dir) (ws : List Word) :
    (s.setWords d ws).params = s.params := by cases d <;> rfl
@[simp] theorem State.setWords_mem (s : State) (d : Dir) (ws : List Word) :
    (s.setWords d ws).mem = s.mem := by cases d <;> rfl
@[simp] theorem State.setWords_wb (s : State) (d : Dir) (ws : List Word) :
    (s.setWords d ws).wb = s.wb := by cases d <;> rfl
@[simp] theorem State.setWords_handover (s : State) (d : Dir) (ws : List Word) :
    (s.setWords d ws).handover = s.handover := by cases d <;> rfl
@[simp] theorem State.setWords_rxNext (s : State) (d : Dir) (ws : List Word) :
    (s.setWords d ws).rxNext = s.rxNext := by cases d <;> rfl
@[simp] theorem State.setWords_txNext (s : State) (d : Dir) (ws : List Word) :
    (s.setWords d ws).txNext = s.txNext := by cases d <;> rfl
@[simp] theorem State.setWords_txReclaim (s : State) (d : Dir) (ws : List Word) :
    (s.setWords d ws).txReclaim = s.txReclaim := by cases d <;> rfl
@[simp] theorem State.setWords_rxHeld (s : State) (d : Dir) (ws : List Word) :
    (s.setWords d ws).rxHeld = s.rxHeld := by cases d <;> rfl
@[simp] theorem State.setWords_rxMeta (s : State) (d : Dir) (ws : List Word) :
    (s.setWords d ws).rxMeta = s.rxMeta := by cases d <;> rfl
@[simp] theorem State.setWords_txMeta (s : State) (d : Dir) (ws : List Word) :
    (s.setWords d ws).txMeta = s.txMeta := by cases d <;> rfl
@[simp] theorem State.setWords_intEnable (s : State) (d : Dir) (ws : List Word) :
    (s.setWords d ws).intEnable = s.intEnable := by cases d <;> rfl
@[simp] theorem State.setWords_ri (s : State) (d : Dir) (ws : List Word) :
    (s.setWords d ws).ri = s.ri := by cases d <;> rfl
@[simp] theorem State.setWords_ti (s : State) (d : Dir) (ws : List Word) :
    (s.setWords d ws).ti = s.ti := by cases d <;> rfl
@[simp] theorem State.setWords_halted (s : State) (d : Dir) (ws : List Word) :
    (s.setWords d ws).halted = s.halted := by cases d <;> rfl
@[simp] theorem State.setWords_readyRx (s : State) (d : Dir) (ws : List Word) :
    (s.setWords d ws).readyRx = s.readyRx := by cases d <;> rfl
@[simp] theorem State.setWords_readyTx (s : State) (d : Dir) (ws : List Word) :
    (s.setWords d ws).readyTx = s.readyTx := by cases d <;> rfl
@[simp] theorem State.setWords_bound (s : State) (d : Dir) (ws : List Word) :
    (s.setWords d ws).bound = s.bound := by cases d <;> rfl
@[simp] theorem State.setWords_dmaPosRx (s : State) (d : Dir) (ws : List Word) :
    (s.setWords d ws).dmaPosRx = s.dmaPosRx := by cases d <;> rfl
@[simp] theorem State.setWords_dmaPosTx (s : State) (d : Dir) (ws : List Word) :
    (s.setWords d ws).dmaPosTx = s.dmaPosTx := by cases d <;> rfl
@[simp] theorem State.setWords_inbox (s : State) (d : Dir) (ws : List Word) :
    (s.setWords d ws).inbox = s.inbox := by cases d <;> rfl
@[simp] theorem State.setWords_ports (s : State) (d : Dir) (ws : List Word) :
    (s.setWords d ws).ports = s.ports := by cases d <;> rfl
@[simp] theorem State.setWords_schedule (s : State) (d : Dir) (ws : List Word) :
    (s.setWords d ws).schedule = s.schedule := by cases d <;> rfl
@[simp] theorem State.setWords_reply (s : State) (d : Dir) (ws : List Word) :
    (s.setWords d ws).reply = s.reply := by cases d <;> rfl
@[simp] theorem State.setWords_sent (s : State) (d : Dir) (ws : List Word) :
    (s.setWords d ws).sent = s.sent := by cases d <;> rfl
@[simp] theorem State.setWords_draws (s : State) (d : Dir) (ws : List Word) :
    (s.setWords d ws).draws = s.draws := by cases d <;> rfl

/-! ### `State.setWord` -/

@[simp] theorem State.setWord_params (s : State) (d : Dir) (i k : Nat) (v : Word) :
    (s.setWord d i k v).params = s.params := by cases d <;> rfl
@[simp] theorem State.setWord_mem (s : State) (d : Dir) (i k : Nat) (v : Word) :
    (s.setWord d i k v).mem = s.mem := by cases d <;> rfl
@[simp] theorem State.setWord_wb (s : State) (d : Dir) (i k : Nat) (v : Word) :
    (s.setWord d i k v).wb = s.wb := by cases d <;> rfl
@[simp] theorem State.setWord_handover (s : State) (d : Dir) (i k : Nat) (v : Word) :
    (s.setWord d i k v).handover = s.handover := by cases d <;> rfl
@[simp] theorem State.setWord_rxNext (s : State) (d : Dir) (i k : Nat) (v : Word) :
    (s.setWord d i k v).rxNext = s.rxNext := by cases d <;> rfl
@[simp] theorem State.setWord_txNext (s : State) (d : Dir) (i k : Nat) (v : Word) :
    (s.setWord d i k v).txNext = s.txNext := by cases d <;> rfl
@[simp] theorem State.setWord_txReclaim (s : State) (d : Dir) (i k : Nat) (v : Word) :
    (s.setWord d i k v).txReclaim = s.txReclaim := by cases d <;> rfl
@[simp] theorem State.setWord_rxHeld (s : State) (d : Dir) (i k : Nat) (v : Word) :
    (s.setWord d i k v).rxHeld = s.rxHeld := by cases d <;> rfl
@[simp] theorem State.setWord_rxMeta (s : State) (d : Dir) (i k : Nat) (v : Word) :
    (s.setWord d i k v).rxMeta = s.rxMeta := by cases d <;> rfl
@[simp] theorem State.setWord_txMeta (s : State) (d : Dir) (i k : Nat) (v : Word) :
    (s.setWord d i k v).txMeta = s.txMeta := by cases d <;> rfl
@[simp] theorem State.setWord_intEnable (s : State) (d : Dir) (i k : Nat) (v : Word) :
    (s.setWord d i k v).intEnable = s.intEnable := by cases d <;> rfl
@[simp] theorem State.setWord_ri (s : State) (d : Dir) (i k : Nat) (v : Word) :
    (s.setWord d i k v).ri = s.ri := by cases d <;> rfl
@[simp] theorem State.setWord_ti (s : State) (d : Dir) (i k : Nat) (v : Word) :
    (s.setWord d i k v).ti = s.ti := by cases d <;> rfl
@[simp] theorem State.setWord_halted (s : State) (d : Dir) (i k : Nat) (v : Word) :
    (s.setWord d i k v).halted = s.halted := by cases d <;> rfl
@[simp] theorem State.setWord_readyRx (s : State) (d : Dir) (i k : Nat) (v : Word) :
    (s.setWord d i k v).readyRx = s.readyRx := by cases d <;> rfl
@[simp] theorem State.setWord_readyTx (s : State) (d : Dir) (i k : Nat) (v : Word) :
    (s.setWord d i k v).readyTx = s.readyTx := by cases d <;> rfl
@[simp] theorem State.setWord_bound (s : State) (d : Dir) (i k : Nat) (v : Word) :
    (s.setWord d i k v).bound = s.bound := by cases d <;> rfl
@[simp] theorem State.setWord_dmaPosRx (s : State) (d : Dir) (i k : Nat) (v : Word) :
    (s.setWord d i k v).dmaPosRx = s.dmaPosRx := by cases d <;> rfl
@[simp] theorem State.setWord_dmaPosTx (s : State) (d : Dir) (i k : Nat) (v : Word) :
    (s.setWord d i k v).dmaPosTx = s.dmaPosTx := by cases d <;> rfl
@[simp] theorem State.setWord_inbox (s : State) (d : Dir) (i k : Nat) (v : Word) :
    (s.setWord d i k v).inbox = s.inbox := by cases d <;> rfl
@[simp] theorem State.setWord_ports (s : State) (d : Dir) (i k : Nat) (v : Word) :
    (s.setWord d i k v).ports = s.ports := by cases d <;> rfl
@[simp] theorem State.setWord_schedule (s : State) (d : Dir) (i k : Nat) (v : Word) :
    (s.setWord d i k v).schedule = s.schedule := by cases d <;> rfl
@[simp] theorem State.setWord_reply (s : State) (d : Dir) (i k : Nat) (v : Word) :
    (s.setWord d i k v).reply = s.reply := by cases d <;> rfl
@[simp] theorem State.setWord_sent (s : State) (d : Dir) (i k : Nat) (v : Word) :
    (s.setWord d i k v).sent = s.sent := by cases d <;> rfl
@[simp] theorem State.setWord_draws (s : State) (d : Dir) (i k : Nat) (v : Word) :
    (s.setWord d i k v).draws = s.draws := by cases d <;> rfl

/-! ### The words of a ring -/

@[simp] theorem State.words_setWords_same (s : State) (d : Dir) (ws : List Word) : (s.setWords d ws).words d = ws := by
  cases d <;> rfl

theorem State.words_setWords_ne (s : State) (d d' : Dir) (h : d' ≠ d) (ws : List Word) :
    (s.setWords d ws).words d' = s.words d' := by
  cases d <;> cases d' <;> first | rfl | exact absurd rfl h

@[simp] theorem State.words_setWord_same (s : State) (d : Dir) (i k : Nat) (v : Word) :
    (s.setWord d i k v).words d = (s.words d).set (4 * i + k) v := by
  simp [State.setWord]

theorem State.words_setWord_ne (s : State) (d d' : Dir) (h : d' ≠ d) (i k : Nat) (v : Word) :
    (s.setWord d i k v).words d' = s.words d' := by
  simp [State.setWord, State.words_setWords_ne _ _ _ h]

@[simp] theorem State.length_words_setWord (s : State) (d d' : Dir) (i k : Nat) (v : Word) :
    ((s.setWord d i k v).words d').length = (s.words d').length := by
  by_cases h : d' = d
  · subst h; simp
  · rw [State.words_setWord_ne _ _ _ h]

/-- A word reads as the one written to it. -/
theorem State.word_setWord_same (s : State) (d : Dir) (i k : Nat) (v : Word) (h : 4 * i + k < (s.words d).length) :
    (s.setWord d i k v).word d i k = v := by
  simp [State.word, List.getD, h]

/-- A write of a word leaves every other word of the descriptors. -/
theorem State.word_setWord_ne (s : State) (d d' : Dir) (i i' k k' : Nat) (v : Word) (hk : k < 4) (hk' : k' < 4)
    (h : ¬ (d' = d ∧ i' = i ∧ k' = k)) : (s.setWord d i k v).word d' i' k' = s.word d' i' k' := by
  by_cases hd : d' = d
  · subst hd
    have hne : 4 * i + k ≠ 4 * i' + k' := by
      intro e
      exact h ⟨rfl, by omega, by omega⟩
    simp [State.word, List.getD, List.getElem?_set_ne hne]
  · simp [State.word, State.words_setWord_ne _ _ _ hd]

end Sys2Proof.Machine
end

