-- ==== Sys2Proof/Laws/WriteBuffer.lean ====
section
/-! SUPPORT. What the operations over the write buffer and over bytes of memory do, said once: `WbEntry.apply`,
`applyAll`, `flush`, `pendingWord`, `swWord`. -/

namespace Sys2Proof.Machine

/-! ### Shared memory alone: the part of the state that a write can change -/

/-- A write of a byte changes descriptor words and buffer memory only, and looks at nothing else. -/
theorem State.putByte_with (s : State) (a : Nat) (v : Byte) (w : List WbEntry) (h : Option (Dir × Nat)) :
    State.putByte { s with wb := w, handover := h } a v = { s.putByte a v with wb := w, handover := h } := by
  simp only [State.putByte]
  split
  · next d n b _ => cases d <;> rfl
  · rfl

theorem WbEntry.apply_with (e : WbEntry) (s : State) (w : List WbEntry) (h : Option (Dir × Nat)) :
    e.apply { s with wb := w, handover := h } = { e.apply s with wb := w, handover := h } := by
  cases e with
  | word d i k v => cases d <;> rfl
  | byte a v => exact State.putByte_with s a v w h
  | fence => rfl

/-- Draining looks at no window and at no other entry. -/
theorem State.applyAll_with (es : List WbEntry) (s : State) (w : List WbEntry) (h : Option (Dir × Nat)) :
    State.applyAll { s with wb := w, handover := h } es = { s.applyAll es with wb := w, handover := h } := by
  induction es generalizing s with
  | nil => rfl
  | cons e es ih => simp only [State.applyAll, WbEntry.apply_with, ih]

theorem WbEntry.apply_withWb (e : WbEntry) (s : State) (w : List WbEntry) :
    e.apply { s with wb := w } = { e.apply s with wb := w } := by
  cases e with
  | word d i k v => cases d <;> rfl
  | byte a v =>
    simp only [WbEntry.apply, State.putByte]
    split
    · next d n b _ => cases d <;> rfl
    · rfl
  | fence => rfl

theorem State.applyAll_withWb (es : List WbEntry) (s : State) (w : List WbEntry) :
    State.applyAll { s with wb := w } es = { s.applyAll es with wb := w } := by
  induction es generalizing s with
  | nil => rfl
  | cons e es ih => simp only [State.applyAll, WbEntry.apply_withWb, ih]

theorem State.applyAll_append (es fs : List WbEntry) (s : State) :
    s.applyAll (es ++ fs) = (s.applyAll es).applyAll fs := by
  induction es generalizing s with
  | nil => rfl
  | cons e es ih => simp only [List.cons_append, State.applyAll, ih]

/-- Everything of a state but shared memory, the write buffer and the window: what draining leaves alone. -/
theorem WbEntry.apply_rest (e : WbEntry) (s : State) :
    ∃ r t m, e.apply s = { s with rxWords := r, txWords := t, mem := m } ∧
      r.length = s.rxWords.length ∧ t.length = s.txWords.length := by
  cases e with
  | word d i k v =>
    cases d
    · exact ⟨s.rxWords.set (4 * i + k) v, s.txWords, s.mem, rfl, by simp, rfl⟩
    · exact ⟨s.rxWords, s.txWords.set (4 * i + k) v, s.mem, rfl, rfl, by simp⟩
  | byte a v =>
    simp only [WbEntry.apply, State.putByte]
    split
    · next d n b _ =>
      cases d
      · exact ⟨s.rxWords.set n _, s.txWords, s.mem, rfl, by simp, rfl⟩
      · exact ⟨s.rxWords, s.txWords.set n _, s.mem, rfl, rfl, by simp⟩
    · exact ⟨s.rxWords, s.txWords, s.mem.write a v, rfl, rfl, rfl⟩
  | fence => exact ⟨s.rxWords, s.txWords, s.mem, rfl, rfl, rfl⟩

theorem State.applyAll_rest (es : List WbEntry) (s : State) :
    ∃ r t m, s.applyAll es = { s with rxWords := r, txWords := t, mem := m } ∧
      r.length = s.rxWords.length ∧ t.length = s.txWords.length := by
  induction es generalizing s with
  | nil => exact ⟨s.rxWords, s.txWords, s.mem, rfl, rfl, rfl⟩
  | cons e es ih =>
    obtain ⟨r, t, m, h, hr, ht⟩ := e.apply_rest s
    obtain ⟨r', t', m', h', hr', ht'⟩ := ih (e.apply s)
    refine ⟨r', t', m', ?_, ?_, ?_⟩
    · simp only [State.applyAll]; rw [h', h]
    · rw [hr', h]; exact hr
    · rw [ht', h]; exact ht

/-- What BARRIER.DSB leaves alone: all but shared memory and the write buffer, which it empties. -/
theorem State.flush_rest (s : State) :
    ∃ r t m, s.flush = { s with rxWords := r, txWords := t, mem := m, wb := [] } ∧
      r.length = s.rxWords.length ∧ t.length = s.txWords.length := by
  obtain ⟨r, t, m, h, hr, ht⟩ := State.applyAll_rest s.wb s
  exact ⟨r, t, m, by simp only [State.flush, h], hr, ht⟩

/-- The state with shared memory and the write buffer replaced. -/
def State.withShared (s : State) (r t : List Word) (m : Memory) (w : List WbEntry) : State :=
  { s with rxWords := r, txWords := t, mem := m, wb := w }

/-- An update that touches neither shared memory nor the write buffer, and does not look at them. -/
structure AwayFromMemory (f : State → State) : Prop where
  params : ∀ s, (f s).params = s.params
  comm : ∀ s r t m w, f (s.withShared r t m w) = (f s).withShared r t m w

theorem AwayFromMemory.self {f : State → State} (hf : AwayFromMemory f) (s : State) :
    f s = (f s).withShared s.rxWords s.txWords s.mem s.wb := hf.comm s s.rxWords s.txWords s.mem s.wb

/-- Draining an entry commutes with such an update. -/
theorem AwayFromMemory.apply {f : State → State} (hf : AwayFromMemory f) (e : WbEntry) (s : State) :
    e.apply (f s) = f (e.apply s) := by
  have hp := hf.params s
  rw [hf.self s]
  generalize hg : f s = g at hp
  cases e with
  | word d i k v =>
    cases d
    · exact (hg ▸ hf.comm s (s.rxWords.set (4 * i + k) v) s.txWords s.mem s.wb).symm
    · exact (hg ▸ hf.comm s s.rxWords (s.txWords.set (4 * i + k) v) s.mem s.wb).symm
  | byte a v =>
    have hp' : (g.withShared s.rxWords s.txWords s.mem s.wb).params.descriptorByte a = s.params.descriptorByte a :=
      congrArg (fun p => p.descriptorByte a) hp
    simp only [WbEntry.apply, State.putByte, hp']
    split
    · next d n b _ =>
      cases d
      · exact (hg ▸ hf.comm s (s.rxWords.set n _) s.txWords s.mem s.wb).symm
      · exact (hg ▸ hf.comm s s.rxWords (s.txWords.set n _) s.mem s.wb).symm
    · exact (hg ▸ hf.comm s s.rxWords s.txWords (s.mem.write a v) s.wb).symm
  | fence => exact (hf.self s ▸ hg ▸ rfl)

theorem AwayFromMemory.applyAll {f : State → State} (hf : AwayFromMemory f) (es : List WbEntry) (s : State) :
    (f s).applyAll es = f (s.applyAll es) := by
  induction es generalizing s with
  | nil => rfl
  | cons e es ih => simp only [State.applyAll, hf.apply, ih]

/-- Such an update and draining everything may be done in either order. -/
theorem AwayFromMemory.flush {f : State → State} (hf : AwayFromMemory f) (s : State) : (f s).flush = f s.flush := by
  have h4 : (f s).wb = s.wb := by
    have h := congrArg State.wb (hf.self s)
    exact h
  simp only [State.flush, h4, hf.applyAll]
  generalize s.applyAll s.wb = u
  have h := hf.comm u u.rxWords u.txWords u.mem []
  have h' := hf.self u
  exact (congrArg (fun t : State => ({ t with wb := [] } : State)) h').trans h.symm

@[simp] theorem State.flush_wb (s : State) : s.flush.wb = [] := rfl
@[simp] theorem State.flush_params (s : State) : s.flush.params = s.params := by
  obtain ⟨r, t, m, h, _, _⟩ := s.flush_rest; rw [h]
@[simp] theorem State.flush_handover (s : State) : s.flush.handover = s.handover := by
  obtain ⟨r, t, m, h, _, _⟩ := s.flush_rest; rw [h]
@[simp] theorem State.flush_rxNext (s : State) : s.flush.rxNext = s.rxNext := by
  obtain ⟨r, t, m, h, _, _⟩ := s.flush_rest; rw [h]
@[simp] theorem State.flush_txNext (s : State) : s.flush.txNext = s.txNext := by
  obtain ⟨r, t, m, h, _, _⟩ := s.flush_rest; rw [h]
@[simp] theorem State.flush_txReclaim (s : State) : s.flush.txReclaim = s.txReclaim := by
  obtain ⟨r, t, m, h, _, _⟩ := s.flush_rest; rw [h]
@[simp] theorem State.flush_rxHeld (s : State) : s.flush.rxHeld = s.rxHeld := by
  obtain ⟨r, t, m, h, _, _⟩ := s.flush_rest; rw [h]
@[simp] theorem State.flush_rxMeta (s : State) : s.flush.rxMeta = s.rxMeta := by
  obtain ⟨r, t, m, h, _, _⟩ := s.flush_rest; rw [h]
@[simp] theorem State.flush_txMeta (s : State) : s.flush.txMeta = s.txMeta := by
  obtain ⟨r, t, m, h, _, _⟩ := s.flush_rest; rw [h]
@[simp] theorem State.flush_intEnable (s : State) : s.flush.intEnable = s.intEnable := by
  obtain ⟨r, t, m, h, _, _⟩ := s.flush_rest; rw [h]
@[simp] theorem State.flush_ri (s : State) : s.flush.ri = s.ri := by
  obtain ⟨r, t, m, h, _, _⟩ := s.flush_rest; rw [h]
@[simp] theorem State.flush_ti (s : State) : s.flush.ti = s.ti := by
  obtain ⟨r, t, m, h, _, _⟩ := s.flush_rest; rw [h]
@[simp] theorem State.flush_halted (s : State) : s.flush.halted = s.halted := by
  obtain ⟨r, t, m, h, _, _⟩ := s.flush_rest; rw [h]
@[simp] theorem State.flush_readyRx (s : State) : s.flush.readyRx = s.readyRx := by
  obtain ⟨r, t, m, h, _, _⟩ := s.flush_rest; rw [h]
@[simp] theorem State.flush_readyTx (s : State) : s.flush.readyTx = s.readyTx := by
  obtain ⟨r, t, m, h, _, _⟩ := s.flush_rest; rw [h]
@[simp] theorem State.flush_bound (s : State) : s.flush.bound = s.bound := by
  obtain ⟨r, t, m, h, _, _⟩ := s.flush_rest; rw [h]
@[simp] theorem State.flush_dmaPosRx (s : State) : s.flush.dmaPosRx = s.dmaPosRx := by
  obtain ⟨r, t, m, h, _, _⟩ := s.flush_rest; rw [h]
@[simp] theorem State.flush_dmaPosTx (s : State) : s.flush.dmaPosTx = s.dmaPosTx := by
  obtain ⟨r, t, m, h, _, _⟩ := s.flush_rest; rw [h]
@[simp] theorem State.flush_inbox (s : State) : s.flush.inbox = s.inbox := by
  obtain ⟨r, t, m, h, _, _⟩ := s.flush_rest; rw [h]
@[simp] theorem State.flush_ports (s : State) : s.flush.ports = s.ports := by
  obtain ⟨r, t, m, h, _, _⟩ := s.flush_rest; rw [h]
@[simp] theorem State.flush_schedule (s : State) : s.flush.schedule = s.schedule := by
  obtain ⟨r, t, m, h, _, _⟩ := s.flush_rest; rw [h]
@[simp] theorem State.flush_reply (s : State) : s.flush.reply = s.reply := by
  obtain ⟨r, t, m, h, _, _⟩ := s.flush_rest; rw [h]
@[simp] theorem State.flush_sent (s : State) : s.flush.sent = s.sent := by
  obtain ⟨r, t, m, h, _, _⟩ := s.flush_rest; rw [h]
@[simp] theorem State.flush_draws (s : State) : s.flush.draws = s.draws := by
  obtain ⟨r, t, m, h, _, _⟩ := s.flush_rest; rw [h]

@[simp] theorem State.length_words_flush (s : State) (d : Dir) : (s.flush.words d).length = (s.words d).length := by
  obtain ⟨r, t, m, h, hr, ht⟩ := s.flush_rest
  rw [h]; cases d
  · exact hr
  · exact ht

/-- With nothing pending the barrier changes nothing. -/
theorem State.flush_of_empty (s : State) (h : s.wb = []) : s.flush = s := by
  simp only [State.flush, h, State.applyAll]
  cases s; simp only at h; subst h; rfl

/-! ### Looking through the write buffer -/

theorem pendingWord_append (wb : List WbEntry) (e : WbEntry) (d : Dir) (i k : Nat) :
    pendingWord (wb ++ [e]) d i k =
      match e with
      | .word d' i' k' v => if d' = d ∧ i' = i ∧ k' = k then some v else pendingWord wb d i k
      | _ => pendingWord wb d i k := by
  cases e <;> simp only [pendingWord, List.foldl_append, List.foldl_cons, List.foldl_nil]

theorem pendingByte_append (wb : List WbEntry) (e : WbEntry) (a : Nat) :
    pendingByte (wb ++ [e]) a =
      match e with
      | .byte a' v => if a' = a then some v else pendingByte wb a
      | _ => pendingByte wb a := by
  cases e <;> simp only [pendingByte, List.foldl_append, List.foldl_cons, List.foldl_nil]

/-- With nothing pending SW sees MEM. -/
theorem State.swWord_of_empty (s : State) (h : s.wb = []) (d : Dir) (i k : Nat) : s.swWord d i k = s.word d i k := by
  simp [State.swWord, h, pendingWord]

/-- A word that SW has just written is what SW reads (R66). -/
theorem State.swWord_write_same (s : State) (wb : List WbEntry) (d : Dir) (i k : Nat) (v : Word) :
    State.swWord { s with wb := wb ++ [.word d i k v] } d i k = v := by
  simp [State.swWord, pendingWord_append]

theorem State.setWord_setWord (s : State) (d : Dir) (i k : Nat) (v v' : Word) :
    (s.setWord d i k v).setWord d i k v' = s.setWord d i k v' := by
  cases d <;> simp [State.setWord, State.setWords, State.words]

end Sys2Proof.Machine
end

