-- ==== Sys2Proof/Laws/Quiet.lean ====
section
/-! SUPPORT. What the micro-steps and the shared operations of SW do when no other agent steps inside them: one closed
form each, which later proofs cite instead of unfolding the operation. -/

namespace Sys2Proof.Machine

theorem State.interleave_quiet (s : State) (h : s.Quiet) : s.interleave = s := by
  simp only [State.Quiet] at h
  simp [State.interleave, h]

theorem swRead_quiet (s : State) (h : s.Quiet) (d : Dir) (i k : Nat) : swRead d i k s = (s.swWord d i k, s) := by
  simp [swRead, s.interleave_quiet h]

theorem swWrite_quiet (s : State) (h : s.Quiet) (d : Dir) (i k : Nat) (v : Word) :
    swWrite d i k v s = { s with wb := s.wb ++ [.word d i k v] } := by
  simp [swWrite, s.interleave_quiet h]

theorem swModify_quiet (s : State) (h : s.Quiet) (d : Dir) (i k : Nat) (f : Word → Word) :
    swModify d i k f s = { s with wb := s.wb ++ [.word d i k (f (s.swWord d i k))] } := by
  simp [swModify, swRead_quiet s h, swWrite_quiet s h]

theorem swReadByte_quiet (s : State) (h : s.Quiet) (a : Nat) : swReadByte a s = s.fetchByte (s.swByte a) := by
  simp [swReadByte, s.interleave_quiet h]

theorem swWriteByte_quiet (s : State) (h : s.Quiet) (a : Nat) (b : Byte) :
    swWriteByte a b s = { s with wb := s.wb ++ [.byte a b] } := by
  simp [swWriteByte, s.interleave_quiet h]

theorem fenceWw_quiet (s : State) (h : s.Quiet) : fenceWw s = { s with wb := s.wb ++ [.fence] } := by
  simp [fenceWw, s.interleave_quiet h]

theorem barrierDsb_quiet (s : State) (h : s.Quiet) : barrierDsb s = s.flush := by
  simp [barrierDsb, s.interleave_quiet h]

theorem fenceFull_quiet (s : State) (h : s.Quiet) : fenceFull s = s.flush := by
  simp [fenceFull, s.interleave_quiet h]

theorem fenceRr_quiet (s : State) (h : s.Quiet) : fenceRr s = s := by
  simp [fenceRr, s.interleave_quiet h]

theorem isOwned_quiet (s : State) (h : s.Quiet) (d : Dir) (i : Nat) :
    isOwned d i s = (s.params.ownedByHw d (s.swWord d i (s.params.ownWord d)), s) := by
  simp [isOwned, swRead_quiet s h]

theorem frameLength_quiet (s : State) (h : s.Quiet) (i : Nat) :
    frameLength i s =
      (if s.params.ownedByHw .rx (s.swWord .rx i (s.params.ownWord .rx)) then 0
        else s.params.rxLen (s.swWord .rx i (s.params.ownWord .rx)), s) := by
  simp [frameLength, swRead_quiet s h]

theorem State.words_length (s : State) (hs : s.Sized) (d : Dir) : (s.words d).length = 4 * s.params.capacity d := by
  cases d
  · exact hs.rxWords
  · exact hs.txWords

theorem State.applyAll_words_length (s : State) (es : List WbEntry) (d : Dir) :
    ((s.applyAll es).words d).length = (s.words d).length := by
  obtain ⟨r, t, m, h, hr, ht⟩ := State.applyAll_rest es s
  rw [h]; cases d
  · exact hr
  · exact ht

/-- The closed form of a flush after one more word has been written: the word is in MEM, over the flushed rest. -/
theorem State.flush_append_word (s : State) (d : Dir) (i k : Nat) (v : Word) :
    State.flush { s with wb := s.wb ++ [.word d i k v] } = s.flush.setWord d i k v := by
  simp only [State.flush, State.applyAll_withWb, State.applyAll_append]
  cases d <;> rfl

/-- A fence marker makes no difference to a flush. -/
theorem State.flush_append_fence (s : State) : State.flush { s with wb := s.wb ++ [.fence] } = s.flush := by
  simp only [State.flush, State.applyAll_withWb, State.applyAll_append]
  rfl

theorem State.flush_setHandover (s : State) (h : Option (Dir × Nat)) :
    State.flush { s with handover := h } = { s.flush with handover := h } := by
  simp only [State.flush]
  exact congrArg (fun t : State => { t with wb := [] }) (State.applyAll_with s.wb s s.wb h)

/-- The hand-over, when no other agent steps inside it: everything pending reaches MEM, then the OWN word with the mask
of step 3, and the read-back of step 5 finds the slot hardware-owned (R145, R150). -/
theorem ownTransfer_quiet (s : State) (hq : s.Quiet) (hp : s.params.wf = true) (hs : s.Sized) (d : Dir) (i : Nat)
    (hi : i < s.params.capacity d) :
    ownTransfer d i s =
      .done () { s.flush.setWord d i (s.params.ownWord d)
        (s.swWord d i (s.params.ownWord d) ||| s.params.handoverMask d) with handover := none } := by
  have hw := (s.params.wf_own hp d).2.2
  have hq1 : State.Quiet { s with wb := s.wb ++ [.fence] } := hq
  have hsw : State.swWord { s with wb := s.wb ++ [.fence] } d i (s.params.ownWord d)
      = s.swWord d i (s.params.ownWord d) := by
    simp only [State.swWord, pendingWord_append]; rfl
  let v := s.swWord d i (s.params.ownWord d) ||| s.params.handoverMask d
  let w3 : State := { s with wb := s.wb ++ [.fence] ++ [.word d i (s.params.ownWord d) v], handover := some (d, i) }
  have hq3 : w3.Quiet := hq
  have hflush : w3.flush = { s.flush.setWord d i (s.params.ownWord d) v with handover := some (d, i) } := by
    have e1 := State.flush_setHandover { s with wb := s.wb ++ [.fence] ++ [.word d i (s.params.ownWord d) v] } (some (d, i))
    have e2 := State.flush_append_word { s with wb := s.wb ++ [.fence] } d i (s.params.ownWord d) v
    rw [e2, State.flush_append_fence] at e1
    exact e1
  have hq4 : w3.flush.Quiet := by rw [State.Quiet, State.flush_schedule]; exact hq3
  have hread : w3.flush.swWord d i (s.params.ownWord d) = v := by
    rw [State.swWord_of_empty _ rfl, hflush]
    have hlen : 4 * i + s.params.ownWord d < (s.flush.words d).length := by
      rw [State.length_words_flush, s.words_length hs]; omega
    have := State.word_setWord_same s.flush d i (s.params.ownWord d) v hlen
    cases d <;> exact this
  have hown : s.params.ownedByHw d v = true := s.params.ownedByHw_or_handoverMask hp d _
  have hclosed : ({ w3.flush with handover := none } : State) =
      { s.flush.setWord d i (s.params.ownWord d) v with handover := none } := by rw [hflush]
  have hfull : State.flush { w3.flush with handover := none } = { w3.flush with handover := none } :=
    State.flush_of_empty _ rfl
  have hq5 : State.Quiet { w3.flush with handover := none } := hq4
  simp only [ownTransfer, fenceWw_quiet s hq, swRead_quiet _ hq1, hsw, swWrite_quiet _ hq1]
  have hb : barrierDsb w3 = w3.flush := barrierDsb_quiet _ hq3
  simp only [w3, v] at hb hread hq4 hown hfull hq5 hclosed
  rw [hb, swRead_quiet _ hq4]
  simp only [hread, hown, if_true]
  rw [fenceFull_quiet _ hq5, hfull, hclosed]

end Sys2Proof.Machine
end

