-- ==== Sys2Proof/Laws/Agents.lean ====
section
/-! SUPPORT. What the DMA agent's write-back of a descriptor does to the words of the rings (spec/46_dma_agent.md rules
R252, R254). -/

namespace Sys2Proof.Machine

/-- The write-back puts the drawn words into the slot, OWN cleared in the OWN word, and touches no other word. -/
theorem State.writeBack_words (s : State) (d : Dir) (i : Nat) (v : Words4) (hp : s.params.wf = true) (hs : s.Sized)
    (hi : i < s.params.capacity d) :
   (∃ ws, s.writeBack d i v = s.setWords d ws ∧ ws.length = (s.words d).length) ∧
   (∀ k, k < 4 → k ≠ s.params.ownWord d → (s.writeBack d i v).word d i k = v.at k) ∧
   ((s.writeBack d i v).word d i (s.params.ownWord d) = v.at (s.params.ownWord d) &&& ~~~(s.params.own d).mask) ∧
   (∀ d' i' k, k < 4 → ¬ (d' = d ∧ i' = i) → (s.writeBack d i v).word d' i' k = s.word d' i' k) := by
  have ho := (s.params.wf_own hp d).2.2
  have hl := s.words_length hs d
  have hf : ∀ (ks : List Nat) (t : State), (∀ k ∈ ks, k < 4) → (t.words d).length = (s.words d).length →
      (∃ ws, ks.foldl (fun t k => t.setWord d i k (v.at k)) t = t.setWords d ws ∧ ws.length = (t.words d).length) ∧
      (∀ k, k < 4 → (ks.foldl (fun t k => t.setWord d i k (v.at k)) t).word d i k = if k ∈ ks then v.at k else t.word d i k) ∧
      (∀ d' i' k, k < 4 → ¬ (d' = d ∧ i' = i) → (ks.foldl (fun t k => t.setWord d i k (v.at k)) t).word d' i' k = t.word d' i' k) := by
    intro ks
    induction ks with
    | nil => intro t _ _; exact ⟨⟨t.words d, by cases d <;> rfl, rfl⟩, by simp, by simp⟩
    | cons x ks ih =>
      intro t hk ht
      obtain ⟨⟨ws, h1, h1'⟩, h2, h3⟩ := ih (t.setWord d i x (v.at x)) (fun k h => hk k (List.mem_cons_of_mem _ h)) (by rw [State.length_words_setWord]; exact ht)
      have hx := hk x (List.mem_cons_self ..)
      refine ⟨⟨ws, ?_, ?_⟩, ?_, ?_⟩
      · simp only [List.foldl_cons, h1]; cases d <;> rfl
      · rw [h1']; simp
      · intro k hk'
        simp only [List.foldl_cons, h2 k hk', List.mem_cons]
        by_cases hkx : k = x
        · subst hkx
          have := State.word_setWord_same t d i k (v.at k) (by omega)
          simp [this]
        · have := State.word_setWord_ne t d d i i x k (v.at x) hx hk' (by simp [hkx])
          simp [hkx, this]
      · intro d' i' k hk' hn
        simp only [List.foldl_cons]
        rw [h3 d' i' k hk' hn]
        exact State.word_setWord_ne _ _ _ _ _ _ _ _ hx hk' (fun e => hn ⟨e.1, e.2.1⟩)
  obtain ⟨⟨ws, h1, h1'⟩, h2, h3⟩ := hf ([0,1,2,3].filter (fun k => k != s.params.ownWord d)) s (by intro k hk; simp at hk; omega) rfl
  have hlen : 4 * i + s.params.ownWord d < (((([0,1,2,3].filter (fun k => k != s.params.ownWord d)).foldl (fun t k => t.setWord d i k (v.at k)) s)).words d).length := by
    rw [h1, State.words_setWords_same, h1', hl]; omega
  refine ⟨?_, ?_, ?_, ?_⟩
  · refine ⟨ws.set (4 * i + s.params.ownWord d) (s.params.releasedWord d v), ?_, by simp [h1']⟩
    simp only [State.writeBack, h1]; cases d <;> rfl
  · intro k hk hne
    simp only [State.writeBack]
    rw [State.word_setWord_ne _ _ _ _ _ _ _ _ ho hk (by simp [hne]), h2 k hk]
    have : k ∈ [0,1,2,3].filter (fun k => k != s.params.ownWord d) := by simp [hne]; omega
    simp [this]
  · simp only [State.writeBack]
    exact State.word_setWord_same _ _ _ _ _ hlen
  · intro d' i' k hk hn
    simp only [State.writeBack]
    rw [State.word_setWord_ne _ _ _ _ _ _ _ _ ho hk (fun e => hn ⟨e.1, e.2.1⟩)]
    exact h3 d' i' k hk hn

end Sys2Proof.Machine
end

