-- ==== Sys2Proof/Laws/Memory.lean ====
section
/-! SUPPORT. The laws of buffer memory: read after write, and that every write keeps the canonical form. -/

namespace Sys2Proof.Machine

/-- The byte just written is read back. -/
@[simp] theorem Memory.read_write_same (m : Memory) (a : Nat) (b : BitVec 8) : (m.write a b).read a = some b := by
  induction m with
  | nil => simp [Memory.write, Memory.read]
  | cons c m ih =>
    obtain ⟨k, v⟩ := c
    simp only [Memory.write]
    split
    · simp [Memory.read]
    · split
      · simp [Memory.read]
      · next h2 => simp [Memory.read, h2, ih]

/-- A write leaves every other byte alone. -/
theorem Memory.read_write_ne (m : Memory) (a a' : Nat) (b : BitVec 8) (h : a' ≠ a) :
    (m.write a b).read a' = m.read a' := by
  induction m with
  | nil => simp [Memory.write, Memory.read, h]
  | cons c m ih =>
    obtain ⟨k, v⟩ := c
    simp only [Memory.write]
    split
    · simp [Memory.read, h]
    · split
      · next h2 => subst h2; simp [Memory.read, h]
      · simp only [Memory.read, ih]

/-- A write at or above the lower bound keeps the rising order. -/
theorem Memory.risesFrom_write (m : Memory) (low a : Nat) (b : BitVec 8) (hm : Memory.risesFrom low m = true)
    (hl : low ≤ a) (ha : a < 2 ^ 32) : Memory.risesFrom low (m.write a b) = true := by
  induction m generalizing low with
  | nil => simp only [Memory.write, Memory.risesFrom, Bool.and_true, Bool.and_eq_true, decide_eq_true_eq]; exact ⟨hl, ha⟩
  | cons c m ih =>
    obtain ⟨k, v⟩ := c
    simp only [Memory.risesFrom, Bool.and_eq_true, decide_eq_true_eq] at hm
    obtain ⟨⟨h1, h2⟩, h3⟩ := hm
    simp only [Memory.write]
    split
    · next hlt =>
      simp only [Memory.risesFrom, Bool.and_eq_true, decide_eq_true_eq]
      exact ⟨⟨hl, ha⟩, ⟨by omega, h2⟩, h3⟩
    · split
      · next _ heq =>
        subst heq
        simp only [Memory.risesFrom, Bool.and_eq_true, decide_eq_true_eq]
        exact ⟨⟨hl, ha⟩, h3⟩
      · simp only [Memory.risesFrom, Bool.and_eq_true, decide_eq_true_eq]
        exact ⟨⟨h1, h2⟩, ih (k + 1) h3 (by omega)⟩

/-- Every write inside the address space keeps the canonical form. -/
theorem Memory.wf_write (m : Memory) (a : Nat) (b : BitVec 8) (hm : m.wf = true) (ha : a < 2 ^ 32) :
    (m.write a b).wf = true :=
  m.risesFrom_write 0 a b hm (Nat.zero_le a) ha

/-- An address that is written is listed, and so is every address listed before. -/
theorem Memory.mem_write (m : Memory) (a : Nat) (b : BitVec 8) (c : Host.Cell) (h : c ∈ m.write a b) :
    c = (a, b) ∨ c ∈ m := by
  induction m with
  | nil => simpa [Memory.write] using h
  | cons x m ih =>
    obtain ⟨k, v⟩ := x
    simp only [Memory.write] at h
    split at h
    · simpa using h
    · split at h
      · rcases List.mem_cons.mp h with h | h
        · exact .inl h
        · exact .inr (List.mem_cons_of_mem _ h)
      · rcases List.mem_cons.mp h with h | h
        · exact .inr (h ▸ List.mem_cons_self ..)
        · exact (ih h).imp id (List.mem_cons_of_mem _)

end Sys2Proof.Machine
end

