-- ==== Sys2Proof/Laws/Bytes.lean ====
section
/-! SUPPORT. The byte view of shared memory: what a write of a word or of a byte does to every byte, runs of bytes, and
that the buffers of a well-formed instance lie outside the descriptor arrays (spec/20_memory.md rules R81, R82; R311).
-/

namespace Sys2Proof

/-- Addresses of one buffer are different as long as they do not wrap. -/
theorem addrAt_inj (base : Word) (i j : Nat) (hi : i < 2 ^ 32) (hj : j < 2 ^ 32) (h : addrAt base i = addrAt base j) :
    i = j := by
  simp only [addrAt] at h
  omega

/-- A test on all pairs holds of any two places. -/
theorem allPairs_getElem {α : Type} (r : α → α → Bool) : ∀ l : List α, allPairs r l = true → ∀ (i j : Nat) (x y : α),
    i < j → l[i]? = some x → l[j]? = some y → r x y = true := by
  intro l
  induction l with
  | nil => intro _ i j x y _ hi; simp at hi
  | cons z zs ih =>
    intro h i j x y hij hi hj
    simp only [allPairs, Bool.and_eq_true, List.all_eq_true] at h
    cases j with
    | zero => omega
    | succ j =>
      simp only [List.getElem?_cons_succ] at hj
      cases i with
      | zero =>
        simp only [List.getElem?_cons_zero, Option.some.injEq] at hi
        subst hi
        exact h.1 _ (List.mem_of_getElem? hj)
      | succ i =>
        simp only [List.getElem?_cons_succ] at hi
        exact ih h.2 i j x y (by omega) hi hj

/-- A byte of a range that keeps clear of both descriptor arrays is no byte of a descriptor. -/
theorem Params.descriptorByte_apart (p : Params) (h : p.wf = true) (n : Nat) (r : Word × Nat)
    (hn : p.ranges[n + 2]? = some (r.1.toNat, r.2)) (k : Nat) (hk : k < r.2) : p.descriptorByte (addrAt r.1 k) = none := by
  simp only [Params.wf_tests, Bool.and_eq_true] at h
  obtain ⟨⟨_, hall⟩, hpairs⟩ := h
  have r0 := allPairs_getElem _ _ hpairs 0 (n + 2) _ _ (by omega) rfl hn
  have r1 := allPairs_getElem _ _ hpairs 1 (n + 2) _ _ (by omega) rfl hn
  have hin := List.all_eq_true.mp hall _ (List.mem_of_getElem? hn)
  simp only [decide_eq_true_eq] at hin
  simp only [rangesApart, Bool.or_eq_true, decide_eq_true_eq] at r0 r1
  have ha : addrAt r.1 k = r.1.toNat + k := Nat.mod_eq_of_lt (by omega)
  generalize addrAt r.1 k = a at ha
  subst ha
  simp only [Params.descriptorByte]
  rw [if_neg (by omega), if_neg (by omega)]

/-- A receive slot's buffer lies outside the descriptor arrays (R311). -/
theorem Params.rxBuf_apart (p : Params) (h : p.wf = true) (i k : Nat) (hi : i < p.nRx) (hk : k < p.rxBufSize) :
    p.descriptorByte (addrAt (p.rxBuf i) k) = none := by
  refine p.descriptorByte_apart h i (p.rxBuf i, p.rxBufSize) ?_ k hk
  simp only [Params.wf_tests, Bool.and_eq_true, beq_iff_eq] at h
  have hl : p.rxBufAddr.length = p.nRx := by tauto
  have hi' : i < p.rxBufAddr.length := by omega
  simp only [Params.ranges, List.getElem?_cons_succ]
  rw [List.getElem?_append_left (by simpa using hi')]
  simp [Params.rxBuf, hi']

/-- A transmit slot's buffer lies outside the descriptor arrays (R311). -/
theorem Params.txBuf_apart (p : Params) (h : p.wf = true) (j k : Nat) (hj : j < p.nTx) (hk : k < p.txBufSize) :
    p.descriptorByte (addrAt (p.txBuf j) k) = none := by
  refine p.descriptorByte_apart h (p.rxBufAddr.length + j) (p.txBuf j, p.txBufSize) ?_ k hk
  simp only [Params.wf_tests, Bool.and_eq_true, beq_iff_eq] at h
  have hl : p.txBufAddr.length = p.nTx := by tauto
  have hj' : j < p.txBufAddr.length := by omega
  simp only [Params.ranges, List.getElem?_cons_succ]
  rw [List.getElem?_append_right (by simp)]
  simp [Params.txBuf, hj']

namespace Machine

/-! ### Writes, seen byte by byte -/

/-- A word written changes no byte outside it. -/
theorem State.byteAt_setWord (s : State) (d : Dir) (i k : Nat) (v : Word) (a : Nat)
    (ha : ∀ b, s.params.descriptorByte a ≠ some (d, 4 * i + k, b)) : (s.setWord d i k v).byteAt a = s.byteAt a := by
  simp only [State.byteAt, State.setWord_params]
  split
  · next d' n b h =>
    by_cases hd : d' = d
    · subst hd
      have hn : n ≠ 4 * i + k := by rintro rfl; exact ha b h
      cases d' <;> simp [State.setWord, State.setWords, State.words, List.getD_eq_getElem?_getD, Ne.symm hn]
    · cases d <;> cases d' <;> simp_all [State.setWord, State.setWords, State.words]
  · simp

/-- Bytes written outside the descriptor arrays: buffer memory alone changes, each byte reads as the one written, every
other byte as before. -/
theorem State.putBytes_apart (bs : List Byte) (base : Word) : ∀ (n : Nat) (s : State),
    (∀ k, k < bs.length → s.params.descriptorByte (addrAt base (n + k)) = none) → n + bs.length ≤ 2 ^ 32 →
    ∃ m, s.putBytes base n bs = { s with mem := m } ∧
      (∀ k, k < bs.length → State.byteAt { s with mem := m } (addrAt base (n + k)) = bs[k]?) ∧
      ∀ a, (∀ k, k < bs.length → a ≠ addrAt base (n + k)) → State.byteAt { s with mem := m } a = s.byteAt a := by
  induction bs with
  | nil => intro n s _ _; exact ⟨s.mem, rfl, fun k hk => absurd hk (by simp), fun _ _ => rfl⟩
  | cons b bs ih =>
    intro n s hd hl
    simp only [List.length_cons] at hd hl
    have hd0 : s.params.descriptorByte (addrAt base n) = none := hd 0 (by omega)
    let u : State := { s with mem := s.mem.write (addrAt base n) b }
    have hput : s.putByte (addrAt base n) b = u := by simp only [State.putByte, hd0, u]
    have husame : u.byteAt (addrAt base n) = some b := by
      simp only [State.byteAt, u, hd0]; exact Memory.read_write_same _ _ _
    have hune : ∀ a, a ≠ addrAt base n → u.byteAt a = s.byteAt a := by
      intro a ha
      simp only [State.byteAt, u]
      split
      · next d _ _ _ => cases d <;> rfl
      · exact Memory.read_write_ne _ _ _ _ ha
    obtain ⟨m, e, h1, h2⟩ := ih (n + 1) u
      (fun k hk => by have := hd (k + 1) (by omega); rwa [show n + (k + 1) = n + 1 + k by omega] at this) (by omega)
    refine ⟨m, ?_, ?_, ?_⟩
    · simp only [State.putBytes, hput]; exact e
    · intro k hk
      cases k with
      | zero =>
        refine (h2 _ fun k hk' e => ?_).trans husame
        have := addrAt_inj base n (n + 1 + k) (by omega) (by omega) e
        omega
      | succ k =>
        have := h1 k (by simpa using hk)
        rw [show n + (k + 1) = n + 1 + k by omega]
        simpa using this
    · intro a ha
      refine (h2 a fun k hk e => ha (k + 1) (by simpa using hk) (by rw [e]; congr 1; omega)).trans (hune a ?_)
      exact ha 0 (by simp)

/-! ### Reads of runs of bytes -/

@[simp] theorem length_readCells (look : Nat → Option Byte) (base : Word) (n : Nat) : ∀ i c : Nat,
    (readCells look base n i c).1.length = n := by
  induction n with
  | zero => exact fun _ _ => rfl
  | succ n ih => intro i c; simp [readCells, ih]

/-- A byte that has a value is read as it is. -/
theorem readCells_get (look : Nat → Option Byte) (base : Word) (b : Byte) (n : Nat) : ∀ (i c k : Nat), k < n →
    look (addrAt base (i + k)) = some b → (readCells look base n i c).1[k]? = some b := by
  induction n with
  | zero => exact fun _ _ _ hk => absurd hk (by omega)
  | succ n ih =>
    intro i c k hk hb
    cases k with
    | zero => rw [Nat.add_zero] at hb; simp [readCells, readCell, hb]
    | succ k =>
      simp only [readCells, List.getElem?_cons_succ]
      exact ih (i + 1) _ k (by omega) (by rwa [show i + 1 + k = i + (k + 1) by omega])

@[simp] theorem State.length_fetchBytes (s : State) (look : Nat → Option Byte) (base : Word) (n : Nat) :
    (s.fetchBytes look base n).1.length = n := length_readCells look base n 0 s.draws

/-- A byte that has a value is read as it is. -/
theorem State.fetchBytes_get (s : State) (look : Nat → Option Byte) (base : Word) (n k : Nat) (b : Byte) (hk : k < n)
    (hb : look (addrAt base k) = some b) : (s.fetchBytes look base n).1[k]? = some b :=
  readCells_get look base b n 0 s.draws k hk (by rwa [Nat.zero_add])

/-- A read moves nothing but the draw counter. -/
theorem State.fetchBytes_rest (s : State) (look : Nat → Option Byte) (base : Word) (n : Nat) :
    ∃ c, (s.fetchBytes look base n).2 = { s with draws := c } := ⟨_, rfl⟩

/-- As many bytes are read as were asked for, whatever the schedule. -/
@[simp] theorem length_readBytes (base : Word) (n : Nat) : ∀ (i : Nat) (s : State),
    (readBytes base n i s).1.length = n := by
  induction n with
  | zero => exact fun _ _ => rfl
  | succ n ih => intro i s; simp [readBytes, ih]

@[simp] theorem length_memRead (base : Word) (n : Nat) (s : State) : (memRead base n s).1.length = n :=
  length_readBytes base n 0 s

/-- Byte reads with no other agent between them read one state. -/
theorem readBytes_quiet (base : Word) (n : Nat) : ∀ (i : Nat) (s : State), s.Quiet → readBytes base n i s =
    ((readCells s.swByte base n i s.draws).1, { s with draws := (readCells s.swByte base n i s.draws).2 }) := by
  induction n with
  | zero => exact fun _ _ _ => rfl
  | succ n ih =>
    intro i s h
    simp only [readBytes, swReadByte_quiet s h]
    rw [ih (i + 1) (s.fetchByte (s.swByte (addrAt base i))).2 h]
    rfl

/-- MemRead, when no other agent steps inside it: the bytes as SW sees them in one state (R66, R207). -/
theorem memRead_quiet (s : State) (h : s.Quiet) (base : Word) (n : Nat) :
    memRead base n s = s.fetchBytes s.swByte base n := readBytes_quiet base n 0 s h

/-! ### Runs of pending bytes -/

/-- The write-buffer entries of a run of bytes, from place `i` of a buffer on: what MemWrite appends when no other agent
steps inside it (`memWrite_quiet`; spec/00_scope.md rule R11, spec/20_memory.md rule R67). -/
def byteEntries (base : Word) : Nat → List Byte → List WbEntry
  | _, [] => []
  | i, b :: bs => .byte (addrAt base i) b :: byteEntries base (i + 1) bs

theorem byteEntries_not_word (base : Word) (bs : List Byte) : ∀ (i : Nat), ∀ e ∈ byteEntries base i bs,
    ∀ d' i' k' v, e ≠ .word d' i' k' v := by
  induction bs with
  | nil => intro i e he; exact absurd he (by simp [byteEntries])
  | cons b bs ih =>
    intro i e he
    rcases List.mem_cons.mp he with rfl | he
    · intro _ _ _ _ h; cases h
    · exact ih (i + 1) e he

/-- Byte writes with no other agent between them append their entries in order. -/
theorem writeBytes_quiet (base : Word) (bs : List Byte) : ∀ (i : Nat) (s : State), s.Quiet →
    writeBytes base i bs s = { s with wb := s.wb ++ byteEntries base i bs } := by
  induction bs with
  | nil => intro i s _; simp [writeBytes, byteEntries]
  | cons b bs ih =>
    intro i s h
    simp only [writeBytes, swWriteByte_quiet s h]
    rw [ih (i + 1) { s with wb := s.wb ++ [.byte (addrAt base i) b] } h]
    simp [byteEntries]

/-- MemWrite, when no other agent steps inside it (R67). -/
theorem memWrite_quiet (s : State) (h : s.Quiet) (base : Word) (bs : List Byte) :
    memWrite base bs s = { s with wb := s.wb ++ byteEntries base 0 bs } := writeBytes_quiet base bs 0 s h

/-- Buffer bytes drained are the bytes put into memory. -/
theorem State.applyAll_byteEntries (base : Word) (bs : List Byte) : ∀ (i : Nat) (s : State),
    s.applyAll (byteEntries base i bs) = s.putBytes base i bs := by
  induction bs with
  | nil => intro i s; rfl
  | cons b bs ih => intro i s; simp only [byteEntries, State.applyAll, WbEntry.apply, State.putBytes, ih]

end Machine

end Sys2Proof
end

