-- ==== Sys2Proof/Laws/Descriptors.lean ====
section
/-! SUPPORT. What the operations on one descriptor do when no other agent steps inside them: one closed form each
(spec/42_rx_descriptor.md, spec/43_tx_descriptor.md). -/

namespace Sys2Proof.Machine

/-! ### Updates away from shared memory -/

theorem AwayFromMemory.setRxMeta (i : Nat) (m : RxMeta) : AwayFromMemory (fun s => s.setRxMeta i m) :=
  ⟨fun _ => rfl, fun _ _ _ _ _ => rfl⟩

theorem AwayFromMemory.setTxMeta (j : Nat) (m : TxMeta) : AwayFromMemory (fun s => s.setTxMeta j m) :=
  ⟨fun _ => rfl, fun _ _ _ _ _ => rfl⟩

@[simp] theorem State.flush_setRxMeta (s : State) (i : Nat) (m : RxMeta) :
    (s.setRxMeta i m).flush = s.flush.setRxMeta i m := (AwayFromMemory.setRxMeta i m).flush s

@[simp] theorem State.flush_setTxMeta (s : State) (j : Nat) (m : TxMeta) :
    (s.setTxMeta j m).flush = s.flush.setTxMeta j m := (AwayFromMemory.setTxMeta j m).flush s

/-! ### Receive -/

/-- What SW sees of a word after it has written a word: the new value there, the old view elsewhere (R66). -/
theorem State.swWord_write (s : State) (d d' : Dir) (i i' k k' : Nat) (v : Word) :
    State.swWord { s with wb := s.wb ++ [.word d i k v] } d' i' k' =
      if d = d' ∧ i = i' ∧ k = k' then v else s.swWord d' i' k' := by
  simp only [State.swWord, pendingWord_append]
  split <;> rfl

/-- RXD.SETUP: pending writes reach MEM, then the buffer address and the OWN word (R161). -/
theorem rxSetup_quiet (s : State) (hq : s.Quiet) (hp : s.params.wf = true) (hs : s.Sized) (i : Nat)
    (hi : i < s.params.nRx) (buf : Word) :
    rxSetup i buf s = .done ()
      { ((s.flush.setWord .rx i s.params.rxLayout.buf1ap.word buf).setWord .rx i (s.params.ownWord .rx)
          (s.params.rxSetupWord (s.swOwnWord .rx i) ||| s.params.handoverMask .rx)).setRxMeta i ⟨none, none⟩
        with handover := none } := by
  obtain ⟨_, hne⟩ := s.params.wf_rxRead hp
  let c := s.setRxMeta i ⟨none, none⟩
  have hqc : c.Quiet := hq
  let a : State := { c with wb := c.wb ++ [.word .rx i s.params.rxLayout.buf1ap.word buf] }
  have hqa : a.Quiet := hq
  have e1 : swModify .rx i s.params.rxLayout.buf1ap.word (fun _ => buf) c = a := swModify_quiet c hqc _ _ _ _
  have e2 := swModify_quiet a hqa .rx i (s.params.ownWord .rx) s.params.rxSetupWord
  have ew : a.swWord .rx i (s.params.ownWord .rx) = s.swOwnWord .rx i := by
    refine (State.swWord_write c .rx .rx i i _ _ buf).trans ?_
    rw [if_neg (fun h => hne h.2.2)]
    rfl
  rw [ew] at e2
  let m : State := { a with wb := a.wb ++ [.word .rx i (s.params.ownWord .rx) (s.params.rxSetupWord (s.swOwnWord .rx i))] }
  have hqm : m.Quiet := hq
  have hsm : m.Sized := ⟨hs.rxWords, hs.txWords, by simpa [m, a, c] using hs.rxMeta, hs.txMeta⟩
  have e3 := ownTransfer_quiet m hqm hp hsm .rx i hi
  have f1 : m.flush = ((s.flush.setWord .rx i s.params.rxLayout.buf1ap.word buf).setWord .rx i (s.params.ownWord .rx)
      (s.params.rxSetupWord (s.swOwnWord .rx i))).setRxMeta i ⟨none, none⟩ := by
    have g1 := State.flush_append_word a .rx i (s.params.ownWord .rx) (s.params.rxSetupWord (s.swOwnWord .rx i))
    have g2 := State.flush_append_word c .rx i s.params.rxLayout.buf1ap.word buf
    refine g1.trans ?_
    rw [g2]
    simp only [c, State.flush_setRxMeta]
    rfl
  have f2 : m.swWord .rx i (s.params.ownWord .rx) = s.params.rxSetupWord (s.swOwnWord .rx i) :=
    State.swWord_write_same a a.wb .rx i _ _
  have hmp : m.params = s.params := rfl
  rw [hmp, f1, f2] at e3
  simp only [rxSetup]
  refine Eq.trans (congrArg (ownTransfer .rx i) ?_) (e3.trans ?_)
  · exact (congrArg _ e1).trans e2
  · simp only [State.setRxMeta, State.setWord, State.setWords, State.words, List.set_set]

theorem rxCacheTs_quiet (s : State) (hq : s.Quiet) (i : Nat) (w : Word) (hld : s.params.rxLayout.ld.isSet w = true) :
    rxCacheTs i w s = (s.rxTimestamp i, s) := by
  simp only [rxCacheTs, State.rxTimestamp, hld, swRead_quiet s hq]
  cases s.params.timestamping <;> cases s.params.hasTsValid <;>
    cases s.params.rxLayout.tsv.isSet (s.swWord .rx i s.params.rxLayout.tsv.word) <;> simp [swRead_quiet s hq]

/-- RXD.TAKE_RECEIVED, up to the re-arm of a dropped slot (R162). -/
theorem takeReceived_quiet (s : State) (hq : s.Quiet) (i : Nat) (p : Option PacketId) (fb : Word) :
    takeReceived i p fb s =
      if s.swOwned .rx i then .done (.error .wouldBlock) s
      else if s.params.rxWholeFrame (s.swOwnWord .rx i) then
        .done (.ok ()) (s.setRxMeta i ⟨p, s.rxTimestamp i⟩)
      else (rxSetup i fb s).andThen fun _ t => .done (.error .truncated) t := by
  simp only [takeReceived, isOwned_quiet s hq, fenceRr_quiet s hq, swRead_quiet s hq, State.swOwned, State.swOwnWord]
  by_cases ho : s.params.ownedByHw .rx (s.swWord .rx i (s.params.ownWord .rx)) = true
  · simp only [ho, if_true]
  · by_cases h : s.params.rxWholeFrame (s.swWord .rx i (s.params.ownWord .rx)) = true
    · have hld : s.params.rxLayout.ld.isSet (s.swWord .rx i (s.params.ownWord .rx)) = true := by
        simp only [Params.rxWholeFrame, Bool.and_eq_true] at h
        exact h.1.1.2
      simp only [ho, h, if_true, rxCacheTs_quiet s hq i _ hld]
    · simp only [ho, h]
      rfl

/-! ### Transmit -/

/-- TXD.SEND past its length test: pending writes reach MEM, then pointer, length and OWN word (R181). The length word
may be the OWN word in a layout of the instance's own; what the OWN word starts from is then the word with the new
length. -/
theorem txSend_quiet (s : State) (hq : s.Quiet) (hp : s.params.wf = true) (hs : s.Sized) (j : Nat)
    (hj : j < s.params.nTx) (ptr len : Word) (p : Option PacketId) :
    let l := s.params.txLayout
    let sized := l.b1l.put (s.swWord .tx j l.b1l.word) len
    let start := if l.b1l.word = s.params.ownWord .tx then sized else s.swOwnWord .tx j
    txSend j ptr len p s = .done ()
      { (((s.flush.setWord .tx j l.buf1ap.word ptr).setWord .tx j l.b1l.word sized).setWord .tx j (s.params.ownWord .tx)
          (s.params.txSendWord start ||| s.params.handoverMask .tx)).setTxMeta j ⟨p, none, s.busy j⟩
        with handover := none } := by
  intro l sized start
  obtain ⟨_, _, hne, hne'⟩ := s.params.wf_txRead hp
  let c := s.setTxMeta j ⟨p, none, s.busy j⟩
  have hqc : c.Quiet := hq
  let a : State := { c with wb := c.wb ++ [.word .tx j l.buf1ap.word ptr] }
  have hqa : a.Quiet := hq
  have e1 : swModify .tx j l.buf1ap.word (fun _ => ptr) c = a := swModify_quiet c hqc _ _ _ _
  have e2 := swModify_quiet a hqa .tx j l.b1l.word (fun w => l.b1l.put w len)
  have ew : a.swWord .tx j l.b1l.word = s.swWord .tx j l.b1l.word := by
    refine (State.swWord_write c .tx .tx j j _ _ ptr).trans ?_
    rw [if_neg (fun h => hne' h.2.2.symm)]
    rfl
  rw [ew] at e2
  let b : State := { a with wb := a.wb ++ [.word .tx j l.b1l.word sized] }
  have hqb : b.Quiet := hq
  have e3 := swModify_quiet b hqb .tx j (s.params.ownWord .tx) s.params.txSendWord
  have ew2 : b.swWord .tx j (s.params.ownWord .tx) = start := by
    refine (State.swWord_write a .tx .tx j j _ _ sized).trans ?_
    by_cases hb : l.b1l.word = s.params.ownWord .tx
    · simp [start, hb]
    · rw [if_neg (fun h => hb h.2.2)]
      refine (State.swWord_write c .tx .tx j j _ _ ptr).trans ?_
      rw [if_neg (fun h => hne h.2.2)]
      simp only [start, hb, if_false]
      rfl
  rw [ew2] at e3
  let m : State := { b with wb := b.wb ++ [.word .tx j (s.params.ownWord .tx) (s.params.txSendWord start)] }
  have hqm : m.Quiet := hq
  have hsm : m.Sized := ⟨hs.rxWords, hs.txWords, hs.rxMeta, by simpa [m, b, a, c] using hs.txMeta⟩
  have e4 := ownTransfer_quiet m hqm hp hsm .tx j hj
  have f1 : m.flush = (((s.flush.setWord .tx j l.buf1ap.word ptr).setWord .tx j l.b1l.word sized).setWord .tx j
      (s.params.ownWord .tx) (s.params.txSendWord start)).setTxMeta j ⟨p, none, s.busy j⟩ := by
    have g1 := State.flush_append_word b .tx j (s.params.ownWord .tx) (s.params.txSendWord start)
    have g2 := State.flush_append_word a .tx j l.b1l.word sized
    have g3 := State.flush_append_word c .tx j l.buf1ap.word ptr
    refine g1.trans ?_
    rw [g2, g3]
    simp only [c, State.flush_setTxMeta]
    rfl
  have f2 : m.swWord .tx j (s.params.ownWord .tx) = s.params.txSendWord start :=
    State.swWord_write_same b b.wb .tx j _ _
  have hmp : m.params = s.params := rfl
  rw [hmp, f1, f2] at e4
  simp only [txSend]
  refine Eq.trans (congrArg (ownTransfer .tx j) ?_) (e4.trans ?_)
  · refine Eq.trans (congrArg _ (congrArg _ e1)) ?_
    exact (congrArg _ e2).trans e3
  · simp only [State.setTxMeta, State.setWord, State.setWords, State.words, List.set_set]

theorem txCacheTs_quiet (s : State) (hq : s.Quiet) (j : Nat) :
    txCacheTs j (s.swOwnWord .tx j) s = (s.txTimestamp j, s) := by
  simp only [txCacheTs, txTsValid, State.txTimestamp, State.swOwnWord, swRead_quiet s hq]
  have hw : s.params.ownWord .tx = s.params.txLayout.own.word := rfl
  rw [hw]
  by_cases he : s.params.txLayout.tsv.word = s.params.txLayout.own.word
  · simp only [he]
    cases s.params.timestamping <;> cases s.params.hasTsValid <;>
      cases s.params.txLayout.ld.isSet (s.swWord .tx j s.params.txLayout.own.word) <;>
      cases s.params.txLayout.tsv.isSet (s.swWord .tx j s.params.txLayout.own.word) <;> simp [swRead_quiet s hq]
  · simp only [he]
    cases s.params.timestamping <;> cases s.params.hasTsValid <;>
      cases s.params.txLayout.ld.isSet (s.swWord .tx j s.params.txLayout.own.word) <;>
      cases s.params.txLayout.tsv.isSet (s.swWord .tx j s.params.txLayout.tsv.word) <;> simp [swRead_quiet s hq]

/-- The metadata of a transmit slot after it has been replaced. -/
theorem State.txMetaAt_setTxMeta (s : State) (j i : Nat) (m : TxMeta) (hj : j < s.txMeta.length) :
    (s.setTxMeta j m).txMetaAt i = if i = j then m else s.txMetaAt i := by
  simp only [State.txMetaAt, State.setTxMeta, List.getD_eq_getElem?_getD, List.getElem?_set]
  by_cases h : i = j
  · subst h; simp [hj]
  · simp [h, Ne.symm h]

/-- The metadata of a receive slot after it has been replaced. -/
theorem State.rxMetaAt_setRxMeta (s : State) (j i : Nat) (m : RxMeta) (hj : j < s.rxMeta.length) :
    (s.setRxMeta j m).rxMetaAt i = if i = j then m else s.rxMetaAt i := by
  simp only [State.rxMetaAt, State.setRxMeta, List.getD_eq_getElem?_getD, List.getElem?_set]
  by_cases h : i = j
  · subst h; simp [hj]
  · simp [h, Ne.symm h]

/-- TXD.TAKE_COMPLETED (R182 to R184). -/
theorem takeCompleted_quiet (s : State) (hq : s.Quiet) (j : Nat) (hj : j < s.txMeta.length) (q : Option PacketId) :
    takeCompleted j q s =
      if s.swOwned .tx j then (.error .wouldBlock, s)
      else if s.params.txError (s.swOwnWord .tx j) then
        (.error .errorSummary, s.setTxMeta j ⟨none, none, s.busy j⟩)
      else (.ok (if (s.txMetaAt j).pid = q then s.txTimestamp j else none),
        s.setTxMeta j ⟨none, s.txTimestamp j, s.busy j⟩) := by
  simp only [takeCompleted, isOwned_quiet s hq, fenceRr_quiet s hq, swRead_quiet s hq, State.swOwned, State.swOwnWord]
  by_cases ho : s.params.ownedByHw .tx (s.swWord .tx j (s.params.ownWord .tx)) = true
  · simp only [ho, if_true]
  · simp only [ho]
    have hset : ∀ m m', (s.setTxMeta j m).setTxMeta j m' = s.setTxMeta j m' := by
      intro m m'; simp only [State.setTxMeta, List.set_set]
    have hb : (s.txMetaAt j).busy = s.busy j := rfl
    by_cases he : s.params.txError (s.swWord .tx j (s.params.ownWord .tx)) = true
    · simp only [he, State.txMetaAt_setTxMeta s j j _ hj, if_true, hset, hb]
    · simp only [he]
      have h := txCacheTs_quiet (s.setTxMeta j ⟨none, (s.txMetaAt j).ts, (s.txMetaAt j).busy⟩) hq j
      have hw : (s.setTxMeta j ⟨none, (s.txMetaAt j).ts, (s.txMetaAt j).busy⟩).swOwnWord .tx j
        = s.swWord .tx j (s.params.ownWord .tx) := rfl
      have ht : (s.setTxMeta j ⟨none, (s.txMetaAt j).ts, (s.txMetaAt j).busy⟩).txTimestamp j = s.txTimestamp j := rfl
      rw [hw, ht] at h
      rw [h]
      simp only [State.txMetaAt_setTxMeta s j j _ hj, if_true, hset, hb]

end Sys2Proof.Machine
end

