-- ==== Sys2Proof/Laws/Shared.lean ====
section
/-! SUPPORT. What any step of another agent and any micro-step of SW can do, whatever the schedule: `SharedStep` says it
once, every shared operation has one lemma, and the invariants of the block follow from it. -/

namespace Sys2Proof.Machine

/-- A change of shared memory, the write buffer, the window, the interrupt flags, the agents' positions, the events and
the draw counter, and of nothing else; with what it keeps of the invariants. -/
structure SharedStep (s t : State) : Prop where
  soft : SameForSoftware s t
  rxLength : t.rxWords.length = s.rxWords.length
  txLength : t.txWords.length = s.txWords.length
  sound : s.WbSound → t.WbSound
  canonical : s.WbSound → s.MemoryCanonical → t.MemoryCanonical
  unbound : s.bound = false → t.ri = s.ri ∧ t.ti = s.ti

theorem SameForSoftware.refl (s : State) : SameForSoftware s s := by constructor <;> rfl

theorem SameForSoftware.trans {s t u : State} (h : SameForSoftware s t)
    (g : SameForSoftware t u) : SameForSoftware s u := by
  obtain ⟨_, _, _, _, _, _, _, _, _, _, _, _, _, _, _⟩ := h
  obtain ⟨_, _, _, _, _, _, _, _, _, _, _, _, _, _, _⟩ := g
  constructor <;> simp_all

theorem SharedStep.refl (s : State) : SharedStep s s :=
  ⟨.refl s, rfl, rfl, id, fun _ h => h, fun _ => ⟨rfl, rfl⟩⟩

theorem SharedStep.trans {s t u : State} (h : SharedStep s t) (g : SharedStep t u) : SharedStep s u where
  soft := h.soft.trans g.soft
  rxLength := g.rxLength.trans h.rxLength
  txLength := g.txLength.trans h.txLength
  sound := g.sound ∘ h.sound
  canonical := fun hw hm => g.canonical (h.sound hw) (h.canonical hw hm)
  unbound := fun hb => by
    obtain ⟨h1, h2⟩ := h.unbound hb
    obtain ⟨g1, g2⟩ := g.unbound (h.soft.bound.trans hb)
    exact ⟨g1.trans h1, g2.trans h2⟩

/-- Words of descriptors changed, their number kept. -/
theorem SharedStep.words (s : State) (r t : List Word) (hr : r.length = s.rxWords.length)
    (ht : t.length = s.txWords.length) : SharedStep s { s with rxWords := r, txWords := t } :=
  ⟨by constructor <;> rfl, hr, ht, id, fun _ h => ⟨h.wf, h.apart⟩, fun _ => ⟨rfl, rfl⟩⟩

theorem SharedStep.setWord (s : State) (d : Dir) (i k : Nat) (v : Word) : SharedStep s (s.setWord d i k v) := by
  cases d
  · exact .words s (s.rxWords.set (4 * i + k) v) s.txWords (by simp) rfl
  · exact .words s s.rxWords (s.txWords.set (4 * i + k) v) rfl (by simp)

theorem SharedStep.putByte (s : State) (a : Nat) (v : Byte) (ha : a < 2 ^ 32) : SharedStep s (s.putByte a v) := by
  simp only [State.putByte]
  split
  · next d n b _ =>
    cases d
    · exact .words s (s.rxWords.set n _) s.txWords (by simp) rfl
    · exact .words s s.rxWords (s.txWords.set n _) rfl (by simp)
  · next hd =>
    refine ⟨by constructor <;> rfl, rfl, rfl, id, fun _ h => ⟨Memory.wf_write _ _ _ h.wf ha, ?_⟩, fun _ => ⟨rfl, rfl⟩⟩
    intro c hc
    rcases Memory.mem_write _ _ _ _ hc with rfl | hc
    · exact hd
    · exact h.apart c hc

theorem addrAt_lt (base : Word) (i : Nat) : addrAt base i < 2 ^ 32 := Nat.mod_lt _ (by decide)

theorem SharedStep.putBytes (s : State) (base : Word) (i : Nat) (bs : List Byte) : SharedStep s
    (s.putBytes base i bs) := by
  induction bs generalizing s i with
  | nil => exact .refl s
  | cons b bs ih => exact (SharedStep.putByte s _ b (addrAt_lt base i)).trans (ih _ _)

/-- The draw counter moves. -/
theorem SharedStep.setDraws (s : State) (c : Nat) : SharedStep s { s with draws := c } :=
  ⟨by constructor <;> rfl, rfl, rfl, id, fun _ h => ⟨h.wf, h.apart⟩, fun _ => ⟨rfl, rfl⟩⟩

theorem SharedStep.fetchBytes (s : State) (look : Nat → Option Byte) (base : Word) (n : Nat) :
    SharedStep s (s.fetchBytes look base n).2 := .setDraws s _

/-- The write buffer loses entries. -/
theorem SharedStep.shrinkWb (s : State) (w : List WbEntry) (h : ∀ e ∈ w, e ∈ s.wb) : SharedStep s { s with wb := w } :=
  ⟨by constructor <;> rfl, rfl, rfl, fun hs e he => hs e (h e he), fun _ h => ⟨h.wf, h.apart⟩, fun _ => ⟨rfl, rfl⟩⟩

/-- SW appends entries that are sound. -/
theorem SharedStep.appendWb (s : State) (w : List WbEntry) (h : ∀ e ∈ w, e.Sound s.params) :
    SharedStep s { s with wb := s.wb ++ w } := by
  refine ⟨by constructor <;> rfl, rfl, rfl, fun hs e he => ?_, fun _ h => ⟨h.wf, h.apart⟩, fun _ => ⟨rfl, rfl⟩⟩
  rcases List.mem_append.mp he with he | he
  · exact hs e he
  · exact h e he

theorem SharedStep.setHandover (s : State) (w : Option (Dir × Nat)) : SharedStep s { s with handover := w } :=
  ⟨by constructor <;> rfl, rfl, rfl, id, fun _ h => ⟨h.wf, h.apart⟩, fun _ => ⟨rfl, rfl⟩⟩

/-- A sound entry reaches MEM; that it is sound is needed for the canonical form alone. -/
theorem WbEntry.apply_shared (e : WbEntry) (s : State) :
    (e.apply s).wb = s.wb ∧ (e.Sound s.params → SharedStep s (e.apply s)) := by
  refine ⟨?_, fun he => ?_⟩
  · obtain ⟨r, t, m, h, _, _⟩ := e.apply_rest s; rw [h]
  · cases e with
    | word d i k v => exact .setWord s d i k v
    | byte a v => exact .putByte s a v he.2
    | fence => exact .refl s

/-- Draining entries changes shared memory; the canonical form is kept where they are sound. -/
theorem State.applyAll_shared (es : List WbEntry) (s : State) :
    SameForSoftware s (s.applyAll es) ∧ (s.applyAll es).rxWords.length = s.rxWords.length ∧
    (s.applyAll es).txWords.length = s.txWords.length ∧ (s.applyAll es).wb = s.wb ∧
    (s.applyAll es).ri = s.ri ∧ (s.applyAll es).ti = s.ti ∧
    ((∀ e ∈ es, e.Sound s.params) → s.MemoryCanonical → (s.applyAll es).MemoryCanonical) := by
  induction es generalizing s with
  | nil => exact ⟨.refl s, rfl, rfl, rfl, rfl, rfl, fun _ h => h⟩
  | cons e es ih =>
    obtain ⟨r, t, m, h, hr, ht⟩ := e.apply_rest s
    obtain ⟨i1, i2, i3, i4, i5, i6, i7⟩ := ih (e.apply s)
    have hsoft : SameForSoftware s (e.apply s) := by rw [h]; constructor <;> rfl
    refine ⟨hsoft.trans i1, ?_, ?_, ?_, ?_, ?_, fun hs hm => ?_⟩
    · exact i2.trans (by rw [h]; exact hr)
    · exact i3.trans (by rw [h]; exact ht)
    · exact i4.trans (by rw [h])
    · exact i5.trans (by rw [h])
    · exact i6.trans (by rw [h])
    · refine i7 (fun f hf => ?_) ?_
      · rw [hsoft.params]; exact hs f (List.mem_cons_of_mem _ hf)
      · have he := hs e (List.mem_cons_self ..)
        cases e with
        | word d i k v => exact ⟨by cases d <;> exact hm.wf, by cases d <;> exact hm.apart⟩
        | byte a v =>
          simp only [WbEntry.apply, State.putByte]
          split
          · next d n b _ => exact ⟨by cases d <;> exact hm.wf, by cases d <;> exact hm.apart⟩
          · next hd =>
            refine ⟨Memory.wf_write _ _ _ hm.wf he.2, fun c hc => ?_⟩
            rcases Memory.mem_write _ _ _ _ hc with rfl | hc
            · exact hd
            · exact hm.apart c hc
        | fence => exact hm

theorem SharedStep.flush (s : State) : SharedStep s s.flush := by
  obtain ⟨h1, h2, h3, _, h5, h6, h7⟩ := State.applyAll_shared s.wb s
  refine ⟨?_, h2, h3, fun _ e he => absurd he (by simp), fun hs hm => ?_, fun _ => ⟨h5, h6⟩⟩
  · obtain ⟨_, _, _, _, _, _, _, _, _, _, _, _, _, _, _⟩ := h1; constructor <;> assumption
  · exact ⟨(h7 hs hm).wf, (h7 hs hm).apart⟩

/-! ### The steps of the other agents -/

theorem SharedStep.drain (s : State) (n : Nat) : SharedStep s (s.drain n) := by
  simp only [State.drain]
  split
  · next rest hw => exact .shrinkWb s rest (fun e he => hw ▸ List.mem_cons_of_mem _ he)
  · split
    · next e he =>
      split
      · have hmem : e ∈ s.wb := List.mem_of_getElem? he
        obtain ⟨r, t, m, h, hr, ht⟩ := e.apply_rest { s with wb := s.wb.eraseIdx n }
        have hsub : SharedStep s { s with wb := s.wb.eraseIdx n } :=
          .shrinkWb s _ (fun f hf => List.mem_of_mem_eraseIdx hf)
        refine ⟨by rw [h]; constructor <;> rfl, by rw [h]; exact hr, by rw [h]; exact ht, ?_, ?_,
          by rw [h]; exact fun _ => ⟨rfl, rfl⟩⟩
        · intro hs; rw [h]; exact hsub.sound hs
        · intro hs hm
          have hse : e.Sound s.params := hs e hmem
          exact ((e.apply_shared { s with wb := s.wb.eraseIdx n }).2 hse).canonical (hsub.sound hs) (hsub.canonical hs hm)
      · exact .refl s
    · exact .refl s

theorem SharedStep.writeBack (s : State) (d : Dir) (i : Nat) (v : Words4) : SharedStep s (s.writeBack d i v) := by
  have hfold : ∀ (ks : List Nat) (t : State),
      SharedStep t (ks.foldl (fun t k => t.setWord d i k (v.at k)) t) := by
    intro ks
    induction ks with
    | nil => exact fun t => .refl t
    | cons k ks ih => exact fun t => (SharedStep.setWord t d i k _).trans (ih _)
  exact (hfold _ s).trans (.setWord _ _ _ _ _)

theorem SharedStep.advanceDmaPos (s : State) (d : Dir) : SharedStep s (s.advanceDmaPos d) := by
  simp only [State.advanceDmaPos]
  split
  · cases d <;>
    exact ⟨by constructor <;> rfl, rfl, rfl, id, fun _ h => ⟨h.wf, h.apart⟩, fun _ => ⟨rfl, rfl⟩⟩
  · exact .refl s

/-- Interrupt flags and events of an agent that is enabled, hence of a bound engine. -/
theorem SharedStep.signal (s : State) (a b : Bool) (l : List SentFrame) (h : s.bound = true) :
    SharedStep s { s with ri := a, ti := b, sent := l } :=
  ⟨by constructor <;> rfl, rfl, rfl, id, fun _ h => ⟨h.wf, h.apart⟩, fun hb => by rw [h] at hb; cases hb⟩

theorem State.dmaEnabled_bound (s : State) (d : Dir) (i : Nat) (h : s.dmaEnabled d i = true) : s.bound = true := by
  simp only [State.dmaEnabled, Bool.and_eq_true] at h
  tauto

theorem SharedStep.rxWriteback (s : State) (i : Nat) (bs : List Byte) (v : Words4) : SharedStep s
    (s.rxWriteback i bs v) := by
  simp only [State.rxWriteback]
  split
  · next h =>
    rw [Bool.and_eq_true] at h
    have hb := s.dmaEnabled_bound _ _ h.1
    have h1 := (SharedStep.putBytes s (s.word .rx i s.params.rxLayout.buf1ap.word) 0 bs).trans (.writeBack _ .rx i v)
    have hb1 := h1.soft.bound.trans hb
    exact (h1.trans (.signal _ _ _ _ hb1)).trans (.advanceDmaPos _ .rx)
  · exact .refl s

theorem SharedStep.txWriteback (s : State) (j : Nat) (v : Words4) (t : Bool) : SharedStep s (s.txWriteback j v t) := by
  simp only [State.txWriteback]
  split
  · next h =>
    have hb := s.dmaEnabled_bound _ _ h
    generalize hf : s.fetchBytes s.byteAt (s.word .tx j s.params.txLayout.buf1ap.word)
      (s.params.txLayout.b1l.get (s.word .tx j s.params.txLayout.b1l.word)).toNat = taken
    have h1 : SharedStep s taken.2 := hf ▸ SharedStep.fetchBytes s s.byteAt _ _
    have hb1 := h1.soft.bound.trans hb
    have h2 := (h1.trans (.signal taken.2 taken.2.ri taken.2.ti (taken.2.sent ++ [⟨j, taken.1⟩]) hb1)).trans
      (.writeBack _ .tx j v)
    have hb2 := h2.soft.bound.trans hb
    exact (h2.trans (.signal _ _ _ _ hb2)).trans (.advanceDmaPos _ .tx)
  · exact .refl s

theorem SharedStep.handlerAck (s : State) : SharedStep s s.handlerAck := by
  simp only [State.handlerAck]
  split
  · next h =>
    simp only [Bool.and_eq_true] at h
    exact .signal s _ _ _ h.2
  · exact .refl s

/-- Every step of another agent keeps what software alone may change (R250). -/
theorem SharedStep.envStep (s : State) (e : EnvStep) : SharedStep s (s.envStep e) := by
  cases e with
  | drain n => exact .drain s n
  | rxWriteback i bs v => exact .rxWriteback s i bs v
  | txWriteback j v t => exact .txWriteback s j v t
  | interruptAck => exact .handlerAck s

theorem SharedStep.envSteps (es : List EnvStep) (s : State) : SharedStep s (s.envSteps es) := by
  induction es generalizing s with
  | nil => exact .refl s
  | cons e es ih => exact (SharedStep.envStep s e).trans (ih _)

theorem SharedStep.interleave (s : State) : SharedStep s s.interleave := by
  simp only [State.interleave]
  split
  · exact .refl s
  · have h : ∀ l, SharedStep s { s with schedule := l } := fun l =>
      ⟨by constructor <;> rfl, rfl, rfl, id, fun _ h => ⟨h.wf, h.apart⟩, fun _ => ⟨rfl, rfl⟩⟩
    exact (h _).trans (.envSteps _ _)

/-! ### The window and the write buffer, which no agent but SW adds to -/

@[simp] theorem State.putBytes_handover (bs : List Byte) (a : Word) (n : Nat) (s : State) :
    (s.putBytes a n bs).handover = s.handover := by
  induction bs generalizing n s with
  | nil => rfl
  | cons b bs ih =>
    simp only [State.putBytes, ih, State.putByte]
    split
    · exact State.setWords_handover ..
    · rfl

@[simp] theorem State.putBytes_wb (bs : List Byte) (a : Word) (n : Nat) (s : State) :
    (s.putBytes a n bs).wb = s.wb := by
  induction bs generalizing n s with
  | nil => rfl
  | cons b bs ih =>
    simp only [State.putBytes, ih, State.putByte]
    split
    · exact State.setWords_wb ..
    · rfl

theorem State.foldl_setWord_rest (ks : List Nat) (d : Dir) (i : Nat) (v : Words4) (s : State) :
    (ks.foldl (fun t k => t.setWord d i k (v.at k)) s).handover = s.handover ∧
    (ks.foldl (fun t k => t.setWord d i k (v.at k)) s).wb = s.wb := by
  induction ks generalizing s with
  | nil => exact ⟨rfl, rfl⟩
  | cons k ks ih =>
    obtain ⟨h1, h2⟩ := ih (s.setWord d i k (v.at k))
    exact ⟨h1.trans (State.setWord_handover ..), h2.trans (State.setWord_wb ..)⟩

@[simp] theorem State.writeBack_handover (s : State) (d : Dir) (i : Nat) (v : Words4) :
    (s.writeBack d i v).handover = s.handover :=
  (State.setWord_handover ..).trans (State.foldl_setWord_rest _ d i v s).1

@[simp] theorem State.writeBack_wb (s : State) (d : Dir) (i : Nat) (v : Words4) : (s.writeBack d i v).wb = s.wb :=
  (State.setWord_wb ..).trans (State.foldl_setWord_rest _ d i v s).2

theorem State.advanceDmaPos_rest (s : State) (d : Dir) :
    (s.advanceDmaPos d).handover = s.handover ∧ (s.advanceDmaPos d).wb = s.wb := by
  simp only [State.advanceDmaPos]
  split
  · cases d <;> exact ⟨rfl, rfl⟩
  · exact ⟨rfl, rfl⟩

theorem State.drain_rest (s : State) (n : Nat) : (s.drain n).handover = s.handover ∧ (s.drain n).wb.Sublist s.wb := by
  simp only [State.drain]
  split
  · next rest hw => exact ⟨rfl, hw ▸ List.sublist_cons_self _ _⟩
  · split
    · next e _ =>
      split
      · obtain ⟨r, t, m, h, _, _⟩ := e.apply_rest { s with wb := s.wb.eraseIdx n }
        rw [h]
        exact ⟨rfl, List.eraseIdx_sublist ..⟩
      · exact ⟨rfl, List.Sublist.refl _⟩
    · exact ⟨rfl, List.Sublist.refl _⟩

/-- No other agent opens or closes the window, and none adds to the write buffer (R47, R250). -/
theorem State.envStep_rest (s : State) (e : EnvStep) :
    (s.envStep e).handover = s.handover ∧ (s.envStep e).wb.Sublist s.wb := by
  cases e with
  | drain n => exact s.drain_rest n
  | rxWriteback i bs v =>
    simp only [State.envStep, State.rxWriteback]
    split
    · refine ⟨(State.advanceDmaPos_rest _ .rx).1.trans ?_, ?_⟩
      · exact (State.writeBack_handover ..).trans (State.putBytes_handover ..)
      · rw [(State.advanceDmaPos_rest _ .rx).2]
        simp only [State.writeBack_wb, State.putBytes_wb]
        exact List.Sublist.refl _
    · exact ⟨rfl, List.Sublist.refl _⟩
  | txWriteback j v t =>
    simp only [State.envStep, State.txWriteback]
    split
    · generalize hf : s.fetchBytes s.byteAt (s.word .tx j s.params.txLayout.buf1ap.word)
        (s.params.txLayout.b1l.get (s.word .tx j s.params.txLayout.b1l.word)).toNat = taken
      have hh : taken.2.handover = s.handover ∧ taken.2.wb = s.wb := by
        rw [← hf]; exact ⟨rfl, rfl⟩
      refine ⟨(State.advanceDmaPos_rest _ .tx).1.trans ?_, ?_⟩
      · exact (State.writeBack_handover ..).trans hh.1
      · rw [(State.advanceDmaPos_rest _ .tx).2]
        simp only [State.writeBack_wb, hh.2]
        exact List.Sublist.refl _
    · exact ⟨rfl, List.Sublist.refl _⟩
  | interruptAck =>
    simp only [State.envStep, State.handlerAck]
    split <;> exact ⟨rfl, List.Sublist.refl _⟩

theorem State.envSteps_rest (es : List EnvStep) (s : State) :
    (s.envSteps es).handover = s.handover ∧ (s.envSteps es).wb.Sublist s.wb := by
  induction es generalizing s with
  | nil => exact ⟨rfl, List.Sublist.refl _⟩
  | cons e es ih =>
    obtain ⟨h1, h2⟩ := ih (s.envStep e)
    obtain ⟨g1, g2⟩ := s.envStep_rest e
    exact ⟨h1.trans g1, h2.trans g2⟩

theorem State.interleave_rest (s : State) : s.interleave.handover = s.handover ∧ s.interleave.wb.Sublist s.wb := by
  simp only [State.interleave]
  split
  · exact ⟨rfl, List.Sublist.refl _⟩
  · exact State.envSteps_rest _ _

/-! ### The micro-steps of SW, whatever the schedule -/

theorem SharedStep.swRead (d : Dir) (i k : Nat) (s : State) : SharedStep s (swRead d i k s).2 := .interleave s

theorem SharedStep.swWrite (d : Dir) (i k : Nat) (v : Word) (s : State) (hi : i < s.params.capacity d) (hk : k < 4) :
    SharedStep s (swWrite d i k v s) := by
  have h := SharedStep.interleave s
  refine h.trans (.appendWb _ _ ?_)
  intro e he
  rw [List.mem_singleton.mp he]
  exact ⟨h.soft.params ▸ hi, hk⟩

theorem SharedStep.swModify (d : Dir) (i k : Nat) (f : Word → Word) (s : State) (hi : i < s.params.capacity d)
    (hk : k < 4) : SharedStep s (swModify d i k f s) := by
  have h := SharedStep.swRead d i k s
  exact h.trans (.swWrite d i k _ _ (h.soft.params ▸ hi) hk)

theorem SharedStep.fenceWw (s : State) : SharedStep s (fenceWw s) := by
  refine (SharedStep.interleave s).trans (.appendWb _ _ ?_)
  intro e he
  rw [List.mem_singleton.mp he]
  trivial

theorem SharedStep.barrierDsb (s : State) : SharedStep s (barrierDsb s) := (SharedStep.interleave s).trans (.flush _)

theorem SharedStep.fenceFull (s : State) : SharedStep s (fenceFull s) := (SharedStep.interleave s).trans (.flush _)

theorem SharedStep.fenceRr (s : State) : SharedStep s (fenceRr s) := .interleave s

theorem SharedStep.isOwned (d : Dir) (i : Nat) (s : State) : SharedStep s
    (isOwned d i s).2 := .swRead d i (s.params.ownWord d) s

theorem SharedStep.frameLength (i : Nat) (s : State) : SharedStep s
    (frameLength i s).2 := .swRead .rx i (s.params.ownWord .rx) s

theorem SharedStep.swReadByte (a : Nat) (s : State) : SharedStep s (swReadByte a s).2 :=
  (SharedStep.interleave s).trans (.setDraws _ _)

theorem SharedStep.readBytes (base : Word) (n : Nat) : ∀ (i : Nat) (s : State),
    SharedStep s (readBytes base n i s).2 := by
  induction n with
  | zero => exact fun _ s => .refl s
  | succ n ih => exact fun i s => (SharedStep.swReadByte _ s).trans (ih (i + 1) _)

theorem SharedStep.memRead (base : Word) (n : Nat) (s : State) : SharedStep s (memRead base n s).2 :=
  .readBytes base n 0 s

/-- The hand-over, whatever the schedule: it ends or raises the read-back `Fatal`, shared memory alone has changed, and
the window is closed (R145, R148). -/
theorem ownTransfer_shared (d : Dir) (i : Nat) (s : State) (hi : i < s.params.capacity d)
    (hw : s.params.ownWord d < 4) :
    (∃ t, ownTransfer d i s = .done () t ∧ SharedStep s t) ∨
    (∃ t, ownTransfer d i s = .fatal (.ownershipReadback d i) t ∧ SharedStep s t) := by
  have h1 := SharedStep.fenceWw s
  have h2 := h1.trans (.swRead d i (s.params.ownWord d) _)
  have h3 := h2.trans (.swWrite d i (s.params.ownWord d)
    ((Machine.swRead d i (s.params.ownWord d) (Machine.fenceWw s)).1 ||| s.params.handoverMask d) _
    (h2.soft.params ▸ hi) hw)
  have h4 := (h3.trans (.setHandover _ (some (d, i)))).trans (.barrierDsb _)
  have h5 := (h4.trans (.swRead d i (s.params.ownWord d) _)).trans (.setHandover _ none)
  simp only [ownTransfer]
  split
  · exact .inl ⟨_, rfl, h5.trans (.fenceFull _)⟩
  · exact .inr ⟨_, rfl, h5⟩

end Sys2Proof.Machine
end

