-- ==== Sys2Proof/Laws/Frames.lean ====
section
/-! SUPPORT. What every operation leaves alone, whatever the schedule: `Frame` says it once for the operations on
descriptors, one lemma each, and the ring operations add what they change besides (spec/44_rings.md). -/

namespace Sys2Proof.Machine

/-- Both ends of a nested operation: it ended, or it raised. -/
def Run.Ends {α : Type} (r : Run α) (P : State → Prop) : Prop :=
  match r with
  | .done _ s => P s
  | .fatal _ s => P s

theorem Run.ends_andThen {α β : Type} (r : Run α) (next : α → State → Run β) (P : State → Prop)
    (hf : ∀ f s, r = .fatal f s → P s) (hd : ∀ v s, r = .done v s → (next v s).Ends P) : (r.andThen next).Ends P := by
  cases r with
  | done v s => exact hd v s rfl
  | fatal f s => exact hf f s rfl

theorem Run.Ends.imp {α : Type} {r : Run α} {P Q : State → Prop} (h : r.Ends P) (hpq : ∀ s, P s → Q s) : r.Ends Q := by
  cases r <;> exact hpq _ h

/-- What the operations on descriptors leave alone: everything but shared memory, the write buffer, the window, the
interrupt flags, what the agents own, and metadata; receive metadata changes only if `rx`, transmit metadata only if
`tx`, and the busy flags never (R250, R44). -/
structure Frame (rx tx : Bool) (s t : State) : Prop where
  params : t.params = s.params
  rxNext : t.rxNext = s.rxNext
  txNext : t.txNext = s.txNext
  txReclaim : t.txReclaim = s.txReclaim
  rxHeld : t.rxHeld = s.rxHeld
  intEnable : t.intEnable = s.intEnable
  halted : t.halted = s.halted
  readyRx : t.readyRx = s.readyRx
  readyTx : t.readyTx = s.readyTx
  bound : t.bound = s.bound
  inbox : t.inbox = s.inbox
  ports : t.ports = s.ports
  rxWords : t.rxWords.length = s.rxWords.length
  txWords : t.txWords.length = s.txWords.length
  rxMetaLength : t.rxMeta.length = s.rxMeta.length
  txMetaLength : t.txMeta.length = s.txMeta.length
  rxMeta : rx = false → t.rxMeta = s.rxMeta
  txMeta : tx = false → t.txMeta = s.txMeta
  busy : ∀ j, t.busy j = s.busy j

theorem Frame.refl (rx tx : Bool) (s : State) : Frame rx tx s s := by constructor <;> intros <;> rfl

theorem Frame.trans {rx tx : Bool} {s t u : State} (h : Frame rx tx s t) (g : Frame rx tx t u) : Frame rx tx s u where
  params := g.params.trans h.params
  rxNext := g.rxNext.trans h.rxNext
  txNext := g.txNext.trans h.txNext
  txReclaim := g.txReclaim.trans h.txReclaim
  rxHeld := g.rxHeld.trans h.rxHeld
  intEnable := g.intEnable.trans h.intEnable
  halted := g.halted.trans h.halted
  readyRx := g.readyRx.trans h.readyRx
  readyTx := g.readyTx.trans h.readyTx
  bound := g.bound.trans h.bound
  inbox := g.inbox.trans h.inbox
  ports := g.ports.trans h.ports
  rxWords := g.rxWords.trans h.rxWords
  txWords := g.txWords.trans h.txWords
  rxMetaLength := g.rxMetaLength.trans h.rxMetaLength
  txMetaLength := g.txMetaLength.trans h.txMetaLength
  rxMeta := fun e => (g.rxMeta e).trans (h.rxMeta e)
  txMeta := fun e => (g.txMeta e).trans (h.txMeta e)
  busy := fun j => (g.busy j).trans (h.busy j)

theorem SharedStep.frame {s t : State} (h : SharedStep s t) (rx tx : Bool) : Frame rx tx s t := by
  obtain ⟨⟨h1, h2, h3, h4, h5, h6, h7, h8, h9, h10, h11, h12, h13, h14, _⟩, h16, h17, _, _, _⟩ := h
  exact ⟨h1, h2, h3, h4, h5, h8, h9, h10, h11, h12, h13, h14, h16, h17, congrArg _ h6, congrArg _ h7, fun _ => h6, fun _ => h7,
    fun j => by simp only [State.busy, State.txMetaAt, h7]⟩

theorem Frame.setWb (rx tx : Bool) (s : State) (w : List WbEntry) : Frame rx tx s { s with wb := w } := by
  constructor <;> intros <;> rfl

theorem Frame.setHandover (rx tx : Bool) (s : State) (h : Option
    (Dir × Nat)) : Frame rx tx s { s with handover := h } := by
  constructor <;> intros <;> rfl

theorem Frame.setRxMeta (tx : Bool) (s : State) (i : Nat) (m : RxMeta) : Frame true tx s (s.setRxMeta i m) := by
  constructor <;> intros <;> first | rfl | simp_all

/-- Transmit metadata replaced with the busy flag kept. -/
theorem Frame.setTxMeta (rx : Bool) (s : State) (j : Nat) (m : TxMeta) (hb : m.busy = s.busy j) :
    Frame rx true s (s.setTxMeta j m) := by
  constructor <;> intros <;> try first | rfl | simp_all
  next i =>
    simp only [State.busy, State.txMetaAt, State.setTxMeta, List.getD_eq_getElem?_getD, List.getElem?_set] at *
    by_cases hi : j = i
    · subst hi
      by_cases hl : j < s.txMeta.length
      · simp [hl] at hb ⊢; exact hb
      · simp [hl]
    · simp [hi]

/-! ### Micro-steps -/

theorem Frame.interleave (rx tx : Bool)
    (s : State) : Frame rx tx s s.interleave := (SharedStep.interleave s).frame rx tx

theorem Frame.swRead (rx tx : Bool) (d : Dir) (i k : Nat) (s : State) : Frame rx tx s
    (swRead d i k s).2 := .interleave rx tx s

theorem Frame.swWrite (rx tx : Bool) (d : Dir) (i k : Nat) (v : Word) (s : State) : Frame rx tx s (swWrite d i k v s) :=
  (Frame.interleave rx tx s).trans (.setWb rx tx _ _)

theorem Frame.swModify (rx tx : Bool) (d : Dir) (i k : Nat) (f : Word → Word) (s : State) :
    Frame rx tx s (swModify d i k f s) := (Frame.swRead rx tx d i k s).trans (.swWrite rx tx d i k _ _)

theorem Frame.memRead (rx tx : Bool) (base : Word) (n : Nat) (s : State) : Frame rx tx s (memRead base n s).2 :=
  (SharedStep.memRead base n s).frame rx tx

theorem Frame.writeBytes (rx tx : Bool) (base : Word) (bs : List Byte) : ∀ (i : Nat) (s : State),
    Frame rx tx s (writeBytes base i bs s) := by
  induction bs with
  | nil => exact fun _ s => .refl rx tx s
  | cons b bs ih => exact fun i s => ((Frame.interleave rx tx s).trans (.setWb rx tx _ _)).trans (ih (i + 1) _)

theorem Frame.memWrite (rx tx : Bool) (base : Word) (bs : List Byte) (s : State) : Frame rx tx s (memWrite base bs s) :=
  .writeBytes rx tx base bs 0 s

theorem Frame.fenceWw (rx tx : Bool) (s : State) : Frame rx tx s (fenceWw s) := (SharedStep.fenceWw s).frame rx tx

theorem Frame.barrierDsb (rx tx : Bool) (s : State) : Frame rx tx s
    (barrierDsb s) := (SharedStep.barrierDsb s).frame rx tx

theorem Frame.fenceFull (rx tx : Bool) (s : State) : Frame rx tx s (fenceFull s) := (SharedStep.fenceFull s).frame rx tx

theorem Frame.fenceRr (rx tx : Bool) (s : State) : Frame rx tx s (fenceRr s) := (SharedStep.fenceRr s).frame rx tx

theorem Frame.isOwned (rx tx : Bool) (d : Dir) (i : Nat) (s : State) : Frame rx tx s (isOwned d i s).2 :=
  (SharedStep.isOwned d i s).frame rx tx

theorem Frame.frameLength (rx tx : Bool) (i : Nat) (s : State) : Frame rx tx s (frameLength i s).2 :=
  (SharedStep.frameLength i s).frame rx tx

/-! ### Operations on one descriptor -/

theorem Frame.ownTransfer (rx tx : Bool) (d : Dir) (i : Nat) (s : State) : (ownTransfer d i s).Ends
    (Frame rx tx s) := by
  have h1 := Frame.fenceWw rx tx s
  have h2 := h1.trans (.swRead rx tx d i (s.params.ownWord d) _)
  have h3 := h2.trans (.swWrite rx tx d i (s.params.ownWord d)
    ((Machine.swRead d i (s.params.ownWord d) (Machine.fenceWw s)).1 ||| s.params.handoverMask d) _)
  have h4 := (h3.trans (.setHandover rx tx _ (some (d, i)))).trans (.barrierDsb rx tx _)
  have h5 := (h4.trans (.swRead rx tx d i (s.params.ownWord d) _)).trans (.setHandover rx tx _ none)
  simp only [Machine.ownTransfer]
  split
  · exact h5.trans (.fenceFull rx tx _)
  · exact h5

theorem Frame.rxSetup (tx : Bool) (i : Nat) (buf : Word) (s : State) : (rxSetup i buf s).Ends (Frame true tx s) := by
  have h := ((Frame.setRxMeta tx s i ⟨none, none⟩).trans (.swModify true tx .rx i s.params.rxLayout.buf1ap.word
    (fun _ => buf) _)).trans (.swModify true tx .rx i (s.params.ownWord .rx) s.params.rxSetupWord _)
  exact (Frame.ownTransfer true tx .rx i _).imp fun _ g => h.trans g

theorem Frame.rxCacheTs (rx tx : Bool) (i : Nat) (w : Word) (s : State) : Frame rx tx s (rxCacheTs i w s).2 := by
  simp only [Machine.rxCacheTs]
  split
  · exact .refl rx tx s
  · split
    · exact .refl rx tx s
    · generalize hv : (if s.params.hasTsValid then _ else _ : Bool × State) = valid
      have h : Frame rx tx s valid.2 := by
        rw [← hv]
        split
        · exact .interleave rx tx _
        · exact .refl rx tx s
      split
      · exact h
      · exact (h.trans (.interleave rx tx _)).trans (.interleave rx tx _)

theorem Frame.takeReceived (tx : Bool) (i : Nat) (p : Option PacketId) (fb : Word) (s : State) :
    (takeReceived i p fb s).Ends (Frame true tx s) := by
  have h1 := Frame.isOwned true tx .rx i s
  simp only [Machine.takeReceived]
  split
  · exact h1
  · have h2 := (h1.trans (.fenceRr true tx _)).trans (.swRead true tx .rx i (s.params.ownWord .rx) _)
    split
    · exact (h2.trans (.rxCacheTs true tx i _ _)).trans (.setRxMeta tx _ i _)
    · refine Run.ends_andThen _ _ _ (fun f t e => ?_) (fun v t e => ?_)
      · have := Frame.rxSetup tx i fb (Machine.swRead .rx i (s.params.ownWord .rx) (Machine.fenceRr (Machine.isOwned .rx i s).2)).2
        rw [e] at this
        exact h2.trans this
      · have := Frame.rxSetup tx i fb (Machine.swRead .rx i (s.params.ownWord .rx) (Machine.fenceRr (Machine.isOwned .rx i s).2)).2
        rw [e] at this
        exact h2.trans this

theorem Frame.txSend (rx : Bool) (j : Nat) (ptr len : Word) (p : Option PacketId) (s : State) :
    (txSend j ptr len p s).Ends (Frame rx true s) := by
  have h := (((Frame.setTxMeta rx s j { s.txMetaAt j with pid := p, ts := none } rfl).trans
    (.swModify rx true .tx j s.params.txLayout.buf1ap.word (fun _ => ptr) _)).trans
    (.swModify rx true .tx j s.params.txLayout.b1l.word (fun w => s.params.txLayout.b1l.put w len) _)).trans
    (.swModify rx true .tx j (s.params.ownWord .tx) s.params.txSendWord _)
  exact (Frame.ownTransfer rx true .tx j _).imp fun _ g => h.trans g

theorem Frame.txTsValid (rx tx : Bool) (j : Nat) (w : Word) (s : State) : Frame rx tx s (txTsValid j w s).2 := by
  simp only [Machine.txTsValid]
  split
  · exact .refl rx tx s
  · split
    · exact .refl rx tx s
    · exact .interleave rx tx _

theorem Frame.txCacheTs (rx tx : Bool) (j : Nat) (w : Word) (s : State) : Frame rx tx s (txCacheTs j w s).2 := by
  have h := Frame.txTsValid rx tx j w s
  simp only [Machine.txCacheTs]
  split
  · exact .refl rx tx s
  · split
    · exact .refl rx tx s
    · split
      · exact h
      · exact (h.trans (.interleave rx tx _)).trans (.interleave rx tx _)

theorem Frame.takeCompleted (rx : Bool) (j : Nat) (q : Option PacketId) (s : State) :
    Frame rx true s (takeCompleted j q s).2 := by
  have h1 := Frame.isOwned rx true .tx j s
  simp only [Machine.takeCompleted]
  split
  · exact h1
  · have h2 := (h1.trans (.fenceRr rx true _)).trans (.swRead rx true .tx j (s.params.ownWord .tx) _)
    generalize Machine.swRead .tx j (s.params.ownWord .tx) (Machine.fenceRr (Machine.isOwned .tx j s).2) = w at h2
    have h3 := h2.trans (.setTxMeta rx w.2 j { w.2.txMetaAt j with pid := none } rfl)
    split
    · exact h3.trans (.setTxMeta rx _ j _ rfl)
    · exact (h3.trans (.txCacheTs rx true j _ _)).trans (.setTxMeta rx _ j _ rfl)

/-! ### The loops of the ring operations -/

theorem Frame.zeroDescriptor (rx tx : Bool) (d : Dir) (i : Nat) (s : State) : Frame rx tx s (zeroDescriptor d i s) :=
  (((Frame.swModify rx tx d i 0 (fun _ => 0) s).trans (.swModify rx tx d i 1 (fun _ => 0) _)).trans
    (.swModify rx tx d i 2 (fun _ => 0) _)).trans (.swModify rx tx d i 3 (fun _ => 0) _)

theorem Frame.armSlots (tx : Bool) (n : Nat) : ∀ (i : Nat) (s : State), (armSlots n i s).Ends (Frame true tx s) := by
  induction n with
  | zero => exact fun _ s => .refl true tx s
  | succ n ih =>
    intro i s
    have h1 := Frame.zeroDescriptor true tx .rx i s
    have h2 := Frame.rxSetup tx i (s.params.rxBuf i) (Machine.zeroDescriptor .rx i s)
    refine Run.ends_andThen _ _ _ (fun f t e => ?_) (fun v t e => ?_)
    · rw [e] at h2; exact h1.trans h2
    · rw [e] at h2; exact (ih (i + 1) t).imp fun _ g => (h1.trans h2).trans g

theorem Frame.countOwned (rx tx : Bool) (n : Nat) : ∀ (j : Nat) (s : State), Frame rx tx s (countOwned n j s).2 := by
  induction n with
  | zero => exact fun _ s => .refl rx tx s
  | succ n ih => exact fun j s => (Frame.isOwned rx tx .tx j s).trans (ih (j + 1) _)

/-- Re-arming the held slot: nobody holds a slot after it (R203, R205). -/
theorem rearmHeld_ends (s : State) :
    (∃ t, rearmHeld s = .done () { t with rxHeld := none } ∧ Frame true false s t) ∨
    (∃ f t, rearmHeld s = .fatal f t ∧ Frame true false s t) := by
  simp only [rearmHeld]
  cases h : s.rxHeld with
  | none =>
    refine .inl ⟨s, ?_, .refl _ _ s⟩
    cases s
    simp only at h
    subst h
    rfl
  | some n =>
    have h2 := Frame.rxSetup false n (s.params.rxBuf n) s
    cases e : rxSetup n (s.params.rxBuf n) s with
    | done v t => rw [e] at h2; exact .inl ⟨t, by simp only [e, Run.andThen], h2⟩
    | fatal f t => rw [e] at h2; exact .inr ⟨f, t, by simp only [e, Run.andThen], h2⟩

end Sys2Proof.Machine
end

