-- ==== Sys2Proof/Laws/Keeps.lean ====
section
/-! SUPPORT. What every operation keeps of the invariants, whatever the schedule: a sound write buffer, canonical
memory, the interrupt flags of an unbound engine, and the closed window (spec/10_state.md rules R46, R47, R49). -/

namespace Sys2Proof.Machine

/-- The invariants that shared memory, the write buffer and the window take part in are kept. -/
structure Keeps (s t : State) : Prop where
  params : t.params = s.params
  bound : t.bound = s.bound
  sound : s.WbSound → t.WbSound
  canonical : s.WbSound → s.MemoryCanonical → t.MemoryCanonical
  unbound : s.bound = false → t.ri = s.ri ∧ t.ti = s.ti
  window : s.handover = none → t.handover = none

theorem Keeps.refl (s : State) : Keeps s s := ⟨rfl, rfl, id, fun _ h => h, fun _ => ⟨rfl, rfl⟩, id⟩

theorem Keeps.trans {s t u : State} (h : Keeps s t) (g : Keeps t u) : Keeps s u where
  params := g.params.trans h.params
  bound := g.bound.trans h.bound
  sound := g.sound ∘ h.sound
  canonical := fun hw hm => g.canonical (h.sound hw) (h.canonical hw hm)
  unbound := fun hb =>
    ⟨(g.unbound (h.bound.trans hb)).1.trans (h.unbound hb).1, (g.unbound (h.bound.trans hb)).2.trans (h.unbound hb).2⟩
  window := g.window ∘ h.window

theorem SharedStep.keeps {s t : State} (h : SharedStep s t) (hw : s.handover = none → t.handover = none) : Keeps s t :=
  ⟨h.soft.params, h.soft.bound, h.sound, h.canonical, h.unbound, hw⟩

theorem Keeps.interleave (s : State) : Keeps s s.interleave :=
  (SharedStep.interleave s).keeps fun h => s.interleave_rest.1.trans h

theorem Keeps.setRxMeta (s : State) (i : Nat) (m : RxMeta) : Keeps s (s.setRxMeta i m) :=
  ⟨rfl, rfl, id, fun _ h => ⟨h.wf, h.apart⟩, fun _ => ⟨rfl, rfl⟩, id⟩

theorem Keeps.setTxMeta (s : State) (j : Nat) (m : TxMeta) : Keeps s (s.setTxMeta j m) :=
  ⟨rfl, rfl, id, fun _ h => ⟨h.wf, h.apart⟩, fun _ => ⟨rfl, rfl⟩, id⟩

theorem Keeps.appendWb (s : State) (w : List WbEntry) (h : ∀ e ∈ w, e.Sound s.params) :
    Keeps s { s with wb := s.wb ++ w } := (SharedStep.appendWb s w h).keeps id

theorem Keeps.swRead (d : Dir) (i k : Nat) (s : State) : Keeps s (swRead d i k s).2 := .interleave s

theorem Keeps.fenceRr (s : State) : Keeps s (fenceRr s) := .interleave s

theorem Keeps.isOwned (d : Dir) (i : Nat) (s : State) : Keeps s (isOwned d i s).2 := .interleave s

theorem Keeps.frameLength (i : Nat) (s : State) : Keeps s (frameLength i s).2 := .interleave s

theorem Keeps.swWrite (d : Dir) (i k : Nat) (v : Word) (s : State) (hi : i < s.params.capacity d) (hk : k < 4) :
    Keeps s (swWrite d i k v s) :=
  (SharedStep.swWrite d i k v s hi hk).keeps fun h => s.interleave_rest.1.trans h

theorem Keeps.swModify (d : Dir) (i k : Nat) (f : Word → Word) (s : State) (hi : i < s.params.capacity d) (hk : k < 4) :
    Keeps s (swModify d i k f s) := by
  have h := Keeps.swRead d i k s
  exact h.trans (.swWrite d i k _ _ (h.params ▸ hi) hk)

theorem Keeps.fenceWw (s : State) : Keeps s (fenceWw s) :=
  (SharedStep.fenceWw s).keeps fun h => s.interleave_rest.1.trans h

theorem Keeps.flush
    (s : State) : Keeps s s.flush := (SharedStep.flush s).keeps fun h => (State.flush_handover s).trans h

theorem Keeps.barrierDsb (s : State) : Keeps s (barrierDsb s) := (Keeps.interleave s).trans (.flush _)

theorem Keeps.fenceFull (s : State) : Keeps s (fenceFull s) := (Keeps.interleave s).trans (.flush _)

theorem Keeps.swReadByte (a : Nat) (s : State) : Keeps s (swReadByte a s).2 :=
  (SharedStep.swReadByte a s).keeps fun h => s.interleave_rest.1.trans h

theorem Keeps.readBytes (base : Word) (n : Nat) : ∀ (i : Nat) (s : State), Keeps s (readBytes base n i s).2 := by
  induction n with
  | zero => exact fun _ s => .refl s
  | succ n ih => exact fun i s => (Keeps.swReadByte _ s).trans (ih (i + 1) _)

theorem Keeps.memRead (base : Word) (n : Nat) (s : State) : Keeps s (memRead base n s).2 := .readBytes base n 0 s

/-- A byte write outside the descriptor arrays. -/
theorem Keeps.swWriteByte (a : Nat) (b : Byte) (s : State) (h : s.params.descriptorByte a = none) (ha : a < 2 ^ 32) :
    Keeps s (swWriteByte a b s) := by
  have hk := Keeps.interleave s
  refine hk.trans (.appendWb _ _ fun e he => ?_)
  rw [List.mem_singleton.mp he]
  exact ⟨hk.params ▸ h, ha⟩

theorem Keeps.writeBytes (base : Word) (bs : List Byte) : ∀ (i : Nat) (s : State),
    (∀ k, k < bs.length → s.params.descriptorByte (addrAt base (i + k)) = none) →
    Keeps s (writeBytes base i bs s) := by
  induction bs with
  | nil => exact fun _ s _ => .refl s
  | cons b bs ih =>
    intro i s h
    have h1 := Keeps.swWriteByte (addrAt base i) b s (h 0 (by simp)) (addrAt_lt base i)
    refine h1.trans (ih (i + 1) _ fun k hk => ?_)
    have := h (k + 1) (by simpa using hk)
    rwa [h1.params, show i + 1 + k = i + (k + 1) by omega]

theorem Keeps.memWrite (base : Word) (bs : List Byte) (s : State)
    (h : ∀ k, k < bs.length → s.params.descriptorByte (addrAt base k) = none) : Keeps s (memWrite base bs s) :=
  .writeBytes base bs 0 s fun k hk => by rw [Nat.zero_add]; exact h k hk

theorem Keeps.ownTransfer (d : Dir) (i : Nat) (s : State) (hp : s.params.wf = true) (hi : i < s.params.capacity d) :
    (ownTransfer d i s).Ends (Keeps s) := by
  have hw := (s.params.wf_own hp d).2.2
  have h1 := Keeps.fenceWw s
  have h2 := h1.trans (.swRead d i (s.params.ownWord d) _)
  have h3 := h2.trans (.swWrite d i (s.params.ownWord d)
    ((Machine.swRead d i (s.params.ownWord d) (Machine.fenceWw s)).1 ||| s.params.handoverMask d) _ (by rw [h2.params]; exact hi) hw)
  generalize hw3 : Machine.swWrite d i (s.params.ownWord d) _ _ = written at h3
  let opened : State := { written with handover := some (d, i) }
  have h4 : Keeps opened (Machine.swRead d i (s.params.ownWord d) (Machine.barrierDsb opened)).2 :=
    (Keeps.barrierDsb opened).trans (.swRead d i (s.params.ownWord d) _)
  generalize hb : Machine.swRead d i (s.params.ownWord d) (Machine.barrierDsb opened) = back at h4
  have h5 : Keeps s { back.2 with handover := none } :=
    ⟨h4.params.trans h3.params, h4.bound.trans h3.bound, fun h => h4.sound (h3.sound h),
      fun h hm => ⟨(h4.canonical (h3.sound h) ⟨(h3.canonical h hm).wf, (h3.canonical h hm).apart⟩).wf,
        (h4.canonical (h3.sound h) ⟨(h3.canonical h hm).wf, (h3.canonical h hm).apart⟩).apart⟩,
      fun h => ⟨(h4.unbound (h3.bound.trans h)).1.trans (h3.unbound h).1, (h4.unbound (h3.bound.trans h)).2.trans (h3.unbound h).2⟩,
      fun _ => rfl⟩
  simp only [Machine.ownTransfer, hw3]
  show Run.Ends (if s.params.ownedByHw d (Machine.swRead d i (s.params.ownWord d) (Machine.barrierDsb opened)).1 = true
    then _ else _) _
  rw [hb]
  split
  · exact h5.trans (.fenceFull _)
  · exact h5

theorem Keeps.rxSetup (i : Nat) (buf : Word) (s : State) (hp : s.params.wf = true) (hi : i < s.params.nRx) :
    (rxSetup i buf s).Ends (Keeps s) := by
  have h1 := Keeps.setRxMeta s i ⟨none, none⟩
  have h2 := h1.trans (.swModify .rx i s.params.rxLayout.buf1ap.word (fun _ => buf) _ hi (s.params.wf_rxRead hp).1)
  have h3 := h2.trans (.swModify .rx i (s.params.ownWord .rx) s.params.rxSetupWord _ (by rw [h2.params]; exact hi)
    (s.params.wf_own hp .rx).2.2)
  exact (Keeps.ownTransfer .rx i _ (by rw [h3.params]; exact hp) (by rw [h3.params]; exact hi)).imp fun _ g => h3.trans g

theorem Keeps.rxCacheTs (i : Nat) (w : Word) (s : State) : Keeps s (rxCacheTs i w s).2 := by
  simp only [Machine.rxCacheTs]
  split
  · exact .refl s
  · split
    · exact .refl s
    · generalize hv : (if s.params.hasTsValid then _ else _ : Bool × State) = valid
      have h : Keeps s valid.2 := by
        rw [← hv]
        split
        · exact .interleave _
        · exact .refl s
      split
      · exact h
      · exact (h.trans (.interleave _)).trans (.interleave _)

theorem Keeps.takeReceived (i : Nat) (p : Option PacketId) (fb : Word) (s : State) (hp : s.params.wf = true)
    (hi : i < s.params.nRx) : (takeReceived i p fb s).Ends (Keeps s) := by
  have h1 := Keeps.isOwned .rx i s
  simp only [Machine.takeReceived]
  split
  · exact h1
  · have h2 := (h1.trans (.fenceRr _)).trans (.swRead .rx i (s.params.ownWord .rx) _)
    split
    · exact (h2.trans (.rxCacheTs i _ _)).trans (.setRxMeta _ i _)
    · have h3 := Keeps.rxSetup i fb (Machine.swRead .rx i (s.params.ownWord .rx)
        (Machine.fenceRr (Machine.isOwned .rx i s).2)).2 (by rw [h2.params]; exact hp) (by rw [h2.params]; exact hi)
      refine Run.ends_andThen _ _ _ (fun f t e => ?_) (fun v t e => ?_)
      · rw [e] at h3; exact h2.trans h3
      · rw [e] at h3; exact h2.trans h3

theorem Keeps.txSend (j : Nat) (ptr len : Word) (p : Option PacketId) (s : State) (hp : s.params.wf = true)
    (hj : j < s.params.nTx) : (txSend j ptr len p s).Ends (Keeps s) := by
  obtain ⟨hb, hl, _, _⟩ := s.params.wf_txRead hp
  have h1 := Keeps.setTxMeta s j { s.txMetaAt j with pid := p, ts := none }
  have h2 := h1.trans (.swModify .tx j s.params.txLayout.buf1ap.word (fun _ => ptr) _ hj hb)
  have h3 := h2.trans (.swModify .tx j s.params.txLayout.b1l.word (fun w => s.params.txLayout.b1l.put w len) _
    (by rw [h2.params]; exact hj) hl)
  have h4 := h3.trans (.swModify .tx j (s.params.ownWord .tx) s.params.txSendWord _ (by rw [h3.params]; exact hj)
    (s.params.wf_own hp .tx).2.2)
  exact (Keeps.ownTransfer .tx j _ (by rw [h4.params]; exact hp) (by rw [h4.params]; exact hj)).imp fun _ g => h4.trans g

theorem Keeps.txCacheTs (j : Nat) (w : Word) (s : State) : Keeps s (txCacheTs j w s).2 := by
  have h : Keeps s (Machine.txTsValid j w s).2 := by
    simp only [Machine.txTsValid]
    split
    · exact .refl s
    · split
      · exact .refl s
      · exact .interleave _
  simp only [Machine.txCacheTs]
  split
  · exact .refl s
  · split
    · exact .refl s
    · split
      · exact h
      · exact (h.trans (.interleave _)).trans (.interleave _)

theorem Keeps.takeCompleted (j : Nat) (q : Option PacketId) (s : State) : Keeps s (takeCompleted j q s).2 := by
  have h1 := Keeps.isOwned .tx j s
  simp only [Machine.takeCompleted]
  split
  · exact h1
  · have h2 := (h1.trans (.fenceRr _)).trans (.swRead .tx j (s.params.ownWord .tx) _)
    generalize Machine.swRead .tx j (s.params.ownWord .tx) (Machine.fenceRr (Machine.isOwned .tx j s).2) = w at h2
    have h3 := h2.trans (.setTxMeta w.2 j { w.2.txMetaAt j with pid := none })
    split
    · exact h3.trans (.setTxMeta _ j _)
    · exact (h3.trans (.txCacheTs j _ _)).trans (.setTxMeta _ j _)

theorem Keeps.zeroDescriptor (d : Dir) (i : Nat) (s : State) (hi : i < s.params.capacity d) :
    Keeps s (zeroDescriptor d i s) := by
  have h1 := Keeps.swModify d i 0 (fun _ => 0) s hi (by decide)
  have h2 := h1.trans (.swModify d i 1 (fun _ => 0) _ (by rw [h1.params]; exact hi) (by decide))
  have h3 := h2.trans (.swModify d i 2 (fun _ => 0) _ (by rw [h2.params]; exact hi) (by decide))
  exact h3.trans (.swModify d i 3 (fun _ => 0) _ (by rw [h3.params]; exact hi) (by decide))

theorem Keeps.armSlots (n : Nat) : ∀ (i : Nat) (s : State), s.params.wf = true → i + n ≤ s.params.nRx →
    (armSlots n i s).Ends (Keeps s) := by
  induction n with
  | zero => exact fun _ s _ _ => .refl s
  | succ n ih =>
    intro i s hp hn
    have h1 := Keeps.zeroDescriptor .rx i s (by show i < s.params.nRx; omega)
    have h2 := Keeps.rxSetup i (s.params.rxBuf i) (Machine.zeroDescriptor .rx i s) (by rw [h1.params]; exact hp) (by rw [h1.params]; omega)
    refine Run.ends_andThen _ _ _ (fun f t e => ?_) (fun v t e => ?_)
    · rw [e] at h2; exact h1.trans h2
    · rw [e] at h2
      have h3 := h1.trans h2
      exact (ih (i + 1) t (by rw [h3.params]; exact hp) (by rw [h3.params]; omega)).imp fun _ g => h3.trans g

theorem Keeps.clearSlots (n : Nat) : ∀ (j : Nat) (s : State), j + n ≤ s.params.nTx → Keeps s (clearSlots n j s) := by
  induction n with
  | zero => exact fun _ s _ => .refl s
  | succ n ih =>
    intro j s hn
    have h1 := Keeps.zeroDescriptor .tx j s (by show j < s.params.nTx; omega)
    have h2 := h1.trans (.setTxMeta _ j ⟨none, none, false⟩)
    exact h2.trans (ih (j + 1) _ (by rw [h2.params]; omega))

theorem Keeps.countOwned (n : Nat) : ∀ (j : Nat) (s : State), Keeps s (countOwned n j s).2 := by
  induction n with
  | zero => exact fun _ s => .refl s
  | succ n ih => exact fun j s => (Keeps.isOwned .tx j s).trans (ih (j + 1) _)

/-- Re-arming the held slot, if it names a slot. -/
theorem Keeps.rearmHeld (s : State) (hp : s.params.wf = true) (hh : ∀ h, s.rxHeld = some h → h < s.params.nRx) :
    (rearmHeld s).Ends (Keeps s) := by
  simp only [Machine.rearmHeld]
  cases h : s.rxHeld with
  | none => exact .refl s
  | some n =>
    have h2 := Keeps.rxSetup n (s.params.rxBuf n) s hp (hh n h)
    refine Run.ends_andThen _ _ _ (fun f t e => ?_) (fun v t e => ?_)
    · rw [e] at h2; exact h2
    · rw [e] at h2; exact ⟨h2.params, h2.bound, h2.sound, fun a b => ⟨(h2.canonical a b).wf, (h2.canonical a b).apart⟩, h2.unbound, h2.window⟩

end Sys2Proof.Machine
end

