-- ==== Sys2Proof/Laws/Operands.lean ====
section
/-! SUPPORT. The operand functions as data lose nothing: every function on words is an `FN` operand, every
length-preserving function on byte lists is a `FILL` operand up to any given finite set of lists (spec/30_encoding.md
rule R112). -/

namespace Sys2Proof

/-- Every function on finitely many words is the value of some `FN` term there. -/
theorem WordFn.agrees_on (f : Word → Word) (ws : List Word) : ∃ e : WordFn, ∀ w ∈ ws, e.eval w = f w := by
  induction ws with
  | nil => exact ⟨.arg, by simp⟩
  | cons c ws ih =>
    obtain ⟨e, he⟩ := ih
    refine ⟨.ifEq c (.lit (f c)) e, fun w hw => ?_⟩
    by_cases h : w = c
    · simp [WordFn.eval, h]
    · rcases List.mem_cons.mp hw with hw | hw
      · exact absurd hw h
      · simp [WordFn.eval, h, he w hw]

/-- Every total function on words is the value of some `FN` term. -/
theorem WordFn.universal (f : Word → Word) : ∃ e : WordFn, ∀ w, e.eval w = f w := by
  obtain ⟨e, he⟩ := WordFn.agrees_on f ((List.finRange (2 ^ 32)).map BitVec.ofFin)
  exact ⟨e, fun w => he w (List.mem_map.mpr ⟨w.toFin, List.mem_finRange _, rfl⟩)⟩

/-- `FILL` keeps the length: as many bytes come out as went in (R112). -/
@[simp] theorem FillFn.length_eval (g : FillFn) (bs : List Byte) : (g.eval bs).length = bs.length := by
  induction g with
  | keep => rfl
  | write new => simp [FillFn.eval]; omega
  | ifEq old t e ht he =>
    simp only [FillFn.eval]
    split
    · exact ht
    · exact he

/-- Every length-preserving function agrees with some `FILL` term on finitely many byte lists. -/
theorem FillFn.agrees_on (f : List Byte → List Byte) (hf : ∀ bs, (f bs).length = bs.length) (ls : List (List Byte)) :
    ∃ g : FillFn, ∀ bs ∈ ls, g.eval bs = f bs := by
  induction ls with
  | nil => exact ⟨.keep, by simp⟩
  | cons c ls ih =>
    obtain ⟨g, hg⟩ := ih
    refine ⟨.ifEq c (.write (f c)) g, fun bs hbs => ?_⟩
    by_cases h : bs = c
    · subst h
      have hl := hf bs
      simp [FillFn.eval, hl, List.take_of_length_le]
    · rcases List.mem_cons.mp hbs with hb | hb
      · exact absurd hb h
      · simp [FillFn.eval, h, hg bs hb]

end Sys2Proof
end

