-- ==== Sys2Proof/Laws/PerInstr.lean ====
section
/-! SUPPORT. One lemma a constructor: the low byte of an operation's command word is its opcode number
(spec/30_encoding.md rules R110, R111). -/

namespace Sys2Proof.Laws

/-- The low byte of a command word is its opcode, whatever K, DIR and SLOT are. -/
theorem commandWord_opcode (op k : Nat) (d : Dir) (slot : Nat) (h : op < 256) :
    (commandWord op k d slot).toNat % 256 = op := by
  simp only [commandWord, BitVec.toNat_ofNat]
  omega

/-- An opcode number is a byte (R110). -/
theorem opcode_lt (i : Instr) : i.opcode < 256 := by
  cases i <;> simp [Instr.opcode]

/-- The command word of the operation carries the operation's opcode number in its low byte. -/
def OpcodeByte.Statement (i : Instr) : Prop := (encode i).toNat % 256 = i.opcode

theorem OpcodeByte.rawRead (d : Dir) (slot : Nat) (k : Fin 4) : OpcodeByte.Statement (.rawRead d slot k) :=
  commandWord_opcode _ _ _ _ (opcode_lt _)

theorem OpcodeByte.rawModify (d : Dir) (slot : Nat) (k : Fin 4) : OpcodeByte.Statement (.rawModify d slot k) :=
  commandWord_opcode _ _ _ _ (opcode_lt _)

theorem OpcodeByte.fenceWw : OpcodeByte.Statement .fenceWw :=
  commandWord_opcode _ _ _ _ (opcode_lt _)

theorem OpcodeByte.barrierDsb : OpcodeByte.Statement .barrierDsb :=
  commandWord_opcode _ _ _ _ (opcode_lt _)

theorem OpcodeByte.fenceFull : OpcodeByte.Statement .fenceFull :=
  commandWord_opcode _ _ _ _ (opcode_lt _)

theorem OpcodeByte.fenceRr : OpcodeByte.Statement .fenceRr :=
  commandWord_opcode _ _ _ _ (opcode_lt _)

theorem OpcodeByte.ownTransfer (d : Dir) (slot : Nat) : OpcodeByte.Statement (.ownTransfer d slot) :=
  commandWord_opcode _ _ _ _ (opcode_lt _)

theorem OpcodeByte.rxdIsOwned (slot : Nat) : OpcodeByte.Statement (.rxdIsOwned slot) :=
  commandWord_opcode _ _ _ _ (opcode_lt _)

theorem OpcodeByte.rxdSetup (slot : Nat) : OpcodeByte.Statement (.rxdSetup slot) :=
  commandWord_opcode _ _ _ _ (opcode_lt _)

theorem OpcodeByte.rxdTakeReceived (slot : Nat) : OpcodeByte.Statement (.rxdTakeReceived slot) :=
  commandWord_opcode _ _ _ _ (opcode_lt _)

theorem OpcodeByte.rxdFrameLength (slot : Nat) : OpcodeByte.Statement (.rxdFrameLength slot) :=
  commandWord_opcode _ _ _ _ (opcode_lt _)

theorem OpcodeByte.rxdPacketId (slot : Nat) : OpcodeByte.Statement (.rxdPacketId slot) :=
  commandWord_opcode _ _ _ _ (opcode_lt _)

theorem OpcodeByte.rxdTimestamp (slot : Nat) : OpcodeByte.Statement (.rxdTimestamp slot) :=
  commandWord_opcode _ _ _ _ (opcode_lt _)

theorem OpcodeByte.txdIsOwned (slot : Nat) : OpcodeByte.Statement (.txdIsOwned slot) :=
  commandWord_opcode _ _ _ _ (opcode_lt _)

theorem OpcodeByte.txdSend (slot : Nat) : OpcodeByte.Statement (.txdSend slot) :=
  commandWord_opcode _ _ _ _ (opcode_lt _)

theorem OpcodeByte.txdTakeCompleted (slot : Nat) : OpcodeByte.Statement (.txdTakeCompleted slot) :=
  commandWord_opcode _ _ _ _ (opcode_lt _)

theorem OpcodeByte.rxringNew : OpcodeByte.Statement .rxringNew :=
  commandWord_opcode _ _ _ _ (opcode_lt _)

theorem OpcodeByte.rxringRecvNext : OpcodeByte.Statement .rxringRecvNext :=
  commandWord_opcode _ _ _ _ (opcode_lt _)

theorem OpcodeByte.txringNew : OpcodeByte.Statement .txringNew :=
  commandWord_opcode _ _ _ _ (opcode_lt _)

theorem OpcodeByte.txringSend : OpcodeByte.Statement .txringSend :=
  commandWord_opcode _ _ _ _ (opcode_lt _)

theorem OpcodeByte.txringReclaim : OpcodeByte.Statement .txringReclaim :=
  commandWord_opcode _ _ _ _ (opcode_lt _)

theorem OpcodeByte.engNew : OpcodeByte.Statement .engNew :=
  commandWord_opcode _ _ _ _ (opcode_lt _)

theorem OpcodeByte.engSend : OpcodeByte.Statement .engSend :=
  commandWord_opcode _ _ _ _ (opcode_lt _)

theorem OpcodeByte.engRecvNext : OpcodeByte.Statement .engRecvNext :=
  commandWord_opcode _ _ _ _ (opcode_lt _)

theorem OpcodeByte.engEnableInterrupt : OpcodeByte.Statement .engEnableInterrupt :=
  commandWord_opcode _ _ _ _ (opcode_lt _)

theorem OpcodeByte.engDisableInterrupt : OpcodeByte.Statement .engDisableInterrupt :=
  commandWord_opcode _ _ _ _ (opcode_lt _)

theorem OpcodeByte.engInterruptAck : OpcodeByte.Statement .engInterruptAck :=
  commandWord_opcode _ _ _ _ (opcode_lt _)

theorem OpcodeByte.engTxState : OpcodeByte.Statement .engTxState :=
  commandWord_opcode _ _ _ _ (opcode_lt _)

theorem OpcodeByte.engTxReclaim : OpcodeByte.Statement .engTxReclaim :=
  commandWord_opcode _ _ _ _ (opcode_lt _)

end Sys2Proof.Laws
end

