-- ==== Sys2Proof/Laws/Rings.lean ====
section
/-! SUPPORT. What the ring operations do when no other agent steps inside them (spec/44_rings.md). -/

namespace Sys2Proof

/-! ### The read format a slot is armed with -/

/-- Putting all ones into a one-bit field sets its mask. -/
theorem Field.put_one (f : Field) (h : f.oneBit = true) (w : Word) : f.put w 1 = w ||| f.mask := by
  have hw := f.width_oneBit h
  have h1 : f.ones = 1 := by simp only [Field.ones, hw]; decide
  have h2 : ((1 : Word) &&& f.ones) <<< f.lo = f.mask := by simp [Field.mask, h1]
  simp only [Field.put, h2]
  apply BitVec.eq_of_getLsbD_eq
  intro i hi
  simp only [BitVec.getLsbD_or, BitVec.getLsbD_and, BitVec.getLsbD_not, hi, decide_true, Bool.true_and]
  cases w.getLsbD i <;> cases f.mask.getLsbD i <;> rfl

/-- Putting zero into a one-bit field clears its mask. -/
theorem Field.put_zero (f : Field) (w : Word) : f.put w 0 = w &&& ~~~f.mask := by
  simp [Field.put]

/-- A word put into a whole-word field is the word. -/
theorem Field.put_wholeWord (f : Field) (h : f.wholeWord = true) (w v : Word) : f.put w v = v := by
  simp only [Field.wholeWord, Bool.and_eq_true, beq_iff_eq] at h
  have hw : f.width = 32 := by simp [Field.width, h]
  have ho : f.ones = BitVec.allOnes 32 := by simp only [Field.ones, hw]; decide
  have hv : v &&& f.ones = v := by rw [ho]; exact BitVec.and_allOnes
  have hm : f.mask = BitVec.allOnes 32 := by simp only [Field.mask, h.2, ho]; rfl
  simp [Field.put, hm, hv, h.2]

/-- The words a receive slot is armed with: the buffer address in its word, OWN, IOC and BUF1V in the OWN word, zero
elsewhere (R200, R105). -/
theorem Params.encRead_at (p : Params) (h : p.wf = true) (buf : Word) (k : Nat) (hk : k < 4) :
    (p.rxLayout.encRead buf 1 1 0 1).at k =
      if k = p.ownWord .rx then p.rxSetupWord 0 ||| p.handoverMask .rx
      else if k = p.rxLayout.buf1ap.word then buf else 0 := by
  have hne := (p.wf_rxRead h).2
  obtain ⟨hl, _⟩ := p.wf_layouts h
  simp only [RxLayout.wf, formatWf, RxLayout.readFormat, allPairs, List.all_cons, List.all_nil, Bool.and_eq_true] at hl
  obtain ⟨⟨⟨⟨⟨⟨⟨⟨⟨hin, hap⟩, _⟩, hw⟩, _⟩, _⟩, _⟩, hww, _⟩, hb⟩, _⟩ := hl
  obtain ⟨b1, b2, b3, b4, _⟩ := hb
  obtain ⟨w1, w2, w3, _⟩ := hw
  simp only [beq_iff_eq] at w1 w2 w3
  simp only [Params.ownWord, Params.own] at *
  have hat : (p.rxLayout.encRead buf 1 1 0 1).at k = placeFields [(p.rxLayout.buf1ap, buf), (p.rxLayout.own, 1),
      (p.rxLayout.ioc, 1), (p.rxLayout.buf2v, 0), (p.rxLayout.buf1v, 1)] k := by
    rcases (by omega : k = 0 ∨ k = 1 ∨ k = 2 ∨ k = 3) with rfl | rfl | rfl | rfl <;> rfl
  rw [hat]
  simp only [placeFields, List.foldl_cons, List.foldl_nil, w1, w2, w3]
  by_cases hko : k = p.rxLayout.own.word
  · subst hko
    simp only [hne, if_true, if_false, Field.put_one _ b1, Field.put_one _ b2, Field.put_one _ b3, Field.put_zero]
    obtain ⟨⟨_, _, _, a1, _⟩, _, _, ⟨a2, _⟩, ⟨a3, _⟩, _⟩ := hap
    have d1 := Field.lo_ne_of_apart _ _ b1 b4 w3.symm a1
    have d2 := Field.lo_ne_of_apart _ _ b2 b4 (w1.trans w3.symm) a2
    have d3 := Field.lo_ne_of_apart _ _ b4 b3 (w3.trans w2.symm) a3
    simp only [Params.rxSetupWord, Params.handoverMask]
    apply BitVec.eq_of_getLsbD_eq
    intro i hi
    simp only [BitVec.getLsbD_or, BitVec.getLsbD_and, BitVec.getLsbD_not, hi, decide_true, Bool.true_and,
      Field.mask_oneBit _ b1, Field.mask_oneBit _ b2, Field.mask_oneBit _ b3, Field.mask_oneBit _ b4]
    by_cases hi3 : i = p.rxLayout.buf2v.lo
    · subst hi3
      simp [d1.symm, d2.symm, d3]
    · simp only [hi3, decide_false, Bool.not_false, Bool.and_true, BitVec.ofNat_eq_ofNat, BitVec.getLsbD_zero,
        Bool.false_or]
      exact Bool.or_comm _ _
  · have h1 : ¬ (p.rxLayout.own.word = k) := fun e => hko e.symm
    simp only [h1, hko, if_false]
    by_cases hkb : k = p.rxLayout.buf1ap.word
    · subst hkb
      simp [Field.put_wholeWord _ hww]
    · have h2 : ¬ (p.rxLayout.buf1ap.word = k) := fun e => hkb e.symm
      simp [h2, hkb]

end Sys2Proof

namespace Sys2Proof.Machine

/-! ### Whole descriptors -/

theorem State.applyAll_wb (es : List WbEntry) (s : State) : (s.applyAll es).wb = s.wb := by
  obtain ⟨r, t, m, h, _, _⟩ := State.applyAll_rest es s
  rw [h]

/-- A flush after more has been written: the flushed rest, then the new entries. -/
theorem State.flush_append (s : State) (ws : List WbEntry) :
    State.flush { s with wb := s.wb ++ ws } = s.flush.applyAll ws := by
  simp only [State.flush, State.applyAll_withWb, State.applyAll_append]

/-- A descriptor zeroed word by word (R200, R210). -/
theorem zeroDescriptor_quiet (s : State) (hq : s.Quiet) (d : Dir) (i : Nat) :
    zeroDescriptor d i s = { s with wb := s.wb ++ [.word d i 0 0, .word d i 1 0, .word d i 2 0, .word d i 3 0] } := by
  have h : ∀ (w : List WbEntry) (k : Nat),
      swModify d i k (fun _ => 0) { s with wb := w } = { s with wb := w ++ [.word d i k 0] } := fun w k =>
    swModify_quiet { s with wb := w } hq d i k _
  have h0 : swModify d i 0 (fun _ => 0) s = { s with wb := s.wb ++ [.word d i 0 0] } := h s.wb 0
  simp only [zeroDescriptor, List.foldl_cons, List.foldl_nil, h0, h, List.append_assoc, List.cons_append, List.nil_append]

/-- Four words of a slot written with zero. -/
theorem State.word_zeroed (s : State) (d : Dir) (i : Nat) (hl : 4 * i + 4 ≤ (s.words d).length) (d' : Dir) (i' k : Nat)
    (hk : k < 4) :
    ((((s.setWord d i 0 0).setWord d i 1 0).setWord d i 2 0).setWord d i 3 0).word d' i' k =
      if d' = d ∧ i' = i then 0 else s.word d' i' k := by
  have e : ∀ (t : State) (n : Nat), n < 4 → (t.words d).length = (s.words d).length → (t.setWord d i n 0).word d' i' k =
      if d' = d ∧ i' = i ∧ k = n then 0 else t.word d' i' k := by
    intro t n hn ht
    split
    · next h => obtain ⟨rfl, rfl, rfl⟩ := h; exact State.word_setWord_same _ _ _ _ _ (by omega)
    · next h => exact State.word_setWord_ne _ _ _ _ _ _ _ _ hn hk h
  rw [e _ 3 (by omega), e _ 2 (by omega), e _ 1 (by omega), e _ 0 (by omega) rfl]
  rotate_left
  · simp only [State.length_words_setWord]
  · simp only [State.length_words_setWord]
  · simp only [State.length_words_setWord]
  by_cases h : d' = d ∧ i' = i
  · simp only [h, true_and, and_self, if_true]
    repeat' split
    all_goals first | rfl | omega
  · have h' : ∀ n, ¬ (d' = d ∧ i' = i ∧ k = n) := fun n e => h ⟨e.1, e.2.1⟩
    simp only [h, h', if_false]

/-- One slot of RXRING.NEW: the slot is in the read format in MEM, over everything pending before; nothing but its
metadata and the window changes besides (R200). -/
theorem armSlot_quiet (s : State) (hq : s.Quiet) (hp : s.params.wf = true) (hs : s.Sized) (i : Nat)
    (hi : i < s.params.nRx) :
    ∃ ws, rxSetup i (s.params.rxBuf i) (zeroDescriptor .rx i s) =
        .done () ({ s.flush.setRxMeta i ⟨none, none⟩ with rxWords := ws, handover := none }) ∧
      ws.length = s.rxWords.length ∧
      (∀ k, k < 4 → ws.getD (4 * i + k) 0 = (s.params.rxLayout.encRead (s.params.rxBuf i) 1 1 0 1).at k) ∧
      (∀ i' k, k < 4 → i' ≠ i → ws.getD (4 * i' + k) 0 = s.flush.word .rx i' k) := by
  obtain ⟨hb, hne⟩ := s.params.wf_rxRead hp
  have ho := (s.params.wf_own hp .rx).2.2
  let z : State := { s with wb := s.wb ++ [.word .rx i 0 0, .word .rx i 1 0, .word .rx i 2 0, .word .rx i 3 0] }
  have hz : zeroDescriptor .rx i s = z := zeroDescriptor_quiet s hq .rx i
  have hsz : z.Sized := ⟨hs.rxWords, hs.txWords, hs.rxMeta, hs.txMeta⟩
  let f := (((s.flush.setWord .rx i 0 0).setWord .rx i 1 0).setWord .rx i 2 0).setWord .rx i 3 0
  have hflush : z.flush = f := State.flush_append s _
  have hpend : pendingWord z.wb .rx i (s.params.ownWord .rx) = some 0 := by
    simp only [z, pendingWord, List.foldl_append, List.foldl_cons, List.foldl_nil]
    rcases (by omega : s.params.ownWord .rx = 0 ∨ s.params.ownWord .rx = 1 ∨ s.params.ownWord .rx = 2 ∨
      s.params.ownWord .rx = 3) with h | h | h | h <;> simp [h]
  have hsw : z.swOwnWord .rx i = 0 := congrArg (fun o : Option Word => o.getD (z.word .rx i (z.params.ownWord .rx))) hpend
  have hrun := rxSetup_quiet z hq hp hsz i hi (s.params.rxBuf i)
  rw [hflush, hsw] at hrun
  have hlen : (s.flush.words .rx).length = 4 * s.params.nRx := (State.length_words_flush s .rx).trans hs.rxWords
  have hlf : (f.words .rx).length = 4 * s.params.nRx := by simp only [f, State.length_words_setWord]; exact hlen
  let u := (f.setWord .rx i s.params.rxLayout.buf1ap.word (s.params.rxBuf i)).setWord .rx i (s.params.ownWord .rx)
    (s.params.rxSetupWord 0 ||| s.params.handoverMask .rx)
  have hword : ∀ i' k, u.rxWords.getD (4 * i' + k) 0 = u.word .rx i' k := fun _ _ => rfl
  refine ⟨u.rxWords, ?_, ?_, ?_, ?_⟩
  · rw [hz, hrun]; rfl
  · have : (u.words .rx).length = 4 * s.params.nRx := by simp only [u, State.length_words_setWord]; exact hlf
    exact this.trans hs.rxWords.symm
  · intro k hk
    rw [s.params.encRead_at hp _ k hk, hword]
    by_cases h1 : k = s.params.ownWord .rx
    · rw [if_pos h1, h1]
      exact State.word_setWord_same _ _ _ _ _ (by simp only [State.length_words_setWord]; omega)
    · rw [if_neg h1]
      refine (State.word_setWord_ne _ .rx .rx i i _ _ _ ho hk (fun e => h1 e.2.2)).trans ?_
      by_cases h2 : k = s.params.rxLayout.buf1ap.word
      · rw [if_pos h2, h2]
        exact State.word_setWord_same _ _ _ _ _ (by omega)
      · rw [if_neg h2]
        refine (State.word_setWord_ne _ .rx .rx i i _ _ _ hb hk (fun e => h2 e.2.2)).trans ?_
        exact (State.word_zeroed s.flush .rx i (by omega) .rx i k hk).trans (if_pos ⟨rfl, rfl⟩)
  · intro i' k hk hne'
    rw [hword]
    refine (State.word_setWord_ne _ .rx .rx i i' _ _ _ ho hk (fun e => hne' e.2.1)).trans ?_
    refine (State.word_setWord_ne _ .rx .rx i i' _ _ _ hb hk (fun e => hne' e.2.1)).trans ?_
    exact (State.word_zeroed s.flush .rx i (by omega) .rx i' k hk).trans (if_neg (fun e => hne' e.2))

/-- RXRING.NEW's loop: `n` slots from `i` on are armed with their own buffers, in MEM; the other slots, the other ring
and buffer memory are what the pending writes make of them (R200). -/
theorem armSlots_quiet (n : Nat) : ∀ (i : Nat) (s : State), s.Quiet → s.params.wf = true → s.Sized →
    i + n ≤ s.params.nRx →
    ∃ t ws ms, armSlots n i s = .done () t ∧
      t = { s with rxWords := ws, txWords := t.txWords, mem := t.mem, rxMeta := ms,
                   wb := if n = 0 then s.wb else [], handover := if n = 0 then s.handover else none } ∧
      ws.length = s.rxWords.length ∧ ms.length = s.rxMeta.length ∧
      t.flush.txWords = s.flush.txWords ∧ t.flush.mem = s.flush.mem ∧
      (∀ j k, i ≤ j → j < i + n → k < 4 →
        t.flush.word .rx j k = (s.params.rxLayout.encRead (s.params.rxBuf j) 1 1 0 1).at k) ∧
      (∀ j, i ≤ j → j < i + n → t.rxMetaAt j = ⟨none, none⟩) ∧
      (∀ j k, k < 4 → j < i ∨ i + n ≤ j → t.flush.word .rx j k = s.flush.word .rx j k) ∧
      (∀ j, j < i ∨ i + n ≤ j → t.rxMetaAt j = s.rxMetaAt j) := by
  induction n with
  | zero =>
    intro i s _ _ _ _
    exact ⟨s, s.rxWords, s.rxMeta, rfl, rfl, rfl, rfl, rfl, rfl,
      fun j k h1 h2 => by omega, fun j h1 h2 => by omega, fun _ _ _ _ => rfl, fun _ _ => rfl⟩
  | succ n ih =>
    intro i s hq hp hs hin
    obtain ⟨ws, e, hl, hw, hw'⟩ := armSlot_quiet s hq hp hs i (by omega)
    let a : State := { s.flush.setRxMeta i ⟨none, none⟩ with rxWords := ws, handover := none }
    have hsa : a.Sized := ⟨by simp [a, hl, hs.rxWords], (State.length_words_flush s .tx).trans (by simp [a, hs.txWords, State.words]),
      by simp [a, hs.rxMeta], by simp [a, hs.txMeta]⟩
    have hqa : a.Quiet := by simpa [State.Quiet, a] using hq
    have hpa : a.params = s.params := by simp [a]
    obtain ⟨t, ws', ms, e', ht, hl', hml, htx, hm, hin', hmin, hout, hmout⟩ :=
      ih (i + 1) a hqa (hpa ▸ hp) hsa (by rw [hpa]; omega)
    have haf : a.flush = a := State.flush_of_empty a rfl
    have hma : ∀ j, a.rxMetaAt j = if j = i then ⟨none, none⟩ else s.rxMetaAt j := fun j =>
      (State.rxMetaAt_setRxMeta s.flush i j ⟨none, none⟩ (by rw [State.flush_rxMeta, hs.rxMeta]; omega)).trans
        (by by_cases hj : j = i <;> simp [hj, State.rxMetaAt])
    have haw : ∀ j k, a.word .rx j k = ws.getD (4 * j + k) 0 := fun _ _ => rfl
    rw [haf] at htx hm hout
    refine ⟨t, ws', ms, ?_, ?_, hl'.trans hl, ?_, htx, hm, ?_, ?_, ?_, ?_⟩
    · simp only [armSlots, e, Run.andThen]; exact e'
    · obtain ⟨r, x, m, hf, _, _⟩ := s.flush_rest
      rw [ht]
      simp only [a, State.setRxMeta, hf, ite_self, Nat.add_one_ne_zero, if_false]
    · rw [hml]; simp [a]
    · intro j k h1 h2 hk
      by_cases hj : j = i
      · subst hj
        rw [hout j k hk (.inl (by omega)), haw]
        exact hw k hk
      · rw [hin' j k (by omega) (by omega) hk, hpa]
    · intro j h1 h2
      by_cases hj : j = i
      · subst hj
        rw [hmout j (.inl (by omega)), hma, if_pos rfl]
      · exact hmin j (by omega) (by omega)
    · intro j k hk hj
      rw [hout j k hk (by omega), haw, hw' j k hk (by omega)]
    · intro j hj
      rw [hmout j (by omega), hma, if_neg (by omega)]

/-- RXRING.NEW past its tests (R200): every slot armed with its own buffer, in MEM. -/
theorem rxringNew_quiet (s : State) (hq : s.Quiet) (hp : s.params.wf = true) (hs : s.Sized) :
    ∃ t ws ms, rxringNew s = .done () { t with rxNext := 0, rxHeld := none, readyRx := true } ∧
      t = { s with rxWords := ws, txWords := s.flush.txWords, mem := s.flush.mem, rxMeta := ms, wb := [], handover := none } ∧
      ws.length = s.rxWords.length ∧ ms.length = s.rxMeta.length ∧
      (∀ i k, i < s.params.nRx → k < 4 →
        t.word .rx i k = (s.params.rxLayout.encRead (s.params.rxBuf i) 1 1 0 1).at k) ∧
      (∀ i, i < s.params.nRx → t.rxMetaAt i = ⟨none, none⟩) := by
  obtain ⟨t, ws, ms, e, ht, hl, hm, h1, h2, h3, h4, _, _⟩ := armSlots_quiet s.params.nRx 0 s hq hp hs (by omega)
  have hn : ¬ s.params.nRx = 0 := by
    simp only [Params.wf_tests, Bool.and_eq_true, decide_eq_true_eq] at hp
    omega
  simp only [hn, if_false] at ht
  have hf : t.flush = t := State.flush_of_empty t (by rw [ht])
  rw [hf] at h1 h2 h3
  refine ⟨t, ws, ms, ?_, ?_, hl, hm, fun i k hi hk => h3 i k (Nat.zero_le i) (by omega) hk,
    fun i hi => h4 i (Nat.zero_le i) (by omega)⟩
  · simp only [rxringNew, e, Run.andThen]
  · rw [← h1, ← h2]; exact ht

/-- TXRING.NEW's loop: zeros are queued for `n` slots from `j` on, and their metadata is cleared (R210). -/
theorem clearSlots_quiet (n : Nat) : ∀ (j : Nat) (s : State), s.Quiet → s.Sized → j + n ≤ s.params.nTx →
    ∃ ws ms, clearSlots n j s = { s with wb := s.wb ++ ws, txMeta := ms } ∧ ms.length = s.txMeta.length ∧
      (∀ i, ms.getD i ⟨none, none, false⟩ =
        if j ≤ i ∧ i < j + n then ⟨none, none, false⟩ else s.txMetaAt i) ∧
      ∀ t : State, t.txWords.length = 4 * s.params.nTx →
        (t.applyAll ws).rxWords = t.rxWords ∧ (t.applyAll ws).mem = t.mem ∧
        ∀ i k, k < 4 → (t.applyAll ws).word .tx i k = if j ≤ i ∧ i < j + n then 0 else t.word .tx i k := by
  induction n with
  | zero =>
    intro j s _ _ _
    refine ⟨[], s.txMeta, by simp [clearSlots], rfl, fun i => ?_, fun t _ => ⟨rfl, rfl, fun i k _ => ?_⟩⟩
    · rw [if_neg (by omega)]; rfl
    · rw [if_neg (by omega)]; rfl
  | succ n ih =>
    intro j s hq hs hj
    let ze : List WbEntry := [.word .tx j 0 0, .word .tx j 1 0, .word .tx j 2 0, .word .tx j 3 0]
    let a : State := { s with wb := s.wb ++ ze, txMeta := s.txMeta.set j ⟨none, none, false⟩ }
    have hz : (zeroDescriptor .tx j s).setTxMeta j ⟨none, none, false⟩ = a := by
      rw [zeroDescriptor_quiet s hq]; rfl
    obtain ⟨ws, ms, e, hl, hm, hw⟩ := ih (j + 1) a hq ⟨hs.rxWords, hs.txWords, hs.rxMeta, by simp [a, hs.txMeta]⟩
      (by simp only [a]; omega)
    have hma : ∀ i, a.txMetaAt i = if i = j then ⟨none, none, false⟩ else s.txMetaAt i := fun i =>
      State.txMetaAt_setTxMeta s j i ⟨none, none, false⟩ (by rw [hs.txMeta]; omega)
    refine ⟨ze ++ ws, ms, ?_, ?_, fun i => ?_, fun t ht => ?_⟩
    · simp only [clearSlots, hz, e, a, List.append_assoc]
    · rw [hl]; simp [a]
    · rw [hm, hma]
      repeat' split
      all_goals first | rfl | omega
    · have hzt : t.applyAll ze = (((t.setWord .tx j 0 0).setWord .tx j 1 0).setWord .tx j 2 0).setWord .tx j 3 0 := rfl
      rw [State.applyAll_append, hzt]
      obtain ⟨h1, h2, h3⟩ := hw ((((t.setWord .tx j 0 0).setWord .tx j 1 0).setWord .tx j 2 0).setWord .tx j 3 0)
        ((State.length_words_setWord _ .tx .tx _ _ _).trans ((State.length_words_setWord _ .tx .tx _ _ _).trans
          ((State.length_words_setWord _ .tx .tx _ _ _).trans ((State.length_words_setWord _ .tx .tx _ _ _).trans ht))))
      refine ⟨h1, h2, fun i k hk => ?_⟩
      have hlt : (t.words .tx).length = 4 * s.params.nTx := ht
      rw [h3 i k hk, State.word_zeroed t .tx j (by omega) .tx i k hk]
      simp only [true_and]
      repeat' split
      all_goals first | rfl | omega

/-- TXRING.NEW past its tests (R210): every slot all zero, in MEM. -/
theorem txringNew_quiet (s : State) (hq : s.Quiet) (hs : s.Sized) :
    ∃ ws ms, txringNew s = { s with rxWords := s.flush.rxWords, txWords := ws, mem := s.flush.mem, txMeta := ms, wb := [],
                                    txNext := 0, txReclaim := 0, readyTx := true } ∧
      ws.length = s.txWords.length ∧ ms.length = s.txMeta.length ∧
      (∀ i k, i < s.params.nTx → k < 4 → ws.getD (4 * i + k) 0 = 0) ∧
      (∀ i, i < s.params.nTx → ms.getD i ⟨none, none, false⟩ = ⟨none, none, false⟩) := by
  obtain ⟨ws, ms, e, hl, hm, hw⟩ := clearSlots_quiet s.params.nTx 0 s hq hs (by omega)
  let c : State := { s with wb := s.wb ++ ws, txMeta := ms }
  let f : State := { s with txMeta := ms }
  have hqc : c.Quiet := hq
  have hf : f.flush = { s.flush with txMeta := ms } :=
    (AwayFromMemory.flush (f := fun t => { t with txMeta := ms }) ⟨fun _ => rfl, fun _ _ _ _ _ => rfl⟩ s)
  have hlf : f.flush.txWords.length = 4 * s.params.nTx := (State.length_words_flush f .tx).trans hs.txWords
  have hflush : barrierDsb (fenceWw c) = f.flush.applyAll ws := by
    let cf : State := { c with wb := c.wb ++ [.fence] }
    have hqf : cf.Quiet := hq
    refine (congrArg barrierDsb (fenceWw_quiet c hqc)).trans ?_
    refine (barrierDsb_quiet cf hqf).trans ?_
    refine (State.flush_append_fence c).trans ?_
    exact State.flush_append f ws
  obtain ⟨h1, h2, h3⟩ := hw f.flush hlf
  obtain ⟨r, x, m, hap, hr, hx⟩ := State.applyAll_rest ws f.flush
  refine ⟨x, ms, ?_, hx.trans (hlf.trans hs.txWords.symm), hl, fun i k hi hk => ?_, fun i hi => ?_⟩
  · have e' : barrierDsb (fenceWw (clearSlots s.params.nTx 0 s)) = f.flush.applyAll ws := by rw [e]; exact hflush
    simp only [txringNew, e']
    rw [hap] at h1 h2 ⊢
    simp only at h1 h2
    subst h1 h2
    rw [hf]
    obtain ⟨r', x', m', hs', _, _⟩ := s.flush_rest
    simp only [hs']
  · have := h3 i k hk
    rw [hap, if_pos ⟨Nat.zero_le i, by omega⟩] at this
    exact this
  · rw [hm, if_pos ⟨Nat.zero_le i, by omega⟩]

/-- ENG.TX_STATE's count: the slots from `j` on that SW reads as hardware-owned (R236). -/
theorem countOwned_quiet (n : Nat) : ∀ (j : Nat) (s : State), s.Quiet →
    countOwned n j s = ((List.range' j n).countP (fun i => s.swOwned .tx i), s) := by
  induction n with
  | zero => intro j s _; rfl
  | succ n ih =>
    intro j s hq
    simp only [countOwned, isOwned_quiet s hq, ih (j + 1) s hq, List.range'_succ, List.countP_cons]
    have : s.params.ownedByHw .tx (s.swWord .tx j (s.params.ownWord .tx)) = s.swOwned .tx j := rfl
    rw [this]
    cases s.swOwned .tx j <;> rfl

/-- Re-arming the held slot (R205). -/
theorem rearmHeld_quiet (s : State) (hq : s.Quiet) (hp : s.params.wf = true) (hs : s.Sized)
    (hh : ∀ h, s.rxHeld = some h → h < s.params.nRx) :
    rearmHeld s = .done () (match s.rxHeld with
      | none => s
      | some h =>
        { ((s.flush.setWord .rx h s.params.rxLayout.buf1ap.word (s.params.rxBuf h)).setWord .rx h (s.params.ownWord .rx)
            (s.params.rxSetupWord (s.swOwnWord .rx h) ||| s.params.handoverMask .rx)).setRxMeta h ⟨none, none⟩
          with handover := none, rxHeld := none }) := by
  simp only [rearmHeld]
  cases hr : s.rxHeld with
  | none => rfl
  | some h => simp only [rxSetup_quiet s hq hp hs h (hh h hr), Run.andThen]

/-! ### The buffer of a sent frame -/

theorem pendingWord_append_bytes (wb es : List WbEntry) (d : Dir) (i k : Nat)
    (h : ∀ e ∈ es, ∀ d' i' k' v, e ≠ .word d' i' k' v) : pendingWord (wb ++ es) d i k = pendingWord wb d i k := by
  induction es generalizing wb with
  | nil => simp
  | cons e es ih =>
    rw [← List.singleton_append, ← List.append_assoc, ih _ (fun e he => h e (List.mem_cons_of_mem _ he)), pendingWord_append]
    cases e with
    | word d' i' k' v => exact absurd rfl (h _ (List.mem_cons_self ..) d' i' k' v)
    | byte a v => rfl
    | fence => rfl

end Sys2Proof.Machine
end

