-- ==== Sys2Proof/Laws/Views.lean ====
section
/-! SUPPORT. What SW sees through the write buffer, and that draining everything puts exactly that into MEM
(spec/20_memory.md rules R66, R69). -/

namespace Sys2Proof.Machine

/-- The youngest pending write of a word is found from the oldest entry on, too. -/
theorem pendingWord_cons (e : WbEntry) (wb : List WbEntry) (d : Dir) (i k : Nat) :
   pendingWord (e :: wb) d i k = (match pendingWord wb d i k with | some v => some v | none => match e with | .word d' i' k' v => if d' = d ∧ i' = i ∧ k' = k then some v else none | _ => none) := by
  induction wb using List.reverseRecOn with
  | nil => cases e <;> simp [pendingWord]
  | append_singleton wb f ih =>
    rw [← List.cons_append, pendingWord_append, pendingWord_append, ih]
    cases f with
    | word d' i' k' v => simp only; by_cases h : d' = d ∧ i' = i ∧ k' = k <;> simp [h]
    | _ => rfl

/-- The youngest pending write of a byte is found from the oldest entry on, too. -/
theorem pendingByte_cons (e : WbEntry) (wb : List WbEntry) (a : Nat) :
   pendingByte (e :: wb) a = (match pendingByte wb a with | some v => some v | none => match e with | .byte a' v => if a' = a then some v else none | _ => none) := by
  induction wb using List.reverseRecOn with
  | nil => cases e <;> simp [pendingByte]
  | append_singleton wb f ih =>
    rw [← List.cons_append, pendingByte_append, pendingByte_append, ih]
    cases f with
    | byte a' v => simp only; by_cases h : a' = a <;> simp [h]
    | _ => rfl

/-- What a drained entry does to a word of a descriptor. -/
theorem WbEntry.word_apply (e : WbEntry) (s : State) (he : e.Sound s.params) (hs : s.Sized) (d : Dir) (i k : Nat)
    (hi : i < s.params.capacity d) (hk : k < 4) :
   (e.apply s).word d i k = (match e with | .word d' i' k' v => if d' = d ∧ i' = i ∧ k' = k then v else s.word d i k | _ => s.word d i k) := by
  cases e with
  | word d' i' k' v =>
    obtain ⟨h1, h2⟩ := he
    simp only [WbEntry.apply]
    split
    · next h => obtain ⟨rfl, rfl, rfl⟩ := h; exact State.word_setWord_same _ _ _ _ _ (by rw [s.words_length hs]; omega)
    · next h => exact State.word_setWord_ne _ _ _ _ _ _ _ _ h2 hk (fun e => h ⟨e.1.symm, e.2.1.symm, e.2.2.symm⟩)
  | byte a v =>
    simp only [WbEntry.apply, State.putByte, he.1]
    cases d <;> rfl
  | fence => rfl

/-- What a drained entry does to a byte outside the descriptor arrays. -/
theorem WbEntry.byteAt_apply (e : WbEntry) (s : State) (he : e.Sound s.params) (a : Nat)
    (ha : s.params.descriptorByte a = none) :
   (e.apply s).byteAt a = (match e with | .byte a' v => if a' = a then some v else s.byteAt a | _ => s.byteAt a) := by
  cases e with
  | word d' i' k' v =>
    simp only [WbEntry.apply, State.byteAt, State.setWord_params, ha, State.setWord_mem]
  | byte a' v =>
    simp only [WbEntry.apply, State.putByte, he.1, State.byteAt, ha]
    split
    · next h => subst h; exact Memory.read_write_same _ _ _
    · next h => exact Memory.read_write_ne _ _ _ _ (fun e => h e.symm)
  | fence => rfl

/-- MEM after entries have drained in list order is what SW saw through them. -/
theorem State.applyAll_view (es : List WbEntry) : ∀ s : State, (∀ e ∈ es, e.Sound s.params) → s.Sized →
   (∀ d i k, i < s.params.capacity d → k < 4 → (s.applyAll es).word d i k = (pendingWord es d i k).getD (s.word d i k)) ∧
   (∀ a, s.params.descriptorByte a = none → (s.applyAll es).byteAt a = (match pendingByte es a with | some v => some v | none => s.byteAt a)) := by
  induction es with
  | nil => intro s _ _; exact ⟨fun _ _ _ _ _ => rfl, fun _ _ => rfl⟩
  | cons e es ih =>
    intro s he hs
    obtain ⟨r, t, m, hap, hr, ht⟩ := e.apply_rest s
    have hp : (e.apply s).params = s.params := by rw [hap]
    have hs' : (e.apply s).Sized := by
      rw [hap]; exact ⟨hr.trans hs.rxWords, ht.trans hs.txWords, hs.rxMeta, hs.txMeta⟩
    obtain ⟨h1, h2⟩ := ih (e.apply s) (fun f hf => hp ▸ he f (List.mem_cons_of_mem _ hf)) hs'
    rw [hp] at h1 h2
    have he0 := he e (List.mem_cons_self ..)
    constructor
    · intro d i k hi hk
      simp only [State.applyAll]
      rw [h1 d i k hi hk, WbEntry.word_apply e s he0 hs d i k hi hk, pendingWord_cons]
      cases pendingWord es d i k with
      | some v => rfl
      | none => cases e with
        | word d' i' k' v => simp only [Option.getD_none]; split <;> rfl
        | _ => rfl
    · intro a ha
      simp only [State.applyAll]
      rw [h2 a ha, WbEntry.byteAt_apply e s he0 a ha, pendingByte_cons]
      cases pendingByte es a with
      | some v => rfl
      | none => cases e with
        | byte a' v => simp only; split <;> simp_all
        | _ => rfl

/-- With everything drained MEM holds each word as SW saw it (R66, R141). -/
theorem State.flush_word (s : State) (hw : s.WbSound) (hs : s.Sized) (d : Dir) (i k : Nat)
    (hi : i < s.params.capacity d) (hk : k < 4) : s.flush.word d i k = s.swWord d i k := by
  have := (State.applyAll_view s.wb s hw hs).1 d i k hi hk
  exact Eq.trans (by cases d <;> rfl) this

/-- With everything drained MEM holds each byte as SW saw it (R66, R141). -/
theorem State.flush_byte (s : State) (hw : s.WbSound) (hs : s.Sized) (a : Nat)
    (ha : s.params.descriptorByte a = none) : s.flush.byteAt a = s.swByte a := by
  have := (State.applyAll_view s.wb s hw hs).2 a ha
  refine Eq.trans ?_ this
  have hp : (s.applyAll s.wb).params = s.params := by
    obtain ⟨r, t, m, hap, hr, ht⟩ := State.applyAll_rest s.wb s
    rw [hap]
  simp only [State.byteAt, State.flush_params, ha, hp]
  rfl

end Sys2Proof.Machine
end

