-- ==== Sys2Proof/Tests/Slice0.lean ====
section
/-! SUPPORT. The model's own tests. Expected results are the vectors and programs of spec/95_test_vectors.md, cited by
their number; command words are written out from the formats of R111. Each test is one step or one check; the last part
gives, for every statement with hypotheses, concrete values that meet them. -/

-- One theorem at a time: many kernel evaluations at once would each hold a thread's stack.
set_option Elab.async false

open Sys2Proof Sys2Proof.Machine

namespace Sys2Proof.Tests

/-! ### Helpers -/

/-- The state after the step that runs the command word `w`. -/
def run (w : Word) (s : State) : State :=
  match step (s.withFetchWord 32 w.toNat) with
  | .next t => t
  | .fault _ => s
  | .refused _ => s

/-- The four words of a descriptor in MEM. -/
def descriptor (s : State) (d : Dir) (i : Nat) : List Word := [s.word d i 0, s.word d i 1, s.word d i 2, s.word d i 3]

/-- Operands on the ports. -/
def State.withArgs (s : State) (a0 a1 : Word) (p : Option PacketId) : State :=
  { s with ports := { s.ports with arg0 := a0, arg1 := a1, pid := p } }

/-- The common instance, both rings constructed, the engine bound: the table of R51. -/
def live : State :=
  { State.reset with
    rxWords := [0x20001000, 0, 0, 0xC1000000, 0x20001600, 0, 0, 0xC1000000,
      0x20001C00, 0, 0, 0xC1000000, 0x20002200, 0, 0, 0xC1000000]
    readyRx := true
    readyTx := true
    bound := true }

/-- Receive slot 0 in MEM holds the given words. -/
def received (w0 w1 w2 w3 : Word) : State := { live with rxWords := [w0, w1, w2, w3] ++ live.rxWords.drop 4 }

/-- Transmit slot 0 in MEM holds the given words, sent with an identifier and not reclaimed. -/
def submitted (w0 w1 w2 w3 : Word) (p : Option PacketId) : State :=
  { live with
    txWords := [w0, w1, w2, w3] ++ live.txWords.drop 4
    txMeta := [⟨p, none, true⟩, ⟨none, none, false⟩, ⟨none, none, false⟩, ⟨none, none, false⟩]
    txNext := 1 }

/-- The same state on the variant with timestamps and a valid bit. -/
def stamping (s : State) : State := { s with params := { s.params with timestamping := true, hasTsValid := true } }

/-- Receive slot 0 is lent to the caller, slot 1 holds a whole frame of 3 bytes (P1 step 9, shorter). -/
def holding : State :=
  { live with
    rxWords := [0, 0, 0, 0x30000002, 0, 0, 0, 0x30000003] ++ live.rxWords.drop 8
    mem := [(0x20001600, 0xA1), (0x20001601, 0xA2), (0x20001602, 0xA3)]
    rxNext := 1
    rxHeld := some 0
    rxMeta := [⟨some 7, none⟩, ⟨none, none⟩, ⟨none, none⟩, ⟨none, none⟩] }

/-! ### Well-formedness: an ill-formed term for each check -/

theorem test_wf_slot : (Instr.rxdIsOwned 4).wf referenceInstance = false ∧
    (Instr.rxdIsOwned 3).wf referenceInstance = true ∧
    (Instr.rawRead .tx 4 0).wf referenceInstance = false ∧ (Instr.rxringNew).wf referenceInstance = true := by decide

theorem test_wf_encodable : (Instr.txdSend 65536).encodable = false ∧
    (Instr.txdSend 65535).encodable = true := by decide

theorem test_wf_reference : referenceInstance.wf = true := by decide +kernel

/-- R8: each bound refuses an instance. -/
theorem test_wf_bounds :
    ({ referenceInstance with nRx := 1, rxBufAddr := [0x20001000] } : Params).wf = false ∧
    ({ referenceInstance with rxBufSize := 0 } : Params).wf = false ∧
    ({ referenceInstance with txBufSize := 16384 } : Params).wf = false ∧
    ({ referenceInstance with txBufAddr := [] } : Params).wf = false := by decide +kernel

/-- R82, R311: a misaligned base, overlapping buffers, a buffer past the address space. -/
theorem test_wf_addresses :
    ({ referenceInstance with rxDescBase := 0x20000002 } : Params).wf = false ∧
    ({ referenceInstance with txBufAddr := [0x20001000, 0x20004600, 0x20004C00, 0x20005200] } : Params).wf = false ∧
    ({ referenceInstance with txBufAddr := [0xFFFFFF00, 0x20004600, 0x20004C00, 0x20005200] } : Params).wf = false := by
  decide +kernel

/-- R92: (a) outside a word, (b) overlapping fields, (d) IOC and (f) LD outside the OWN word, (e) a length of 13 bits, (g) a
timestamp in the OWN word, (h) a transmit length of 13 bits. -/
theorem test_wf_layout :
    ({ defaultRxLayout with own := ⟨3, 32, 32⟩ } : RxLayout).wf true = false ∧
    ({ defaultRxLayout with fd := ⟨3, 28, 28⟩ } : RxLayout).wf true = false ∧
    ({ defaultRxLayout with ioc := ⟨1, 30, 30⟩ } : RxLayout).wf true = false ∧
    ({ defaultRxLayout with ld := ⟨1, 28, 28⟩ } : RxLayout).wf true = false ∧
    ({ defaultRxLayout with len := ⟨3, 12, 0⟩ } : RxLayout).wf true = false ∧
    ({ defaultRxLayout with tsSec := ⟨3, 31, 0⟩ } : RxLayout).wf true = false ∧
    ({ defaultTxLayout with b1l := ⟨2, 12, 0⟩ } : TxLayout).wf true = false ∧
    ({ defaultTxLayout with tsSec := ⟨3, 31, 0⟩ } : TxLayout).wf true = false := by decide +kernel

/-! ### Decoding: V30.1 to V30.19, words written out from R111 -/

theorem test_decode_raw :
    decode 0x00020300 = .ok (.rawRead .rx 2 3) ∧ decode 0x00010601 = .ok (.rawModify .tx 1 2) := by decide

theorem test_decode_ordering :
    decode 0x08 = .ok .fenceWw ∧ decode 0x09 = .ok .barrierDsb ∧ decode 0x0A = .ok .fenceFull ∧ decode 0x0B = .ok .fenceRr ∧
    decode 0x0003040C = .ok (.ownTransfer .tx 3) ∧ decode 0x0000000C = .ok (.ownTransfer .rx 0) := by decide

theorem test_decode_rx_descriptor :
    decode 0x00030010 = .ok (.rxdIsOwned 3) ∧ decode 0x00000011 = .ok (.rxdSetup 0) ∧
    decode 0x00010012 = .ok (.rxdTakeReceived 1) ∧ decode 0x00030013 = .ok (.rxdFrameLength 3) ∧
    decode 0x00020014 = .ok (.rxdPacketId 2) ∧ decode 0xFFFF0015 = .ok (.rxdTimestamp 65535) := by decide

theorem test_decode_tx_descriptor :
    decode 0x00010020 = .ok (.txdIsOwned 1) ∧ decode 0x00030021 = .ok (.txdSend 3) ∧
    decode 0x00020022 = .ok (.txdTakeCompleted 2) := by decide

theorem test_decode_rings :
    decode 0x30 = .ok .rxringNew ∧ decode 0x31 = .ok .rxringRecvNext ∧ decode 0x38 = .ok .txringNew ∧
    decode 0x39 = .ok .txringSend ∧ decode 0x3A = .ok .txringReclaim := by decide

theorem test_decode_engine :
    decode 0x40 = .ok .engNew ∧ decode 0x41 = .ok .engSend ∧ decode 0x42 = .ok .engRecvNext ∧
    decode 0x43 = .ok .engEnableInterrupt ∧ decode 0x44 = .ok .engDisableInterrupt ∧ decode 0x45 = .ok .engInterruptAck ∧
    decode 0x46 = .ok .engTxState ∧ decode 0x47 = .ok .engTxReclaim := by decide

theorem test_decode_illegal :
    decode 0x02 = .error .unassignedOp ∧ decode 0x830 = .error .reservedBits ∧ decode 0x00010030 = .error .unusedField ∧
    decode 0x111 = .error .unusedField ∧ decode 0x410 = .error .unusedField ∧ decode 0x30C = .error .unusedField := by decide

/-- V30.18, V45.11: a slot out of range, and a bad word on a halted block, are both BadCommand. -/
theorem test_bad_command :
    (run 0x00040010 live).reply = some (.contract .badCommand) ∧
    (run 0x02 { live with halted := true }).reply = some (.contract .badCommand) := by decide +kernel

/-! ### Fields and records: V30.20 to V30.27 -/

theorem test_fields :
    defaultRxLayout.len.get 0x3000002A = 42 ∧ defaultRxLayout.len.get 0x30007FFF = 16383 ∧
    defaultTxLayout.b1l.put 0xFFFFFFFF 0x2A = 0xFFFFC02A ∧ defaultTxLayout.b1l.put 0 0x4000 = 0 ∧
    defaultRxLayout.own.get 0xC1000000 = 1 ∧ defaultRxLayout.own.get 0x3000002A = 0 := by decide

theorem test_records :
    defaultRxLayout.encRead 0x20001000 1 1 0 1 = ⟨0x20001000, 0, 0, 0xC1000000⟩ ∧
    defaultTxLayout.encRead 0x20004000 42 1 1 1 = ⟨0x20004000, 0, 0x2A, 0xB0000000⟩ ∧
    (defaultRxLayout.decWriteBack ⟨0, 0, 0, 0x3000802A⟩).len = 42 ∧
    (defaultTxLayout.decWriteBack ⟨5, 6, 0, 0x30028000⟩) = ⟨false, true, true, true, 5, 6⟩ := by decide +kernel

/-- The decision table of R163. -/
theorem test_classification :
    [0x3000002A, 0x3000802A, 0x200005F2, 0x10000040, 0x000005F2, 0x40000000, 0x7000002A].map referenceInstance.rxWholeFrame =
      [true, false, false, false, false, false, false] := by decide +kernel

/-! ### Raw accessor -/

/-- V40.1, V40.2. -/
theorem test_raw_read :
    (run 0x00020300 live).reply = some (.word 0xC1000000) ∧ (run 0x00020000 live).reply = some (.word 0x20001C00) := by
  decide +kernel

/-- V40.3: the write is queued, MEM keeps the old word, SW reads its own. -/
theorem test_raw_modify :
    let s := { live with ports := { live.ports with fn := .or (.and .arg (.lit 0xFFFFC000)) (.lit 0x2A) } }
    (run 0x00010601 s).wb = [.word .tx 1 2 0x2A] ∧ (run 0x00010601 s).word .tx 1 2 = 0 ∧
    (run 0x00010600 (run 0x00010601 s)).reply = some (.word 0x2A) := by decide +kernel

/-- V40.5, V40.6. -/
theorem test_raw_refused :
    (run 0x00000000 { live with halted := true }).reply = some .refusedHalted ∧
    (run 0x00000400 { live with readyTx := false }).reply = some (.contract .ringNotConstructed) := by decide +kernel

/-! ### Ordering and hand-over -/

/-- V41.1. -/
theorem test_fence_ww : (run 0x08 { live with wb := [.byte 1 1] }).wb = [.byte 1 1, .fence] := by decide +kernel

/-- V41.3. -/
theorem test_barrier :
    let t := run 0x09 { live with wb := [.byte 1 1, .fence, .word .tx 0 2 5] }
    t.wb = [] ∧ t.mem = [(1, 1)] ∧ t.word .tx 0 2 = 5 := by decide +kernel

/-- V41.4. -/
theorem test_fence_full_rr :
    run 0x0A live = live.answer .ok ∧ run 0x0B live = live.answer .ok := by decide +kernel

/-- V41.2, R69: two writes may reach MEM in either order, not past a fence, and not two to one place. -/
theorem test_drain_order :
    let s := { live with wb := [.byte 1 1, .byte 2 2, .byte 1 3, .fence, .byte 4 4] }
    (s.drain 1).mem = [(2, 2)] ∧ (s.drain 2) = s ∧ (s.drain 4) = s ∧ (s.drain 3) = s := by decide +kernel

/-- R78: "a multi-byte buffer access is a sequence of byte accesses with no atomicity": a write-back into the buffer
before the read, and one between its two bytes. -/
theorem test_mem_read_by_bytes :
    let s := { live with mem := [(0x20001000, 1), (0x20001001, 2)] }
    let w := EnvStep.rxWriteback 0 [8, 9] ⟨0, 0, 0, 0x30000002⟩
    (memRead 0x20001000 2 s).1 = [1, 2] ∧ (memRead 0x20001000 2 { s with schedule := [[w]] }).1 = [8, 9] ∧
    (memRead 0x20001000 2 { s with schedule := [[], [w]] }).1 = [1, 9] := by decide +kernel

/-- V41.7, V41.6. -/
theorem test_own_transfer :
    (run 0x0C (received 0 0 0 0x3000002A)).word .rx 0 3 = 0xF000002A ∧
    (run 0x040C (submitted 0 0 0 0x30000000 none)).word .tx 0 3 = 0xB0000000 := by decide +kernel

/-- V41.10, V41.9: a write-back between steps 4 and 5 halts the block without HANDOVER_ATOMIC, and is not enabled with
it. -/
theorem test_own_transfer_fatal :
    let s := { submitted 0 0 0 0x30000000 none with
      schedule := [[], [], [], [], [.txWriteback 0 ⟨0, 0, 0, 0x30000000⟩ false]] }
    (run 0x040C s).reply = some .ok ∧
    (run 0x040C { s with params := { s.params with handoverAtomic := false } }).reply =
      some (.fatal (.ownershipReadback .tx 0)) := by decide +kernel

/-! ### Receive descriptor -/

/-- R160. -/
theorem test_rxd_is_owned :
    (run 0x10 live).reply = some (.bool true) ∧ (run 0x10 (received 0 0 0 0x3000002A)).reply = some (.bool false) := by
  decide +kernel

/-- V42.3, V42.4. -/
theorem test_rxd_setup :
    descriptor (run 0x11 (State.withArgs (received 0 8 9 0x3200002A) 0x20001000 0 none)) .rx 0 =
      [0x20001000, 8, 9, 0xF100002A] ∧
    (run 0x11 (received 0 0 0 0x7FFFFFFF)).word .rx 0 3 = 0xFDFFFFFF := by decide +kernel

/-- V42.6, V42.7. -/
theorem test_rxd_take_received :
    let t := run 0x12 (State.withArgs (received 0 0 0 0x3000002A) 0x20001000 0 (some 7))
    let u := run 0x12 (State.withArgs (received 0 0 0 0x3000802A) 0x20001000 0 (some 7))
    t.reply = some .ok ∧ t.rxMetaAt 0 = ⟨some 7, none⟩ ∧ t.rxWords = (received 0 0 0 0x3000002A).rxWords ∧
    u.reply = some (.rxErr .truncated) ∧ descriptor u .rx 0 = [0x20001000, 0, 0, 0xF100802A] ∧
    u.rxMetaAt 0 = ⟨none, none⟩ := by decide +kernel

/-- V42.9: with the valid bit set, and clear. -/
theorem test_rxd_take_received_timestamp :
    (run 0x12 (stamping (received 0x0BEBC200 0x4000 0x10 0x3000002A))).rxMetaAt 0 = ⟨none, some ⟨16, 0x0BEBC200⟩⟩ ∧
    (run 0x12 (stamping (received 0x0BEBC200 0 0x10 0x3000002A))).rxMetaAt 0 = ⟨none, none⟩ := by decide +kernel

/-- V42.11, V42.12. -/
theorem test_rxd_frame_length :
    (run 0x13 (received 0 0 0 0x31007FFF)).reply = some (.length 16383) ∧
    (run 0x13 (received 0 0 0 0xF100002A)).reply = some (.length 0) := by decide +kernel

/-- P1 step 7, R167. -/
theorem test_rxd_metadata :
    (run 0x14 holding).reply = some (.packetId (some 7)) ∧
    (run 0x15 { live with rxMeta := [⟨none, some ⟨16, 5⟩⟩] }).reply = some (.timestamp (some ⟨16, 5⟩)) := by decide +kernel

/-! ### Transmit descriptor -/

/-- V43.10. -/
theorem test_txd_is_owned :
    (run 0x20 (submitted 0 0 0 0xB0000000 none)).reply = some (.bool true) ∧
    (run 0x20 (submitted 0 0 0 0x30000000 none)).reply = some (.bool false) := by decide +kernel

/-- V43.2, V43.3. -/
theorem test_txd_send :
    descriptor (run 0x21 (State.withArgs (submitted 0 7 0x2A 0x30028000 none) 0x20002000 60 (some 1))) .tx 0 =
      [0x20002000, 7, 0x3C, 0xB0000000] ∧
    (run 0x21 (submitted 0 0 0 0x7FFFFFFF none)).word .tx 0 3 = 0xFFFD0000 := by decide +kernel

/-- V43.4. -/
theorem test_txd_send_length :
    (run 0x21 (State.withArgs live 0 16384 none)).reply = some (.contract .lengthExceedsField) ∧
    (run 0x21 (State.withArgs live 0 16383 none)).word .tx 0 2 = 0x3FFF := by decide +kernel

/-- V43.7, V43.8. -/
theorem test_txd_take_completed :
    (run 0x22 (State.withArgs (stamping (submitted 0x0BEBC200 0x10 0 0x30020000 (some 5))) 0 0 (some 5))).reply =
      some (.timestamp (some ⟨16, 0x0BEBC200⟩)) ∧
    (run 0x22 (State.withArgs (stamping (submitted 0x0BEBC200 0x10 0 0x30020000 (some 5))) 0 0 (some 6))).reply =
      some (.timestamp none) ∧
    (run 0x22 (State.withArgs (submitted 0 0 0 0x30028000 (some 5)) 0 0 (some 5))).reply = some (.txErr .errorSummary) := by
  decide +kernel

/-! ### Rings -/

/-- V44.1, from power-on. -/
theorem test_rxring_new :
    let t := run 0x30 State.reset
    t.reply = some .ok ∧ t.rxWords = live.rxWords ∧ t.readyRx = true ∧ t.wb = [] := by decide +kernel

/-- V44.2, from a state where the ring was used. -/
theorem test_txring_new :
    let t := run 0x38 { submitted 1 2 3 4 (some 5) with bound := false }
    t.txWords = live.txWords ∧ t.txNext = 0 ∧ t.txMetaAt 0 = ⟨none, none, false⟩ ∧ t.wb = [] := by decide +kernel

/-- P1 step 10: the view, the re-arm of the held slot, the cursor. -/
theorem test_rxring_recv_next :
    let t := run 0x31 holding
    t.reply = some (.frame ⟨1, 3, [0xA1, 0xA2, 0xA3]⟩) ∧ descriptor t .rx 0 = [0x20001000, 0, 0, 0xF1000002] ∧
    t.rxHeld = some 1 ∧ t.rxNext = 2 := by decide +kernel

/-- P2's variant with a held slot: a first segment. -/
theorem test_rxring_recv_next_truncated :
    let t := run 0x31 { holding with rxWords := holding.rxWords.set 7 0x200005F2 }
    t.reply = some (.rxErr .truncated) ∧ t.word .rx 1 3 = 0xE10005F2 ∧ t.word .rx 0 3 = 0xF1000002 ∧
    t.rxHeld = none ∧ t.rxNext = 2 := by decide +kernel

/-- R211's example, shorter, and V44.8. -/
theorem test_txring_send :
    let t := run 0x39 (State.withArgs { live with txNext := 3, ports := { live.ports with fill := .write [1, 2] } } 2 0 none)
    t.reply = some .ok ∧ descriptor t .tx 3 = [0x20005200, 0, 2, 0xB0000000] ∧ t.mem = [(0x20005200, 1), (0x20005201, 2)] ∧
    t.txNext = 0 ∧ t.busy 3 = true := by decide +kernel

/-- V44.5, and R212: a completion never looked at is dropped. -/
theorem test_txring_send_limits :
    (run 0x39 (State.withArgs live 1537 0 none)).reply = some (.contract .lengthExceedsCapacity) ∧
    (run 0x39 { submitted 0 0 0 0x30000000 none with txNext := 0 }).txReclaim = 1 := by decide +kernel

/-- V44.4, R213's example. -/
theorem test_txring_reclaim :
    (run 0x3A live).reply = some (.txErr .wouldBlock) ∧
    (run 0x3A (submitted 0 0 0 0x30000000 none)).reply = some (.timestamp none) ∧
    (run 0x3A (submitted 0 0 0 0x30000000 none)).txReclaim = 1 := by decide +kernel

/-! ### Engine -/

/-- V45.1, V45.4. -/
theorem test_eng_new :
    (run 0x40 State.reset).reply = some (.contract .ringNotConstructed) ∧
    (run 0x40 { live with bound := false, ri := true }).bound = true ∧
    (run 0x40 { live with bound := false, ri := true }).ri = false := by decide +kernel

/-- V45.3: INIT_OK false. -/
theorem test_eng_new_init_error :
    let s := { live with bound := false, params := { referenceInstance with initOk := ⟨true, [0]⟩ } }
    (run 0x40 s).reply = some .initErr ∧ (run 0x40 s).bound = false := by decide +kernel

/-- P3 step 6: a full ring. -/
theorem test_eng_send :
    (run 0x41 { submitted 0 0 0 0xB0000000 none with txNext := 0 }).reply = some (.txErr .wouldBlock) := by
  decide +kernel

/-- P1 step 4, V44.9. -/
theorem test_eng_recv_next :
    (run 0x42 live).reply = some (.rxErr .wouldBlock) ∧
    (run 0x42 (received 0 0 0 0x30000601)).reply = some (.fatal (.lengthExceedsBuffer 0 1537)) ∧
    (run 0x42 (received 0 0 0 0x30000601)).halted = true := by decide +kernel

/-- V45.6, V45.8, V45.7. -/
theorem test_eng_interrupts :
    (run 0x43 { live with ri := true }).irq = true ∧
    (run 0x44 { live with ri := true, intEnable := true }).irq = false ∧
    (run 0x44 { live with ri := true, intEnable := true }).ri = true ∧
    run 0x45 { live with ri := true, ti := true, intEnable := true } = State.answer { live with intEnable := true } .ok := by
  decide +kernel

/-- V45.9: two sends, the first completed. -/
theorem test_eng_tx_state :
    (run 0x46 { submitted 0 0 0 0x30000000 none with
      txWords := [0, 0, 0, 0x30000000, 0, 0, 0, 0xB0000000] ++ live.txWords.drop 8
      txMeta := [⟨none, none, true⟩, ⟨none, none, true⟩, ⟨none, none, false⟩, ⟨none, none, false⟩]
      txNext := 2 }).reply = some (.txState ⟨2, 0, 2, 1⟩) := by decide +kernel

/-- P4 step 9: the error summary wins over a valid timestamp. -/
theorem test_eng_tx_reclaim :
    let t := run 0x47 (State.withArgs (stamping (submitted 0x12345678 0x11 0 0x30028000 (some 10))) 0 0 (some 10))
    t.reply = some (.txErr .errorSummary) ∧ t.txReclaim = 1 ∧ t.busy 0 = false := by decide +kernel

/-! ### The DMA agent -/

/-- V46.2, V46.5. -/
theorem test_dma_rx_writeback :
    let t := live.envStep (.rxWriteback 0 [1, 2, 3] ⟨0, 0, 0, 0xB0000003⟩)
    t.mem = [(0x20001000, 1), (0x20001001, 2), (0x20001002, 3)] ∧ descriptor t .rx 0 = [0, 0, 0, 0x30000003] ∧ t.ri = true ∧
    t.envStep (.rxWriteback 0 [] ⟨0, 0, 0, 0⟩) = t := by decide +kernel

/-- V46.4. -/
theorem test_dma_tx_writeback :
    let t := State.envStep { submitted 0x20004000 0 2 0xB0000000 none with mem := [(0x20004000, 8), (0x20004001, 9)] }
      (.txWriteback 0 ⟨0, 0, 0, 0x30000000⟩ true)
    t.sent = [⟨0, [8, 9]⟩] ∧ descriptor t .tx 0 = [0, 0, 0, 0x30000000] ∧ t.ti = true := by decide +kernel

/-- V46.1, V46.3, V46.6, V46.7. -/
theorem test_dma_conditions :
    ({ live with bound := false } : State).dmaEnabled .rx 0 = false ∧
    ((received 0x20001000 0 0 0x81000000).envStep (.rxWriteback 0 [] ⟨0, 0, 0, 0⟩)).ri = false ∧
    ({ live with params := { referenceInstance with dmaInOrder := true } } : State).dmaEnabled .rx 1 = false ∧
    live.rxDrawsLegal 0 [1, 2] ⟨0, 0, 0, 0x30000003⟩ = false ∧ live.rxDrawsLegal 0 [1, 2] ⟨0, 0, 0, 0x20000003⟩ = true := by
  decide +kernel

/-! ### The host's two questions -/

theorem test_fetch_word :
    decodeTableWord 32 0x00020300 = some (.rawRead .rx 2 3) ∧ decodeTableWord 32 0x02 = none ∧
    (run 0x08 State.reset).reply = some .ok := by decide +kernel

/-- R271: the codes of an outcome of each class. -/
theorem test_codes :
    [Reply.ok, .rxErr .truncated, .contract .alreadyBound, .fatal (.lengthExceedsBuffer 0 1), .refusedHalted].map Reply.code =
      [0x00, 0x02, 0x45, 0x81, 0xFF] := by decide

/-! ### Witnesses: concrete values that meet the hypotheses of each statement -/

/-- An outcome is a next state. -/
def isNext : Host.Outcome State Fault Refusal → Bool
  | .next _ => true
  | .fault _ => false
  | .refused _ => false

theorem answers (o : Host.Outcome State Fault Refusal) (h : isNext o = true) : ∃ t, o = .next t := by
  cases o with
  | next t => exact ⟨t, rfl⟩
  | fault _ => exact Bool.noConfusion h
  | refused _ => exact Bool.noConfusion h

/-- A state on the reference instance, or on one that differs in no size, is undisturbed. -/
theorem undisturbed_of (s : State) (hp : s.params.wf = true) (h1 : s.rxWords.length = 4 * s.params.nRx)
    (h2 : s.txWords.length = 4 * s.params.nTx) (h3 : s.rxMeta.length = s.params.nRx) (h4 : s.txMeta.length = s.params.nTx)
    (h5 : s.halted = false) (h6 : s.schedule = []) : s.Undisturbed := ⟨hp, ⟨h1, h2, h3, h4⟩, h5, h6⟩

theorem live_undisturbed : live.Undisturbed := undisturbed_of _ test_wf_reference rfl rfl rfl rfl rfl rfl

theorem received_undisturbed (a b c d : Word) : (received a b c d).Undisturbed :=
  undisturbed_of _ test_wf_reference rfl rfl rfl rfl rfl rfl

theorem submitted_undisturbed (a b c d : Word) (p : Option PacketId) : (submitted a b c d p).Undisturbed :=
  undisturbed_of _ test_wf_reference rfl rfl rfl rfl rfl rfl

theorem holding_undisturbed : holding.Undisturbed := undisturbed_of _ test_wf_reference rfl rfl rfl rfl rfl rfl

theorem live_cursors : live.CursorsBelowCapacity := ⟨by decide, by decide, by decide⟩

theorem holding_cursors : holding.CursorsBelowCapacity ∧ holding.HeldBehindCursor :=
  ⟨⟨by decide, by decide, by decide⟩, fun h e => by obtain rfl := Option.some.inj e; decide⟩

/-- A write buffer with an entry of each kind, the words at the last slot and the last index. -/
def buffered : State := { live with wb := [.byte 1 1, .word .tx 3 3 5, .fence, .word .rx 3 0 6] }

theorem buffered_undisturbed : buffered.Undisturbed := undisturbed_of _ test_wf_reference rfl rfl rfl rfl rfl rfl

theorem buffered_sound : buffered.WbSound := by
  intro e he
  simp only [buffered, List.mem_cons, List.not_mem_nil, or_false] at he
  obtain rfl | rfl | rfl | rfl := he
  · exact ⟨by decide +kernel, by decide⟩
  · exact ⟨by decide, by decide⟩
  · exact trivial
  · exact ⟨by decide, by decide⟩

theorem witness_DecodeOfEncodeIsTheOperation : (Instr.rawRead .tx 65535 3).encodable = true := by decide

theorem witness_DecodedWordIsItsEncoding : decode 0xFFFF0701 = .ok (.rawModify .tx 65535 3) := by decide

/-- The words of the test below are illegal, one for each way to be so; this one is legal, at the last slot. -/
theorem witness_IllegalCommandIsRefused :
    live.params.wf = true ∧
    (live.placeCommand 0x30).inbox = .command ⟨0x30, live.ports⟩ :: [] ∧
    decode 0x00030015 = .ok (.rxdTimestamp 3) ∧ (Instr.rxdTimestamp 3).wf live.params = true :=
  ⟨test_wf_reference, rfl, by decide, by decide⟩

theorem test_illegal_commands :
    [(0x02 : Word), 0xFF, 0x830, 0x8000, 0x10030, 0x147, 0x410, 0x111, 0x30C, 0x40300, 0x40700, 0x40015, 0x40022].map
        (fun w => (run w live).reply) = List.replicate 13 (some (.contract .badCommand)) := by decide +kernel

theorem witness_StepRunsTheDecodedCommand :
    live.params.wf = true ∧ (live.placeCommand 0x47).inbox = .command ⟨0x47, live.ports⟩ :: [] ∧
    decode 0x47 = .ok .engTxReclaim := ⟨test_wf_reference, rfl, by decide⟩

theorem witness_StepOtherwise :
    (live.params.wf = true ∧ ({ live with inbox := [.env (.drain 0)] } : State).inbox = .env (.drain 0) :: []) ∧
    (live.params.wf = true ∧ live.inbox = []) ∧
    ({ live with params := { referenceInstance with nRx := 0 } } : State).params.wf = false :=
  ⟨⟨test_wf_reference, rfl⟩, ⟨test_wf_reference, rfl⟩, by decide +kernel⟩

/-- A field of one bit, of fourteen, and of a whole word; a bit on each side. -/
theorem witness_FieldGetPutLaws :
    (∀ f ∈ [(⟨3, 31, 31⟩ : Field), ⟨3, 13, 0⟩, ⟨0, 31, 0⟩], f.lo ≤ f.hi ∧ f.hi ≤ 31) ∧
    (30 < (⟨3, 31, 31⟩ : Field).lo ∨ (⟨3, 31, 31⟩ : Field).hi < 30) ∧
    (14 < (⟨3, 13, 0⟩ : Field).lo ∨ (⟨3, 13, 0⟩ : Field).hi < 14) := by decide

theorem witness_DefaultLayoutClassification : referenceInstance.rxLayout = defaultRxLayout := rfl

theorem witness_DrainKeepsWhatSoftwareReads :
    buffered.params.wf = true ∧ buffered.Sized ∧ buffered.WbSound ∧ 3 < buffered.params.capacity .tx ∧
    buffered.params.descriptorByte 0x20000080 = none :=
  ⟨test_wf_reference, buffered_undisturbed.sized, buffered_sound, by decide, by decide⟩

theorem witness_FenceHoldsYoungerWritesBack :
    buffered.wb = [.byte 1 1, .word .tx 3 3 5] ++ .fence :: [.word .rx 3 0 6] := rfl

/-- The last slot of each ring. -/
theorem witness_RawReadAnswersTheWord :
    live.Undisturbed ∧ 3 < live.params.capacity .rx ∧ live.ready .rx = true ∧ 3 < live.params.capacity .tx ∧
    live.ready .tx = true := ⟨live_undisturbed, by decide, rfl, by decide, rfl⟩

theorem witness_RawModifyQueuesOneWrite :
    buffered.Undisturbed ∧ 3 < buffered.params.capacity .tx ∧ buffered.ready .tx = true :=
  ⟨buffered_undisturbed, by decide, rfl⟩

theorem witness_FencesOrderOnly : buffered.Undisturbed := buffered_undisturbed

theorem witness_BarriersEmptyTheWriteBuffer :
    buffered.Undisturbed ∧ buffered.WbSound ∧ 3 < buffered.params.capacity .tx ∧
    buffered.params.descriptorByte 1 = none := ⟨buffered_undisturbed, buffered_sound, by decide, by decide⟩

theorem witness_OwnTransferHandsOver :
    buffered.Undisturbed ∧ 0 < buffered.params.capacity .rx ∧ buffered.ready .rx = true ∧
    3 < buffered.params.capacity .tx ∧ buffered.ready .tx = true := ⟨buffered_undisturbed, by decide, rfl, by decide, rfl⟩

theorem witness_DescriptorStoresFrame :
    buffered.Undisturbed ∧
    (3 < buffered.params.capacity .rx ∧ buffered.ready .rx = true ∧
      ∃ t, exec (.ownTransfer .rx 3) buffered = .next t) ∧
    (3 < buffered.params.nRx ∧ buffered.readyRx = true ∧ ∃ t, exec (.rxdSetup 3) buffered = .next t) ∧
    (3 < buffered.params.nTx ∧ buffered.readyTx = true ∧ buffered.ports.arg1.toNat ≤ 16383 ∧
      ∃ t, exec (.txdSend 3) buffered = .next t) :=
  ⟨buffered_undisturbed, ⟨by decide, rfl, answers _ (by decide +kernel)⟩, ⟨by decide, rfl, answers _ (by decide +kernel)⟩, ⟨by decide, rfl, by decide, answers _ (by decide +kernel)⟩⟩

/-- Every armed slot of the constructed ring points at its own buffer. -/
theorem live_pointers_apart : live.PointersApart := by
  intro i hi _ k hk
  have hi : i < 4 := hi
  have hk : k < 1536 := hk
  have far : ∀ a, 0x20001000 ≤ a → live.params.descriptorByte a = none := by
    intro a ha
    have rx : live.params.rxDescBase.toNat = 0x20000000 := by decide
    have tx : live.params.txDescBase.toNat = 0x20000040 := by decide
    have nrx : live.params.nRx = 4 := rfl
    have ntx : live.params.nTx = 4 := rfl
    unfold Params.descriptorByte
    rw [rx, tx, nrx, ntx, if_neg (by omega), if_neg (by omega)]
  apply far
  have h : i = 0 ∨ i = 1 ∨ i = 2 ∨ i = 3 := by omega
  obtain rfl | rfl | rfl | rfl := h <;>
    simp [addrAt, State.word, State.words, live, referenceInstance, defaultRxLayout, State.reset] <;> omega

theorem witness_AtomicHandoverNeverFails :
    live.params.wf = true ∧ live.params.handoverAtomic = true ∧ live.Sized ∧ live.halted = false ∧
    3 < live.params.capacity .tx ∧ live.ready .tx = true ∧ live.wb = [] ∧ live.PointersApart :=
  ⟨test_wf_reference, rfl, live_undisturbed.sized, rfl, by decide, rfl, rfl, live_pointers_apart⟩

theorem witness_IsOwnedAnswersTheOwnershipBit :
    live.Undisturbed ∧ (3 < live.params.nRx ∧ live.readyRx = true) ∧ 3 < live.params.nTx ∧ live.readyTx = true :=
  ⟨live_undisturbed, ⟨by decide, rfl⟩, by decide, rfl⟩

theorem witness_RxdSetupArmsTheSlot : buffered.Undisturbed ∧ 3 < buffered.params.nRx ∧ buffered.readyRx = true :=
  ⟨buffered_undisturbed, by decide, rfl⟩

theorem witness_TakeReceivedWouldBlock :
    live.Undisturbed ∧ 0 < live.params.nRx ∧ live.readyRx = true ∧ live.swOwned .rx 0 = true :=
  ⟨live_undisturbed, by decide, rfl, by decide +kernel⟩

theorem witness_TakeReceivedStoresTagAndTimestamp :
    (received 0 0 0 0x3000002A).Undisturbed ∧ 0 < (received 0 0 0 0x3000002A).params.nRx ∧
    (received 0 0 0 0x3000002A).readyRx = true ∧ (received 0 0 0 0x3000002A).swOwned .rx 0 = false ∧
    referenceInstance.rxWholeFrame ((received 0 0 0 0x3000002A).swOwnWord .rx 0) = true :=
  ⟨received_undisturbed .., by decide, rfl, by decide +kernel, by decide +kernel⟩

theorem witness_TakeReceivedTruncatedRearms :
    (received 0 0 0 0x3000802A).Undisturbed ∧ 0 < (received 0 0 0 0x3000802A).params.nRx ∧
    (received 0 0 0 0x3000802A).readyRx = true ∧ (received 0 0 0 0x3000802A).swOwned .rx 0 = false ∧
    referenceInstance.rxWholeFrame ((received 0 0 0 0x3000802A).swOwnWord .rx 0) = false :=
  ⟨received_undisturbed .., by decide, rfl, by decide +kernel, by decide +kernel⟩

theorem witness_FrameLengthAnswersTheField : live.Undisturbed ∧ 3 < live.params.nRx ∧ live.readyRx = true :=
  ⟨live_undisturbed, by decide, rfl⟩

theorem witness_MetadataAccessorsAnswerTheCache :
    holding.halted = false ∧ 0 < holding.params.nRx ∧ holding.readyRx = true ∧ holding.Undisturbed :=
  ⟨rfl, by decide, rfl, holding_undisturbed⟩

/-- The largest length the field takes. -/
theorem witness_TxdSendSubmitsTheSlot :
    (State.withArgs live 0 16383 none).Undisturbed ∧ 3 < (State.withArgs live 0 16383 none).params.nTx ∧
    (State.withArgs live 0 16383 none).readyTx = true ∧ (State.withArgs live 0 16383 none).ports.arg1.toNat ≤ 16383 :=
  ⟨undisturbed_of _ test_wf_reference rfl rfl rfl rfl rfl rfl, by decide, rfl, by decide⟩

theorem witness_OversizedLengthIsRefused :
    live.halted = false ∧
    (3 < live.params.nTx ∧ live.readyTx = true ∧ 16383 < (State.withArgs live 0 16384 none).ports.arg1.toNat) ∧
    live.bound = true ∧ live.params.txBufSize < (State.withArgs live 1537 0 none).ports.arg0.toNat :=
  ⟨rfl, ⟨by decide, rfl, by decide⟩, rfl, by decide⟩

/-- One state for each of the three answers. -/
theorem witness_TakeCompletedAnswers :
    (∀ w3, (submitted 0 0 0 w3 none).Undisturbed) ∧ 0 < (submitted 0 0 0 0 none).params.nTx ∧
    (submitted 0 0 0 0 none).readyTx = true ∧ (submitted 0 0 0 0xB0000000 none).swOwned .tx 0 = true ∧
    ((submitted 0 0 0 0x30008000 none).swOwned .tx 0 = false ∧
      referenceInstance.txError ((submitted 0 0 0 0x30008000 none).swOwnWord .tx 0) = true) ∧
    (submitted 0 0 0 0x30000000 none).swOwned .tx 0 = false ∧
    referenceInstance.txError ((submitted 0 0 0 0x30000000 none).swOwnWord .tx 0) = false :=
  ⟨fun _ => submitted_undisturbed .., by decide, rfl, by decide +kernel, by decide +kernel, by decide +kernel,
    by decide +kernel⟩

theorem reset_undisturbed : State.reset.Undisturbed := undisturbed_of _ test_wf_reference rfl rfl rfl rfl rfl rfl

theorem witness_RxringNewArmsEverySlot : State.reset.Undisturbed ∧ State.reset.bound = false := ⟨reset_undisturbed, rfl⟩

theorem witness_TxringNewClearsEverySlot : State.reset.Undisturbed ∧
    State.reset.bound = false := ⟨reset_undisturbed, rfl⟩

theorem witness_RecvNextIsIdempotentWhileBlocked :
    live.Undisturbed ∧ live.swOwned .rx live.rxNext = true ∧ live.readyRx = true ∧ live.bound = true :=
  ⟨live_undisturbed, by decide +kernel, rfl, rfl⟩

/-- With a held slot, and (`received`) without. -/
theorem witness_RecvNextDeliversTheFrame :
    (holding.Undisturbed ∧ holding.CursorsBelowCapacity ∧ holding.HeldBehindCursor ∧ holding.readyRx = true ∧
      holding.bound = true ∧ holding.swOwned .rx holding.rxNext = false ∧
      holding.params.rxWholeFrame (holding.swOwnWord .rx holding.rxNext) = true ∧
      holding.params.rxLen (holding.swOwnWord .rx holding.rxNext) ≤ holding.params.rxBufSize ∧ holding.rxHeld = some 0) ∧
    (received 0 0 0 0x30000600).params.rxWholeFrame ((received 0 0 0 0x30000600).swOwnWord .rx 0) = true ∧
    (received 0 0 0 0x30000600).params.rxLen ((received 0 0 0 0x30000600).swOwnWord .rx 0) ≤ 1536 ∧
    (received 0 0 0 0x30000600).rxHeld = none :=
  ⟨⟨holding_undisturbed, holding_cursors.1, holding_cursors.2, rfl, rfl, by decide +kernel, by decide +kernel,
    by decide +kernel, rfl⟩, by decide +kernel, by decide +kernel, rfl⟩

/-- A first segment at the cursor while slot 0 is held. -/
def segment : State := { holding with rxWords := holding.rxWords.set 7 0x200005F2 }

theorem witness_RecvNextTruncatedRearms :
    segment.Undisturbed ∧ segment.CursorsBelowCapacity ∧ segment.HeldBehindCursor ∧ segment.WbSound ∧
    segment.readyRx = true ∧ segment.bound = true ∧ segment.swOwned .rx segment.rxNext = false ∧
    segment.params.rxWholeFrame (segment.swOwnWord .rx segment.rxNext) = false ∧ segment.rxHeld = some 0 :=
  ⟨undisturbed_of _ test_wf_reference rfl rfl rfl rfl rfl rfl, ⟨by decide, by decide, by decide⟩, holding_cursors.2,
    fun _ h => (List.not_mem_nil h).elim, rfl, rfl, by decide +kernel, by decide +kernel, rfl⟩

/-- One byte more than the buffer holds. -/
theorem witness_OverlongFrameHalts :
    (received 0 0 0 0x30000601).Undisturbed ∧ (received 0 0 0 0x30000601).readyRx = true ∧
    (received 0 0 0 0x30000601).bound = true ∧
    (received 0 0 0 0x30000601).swOwned .rx (received 0 0 0 0x30000601).rxNext = false ∧
    referenceInstance.rxWholeFrame ((received 0 0 0 0x30000601).swOwnWord .rx 0) = true ∧
    referenceInstance.rxBufSize < referenceInstance.rxLen ((received 0 0 0 0x30000601).swOwnWord .rx 0) :=
  ⟨received_undisturbed .., rfl, rfl, by decide +kernel, by decide +kernel, by decide +kernel⟩

/-- A full ring: the submit cursor stands on a hardware-owned slot. -/
def full : State := { submitted 0 0 0 0xB0000000 none with txNext := 0 }

theorem witness_SendWouldBlockChangesNothing :
    (State.withArgs full 1536 0 none).Undisturbed ∧ (State.withArgs full 1536 0 none).swOwned .tx full.txNext = true ∧
    (State.withArgs full 1536 0 none).ports.arg0.toNat ≤ full.params.txBufSize ∧ full.readyTx = true ∧ full.bound = true :=
  ⟨undisturbed_of _ test_wf_reference rfl rfl rfl rfl rfl rfl, by decide +kernel, by decide, rfl, rfl⟩

/-- A whole buffer, on a slot never sent and on one completed and never looked at. -/
theorem witness_SendSubmitsTheFrame :
    ((State.withArgs live 1536 0 none).Undisturbed ∧ live.CursorsBelowCapacity ∧ live.WbSound ∧ live.readyTx = true ∧
      live.bound = true ∧ live.swOwned .tx live.txNext = false ∧
      (State.withArgs live 1536 0 none).ports.arg0.toNat ≤ live.params.txBufSize ∧ live.busy live.txNext = false) ∧
    ({ submitted 0 0 0 0x30000000 none with txNext := 0 } : State).swOwned .tx 0 = false ∧
    ({ submitted 0 0 0 0x30000000 none with txNext := 0 } : State).busy 0 = true :=
  ⟨⟨undisturbed_of _ test_wf_reference rfl rfl rfl rfl rfl rfl, live_cursors, fun _ h => (List.not_mem_nil h).elim, rfl, rfl,
    by decide +kernel, by decide, rfl⟩, by decide +kernel, rfl⟩

theorem witness_ReclaimAnswersAndFreesTheSlot :
    (∀ w3, (submitted 0 0 0 w3 none).Undisturbed) ∧ (submitted 0 0 0 0x30000000 none).CursorsBelowCapacity ∧
    live.busy live.txReclaim = false ∧ (submitted 0 0 0 0xB0000000 none).swOwned .tx 0 = true ∧
    ((submitted 0 0 0 0x30008000 none).busy 0 = true ∧ (submitted 0 0 0 0x30008000 none).swOwned .tx 0 = false ∧
      referenceInstance.txError ((submitted 0 0 0 0x30008000 none).swOwnWord .tx 0) = true) ∧
    (submitted 0 0 0 0x30000000 none).busy 0 = true ∧ (submitted 0 0 0 0x30000000 none).swOwned .tx 0 = false ∧
    referenceInstance.txError ((submitted 0 0 0 0x30000000 none).swOwnWord .tx 0) = false :=
  ⟨fun _ => submitted_undisturbed .., ⟨by decide, by decide, by decide⟩, rfl, by decide +kernel, by decide +kernel, rfl,
    by decide +kernel, by decide +kernel⟩

/-- Both rings constructed, the engine not bound. -/
def unbound : State := { live with bound := false }

theorem witness_EngNewBindsTheEngine :
    unbound.halted = false ∧ unbound.bound = false ∧ unbound.readyRx = true ∧ unbound.readyTx = true ∧
    unbound.params.initOk.holds unbound.ports.cfg = true := by decide

/-- A platform that rejects configuration 0 and accepts configuration 1. -/
theorem witness_InitErrorExactlyOnRejection :
    let s := { unbound with params := { referenceInstance with initOk := ⟨true, [0]⟩ } }
    s.halted = false ∧ s.bound = false ∧ s.readyRx = true ∧ s.readyTx = true ∧
    s.params.initOk.holds s.ports.cfg = false ∧ s.params.initOk.holds ({ s.ports with cfg := 1 } : Ports).cfg = true := by
  decide

theorem witness_EnableInterruptRaisesThePendingLine :
    (live.halted = false ∧ live.bound = true) ∧ (unbound.halted = false ∧ unbound.bound = false) ∧
    ({ live with halted := true } : State).halted = true := by decide

theorem witness_DisableInterruptMasksTheLine :
    live.halted = false ∧ live.bound = true ∧
    (submitted 0 0 0 0xB0000000 none).dmaEnabled .tx 0 = true ∧
    live.dmaEnabled .rx 3 = true ∧ live.rxDrawsLegal 3 [] ⟨0, 0, 0, 0⟩ = true ∧
    live.params.rxLayout.ioc.isSet (live.ownWordOf .rx 3) = true := by decide +kernel

theorem witness_InterruptAckClearsBothFlags :
    ({ live with ri := true, intEnable := true } : State).halted = false ∧
    ({ live with ri := true, intEnable := true } : State).bound = true ∧
    ({ live with ri := true, intEnable := true } : State).irq = true := by decide

theorem witness_TxStateCountsTheRing : live.Undisturbed ∧ live.bound = true := ⟨live_undisturbed, rfl⟩

theorem witness_HaltedBlockRefusesEveryOperation :
    ({ live with halted := true } : State).halted = true ∧ (Instr.txdSend 3).wf live.params = true ∧
    EnvStep.drain 0 ≠ .interruptAck := by decide

theorem witness_ConstructionOrderIsEnforced :
    live.halted = false ∧ live.bound = true ∧ (State.reset.bound = false ∧ (State.reset.readyRx && State.reset.readyTx) = false) ∧
    (State.reset.ready .tx = false ∧ 3 < State.reset.params.capacity .tx) ∧
    (State.reset.readyRx = false ∧ 3 < State.reset.params.nRx) ∧ State.reset.readyTx = false ∧ 3 < State.reset.params.nTx := by
  decide

theorem witness_RefusedOperationChangesNothing :
    exec .engNew live = .next (live.answer (.contract .alreadyBound)) ∧
    exec .engNew { live with halted := true } = .next (State.answer { live with halted := true } .refusedHalted) ∧
    exec .engNew { unbound with params := { referenceInstance with initOk := ⟨false, []⟩ } } =
      .next (State.answer { unbound with params := { referenceInstance with initOk := ⟨false, []⟩ } } .initErr) :=
  ⟨rfl, rfl, rfl⟩

theorem witness_WouldBlockChangesNoState :
    live.Quiet ∧ (∃ t, exec .engRecvNext live = .next t) ∧ (run 0x42 live).reply = some (.rxErr .wouldBlock) ∧
    (∃ t, exec .engTxReclaim live = .next t) ∧ (run 0x47 live).reply = some (.txErr .wouldBlock) :=
  ⟨rfl, answers _ (by decide +kernel), by decide +kernel, answers _ (by decide +kernel), by decide +kernel⟩

/-- Each of the four reasons that keep the agent from a slot, on each ring. -/
theorem witness_AgentStepsOnlyOnItsSlots :
    unbound.bound = false ∧ live.params.ownedByHw .tx (live.ownWordOf .tx 3) = false ∧
    (received 0 0 0 0).params.ownedByHw .rx ((received 0 0 0 0).ownWordOf .rx 0) = false ∧
    (({ live with handover := some (.tx, 3) } : State).params.handoverAtomic = true ∧
      ({ live with handover := some (.tx, 3) } : State).handover = some (.tx, 3)) ∧
    ({ live with params := { referenceInstance with dmaInOrder := true } } : State).params.dmaInOrder = true ∧
    1 ≠ ({ live with params := { referenceInstance with dmaInOrder := true } } : State).dmaPosRx := by decide +kernel

theorem witness_RxWritebackEffect :
    live.params.wf = true ∧ live.Sized ∧ live.dmaEnabled .rx 0 = true ∧
    live.rxDrawsLegal 0 [1, 2] ⟨0, 0, 0, 0x30000002⟩ = true ∧
    ∀ k, k < 2 → live.params.descriptorByte (addrAt (live.word .rx 0 live.params.rxLayout.buf1ap.word) k) = none :=
  ⟨test_wf_reference, live_undisturbed.sized, by decide +kernel, by decide +kernel,
    fun k hk => live_pointers_apart 0 (by decide) (by decide +kernel) k (Nat.lt_trans hk (by decide))⟩

theorem witness_TxWritebackEffect :
    (submitted 0x20004000 0 2 0xB0000000 none).params.wf = true ∧ (submitted 0x20004000 0 2 0xB0000000 none).Sized ∧
    (submitted 0x20004000 0 2 0xB0000000 none).dmaEnabled .tx 0 = true :=
  ⟨test_wf_reference, (submitted_undisturbed ..).sized, by decide +kernel⟩

theorem witness_SoftwareOwnedSlotStaysSoftwares :
    live.params.wf = true ∧ live.Sized ∧ live.wb = [] ∧ live.PointersApart ∧ 3 < live.params.capacity .tx ∧
    live.params.ownedByHw .tx (live.ownWordOf .tx 3) = false :=
  ⟨test_wf_reference, live_undisturbed.sized, rfl, live_pointers_apart, by decide, by decide +kernel⟩

/-- A state in service: a slot held, one frame submitted, a byte in memory. -/
def serving : State :=
  { holding with
    txWords := [0x20004000, 0, 2, 0xB0000000] ++ live.txWords.drop 4
    txMeta := [⟨some 3, none, true⟩, ⟨none, none, false⟩, ⟨none, none, false⟩, ⟨none, none, false⟩]
    txNext := 1 }

theorem step_idle (s : State) (hw : s.params.wf = true) (hi : s.inbox = []) : step s = .next s := by
  simp only [step, hw, hi, if_true]

theorem witness_StepKeepsTheInvariants : serving.Invariant ∧ step serving = .next serving :=
  ⟨{ instanceWf := test_wf_reference
     sized := ⟨rfl, rfl, rfl, rfl⟩
     cursors := ⟨by decide, by decide, by decide⟩
     held := holding_cursors.2
     memory := ⟨by decide, by decide⟩
     writeBuffer := fun _ h => (List.not_mem_nil h).elim
     engine := ⟨fun _ => rfl, fun _ => rfl, fun h => Bool.noConfusion h⟩
     window := rfl },
    step_idle _ test_wf_reference rfl⟩

theorem witness_StepKeepsTheBusyRange : serving.Invariant ∧ serving.BusyRange ∧ step serving = .next serving :=
  ⟨witness_StepKeepsTheInvariants.1, ⟨1, by decide, by decide, by
    intro j hj
    have hj : j < 4 := hj
    have h : j = 0 ∨ j = 1 ∨ j = 2 ∨ j = 3 := by omega
    obtain rfl | rfl | rfl | rfl := h
    · exact ⟨fun _ => ⟨0, by decide, by decide⟩, fun _ => rfl⟩
    all_goals
      refine ⟨fun h => absurd h (by decide), fun h => ?_⟩
      obtain ⟨m, hm, he⟩ := h
      obtain rfl : m = 0 := by omega
      exact absurd he (by decide)⟩, witness_StepKeepsTheInvariants.2⟩

theorem witness_NothingClearsTheStickyFlags :
    step serving = .next serving ∧ serving.readyRx = true ∧ serving.readyTx = true ∧ serving.bound = true :=
  ⟨witness_StepKeepsTheInvariants.2, rfl, rfl, rfl⟩

theorem witness_CursorsMoveByRingOperationsOnly : ∃ t, exec .engRecvNext holding = .next t :=
  answers _ (by decide +kernel)

theorem witness_SoftwareStateFrame : ∃ t, exec (.rawModify .tx 1 2) live = .next t := answers _ (by decide +kernel)

theorem witness_NothingPendingAtTheEndOfAnOperation : live.wb = [] ∧ ∃ t, exec (.rxdSetup 3) live = .next t :=
  ⟨rfl, answers _ (by decide +kernel)⟩

theorem witness_AcknowledgementsDoNotDisturbOperations :
    ∃ t, exec .engTxState { live with schedule := [[.interruptAck], [.drain 0, .interruptAck]] } = .next t := answers _ (by decide +kernel)

theorem witness_HaltedBlockIsFrozen :
    ({ serving with halted := true } : State).halted = true ∧
    step { serving with halted := true } = .next { serving with halted := true } :=
  ⟨rfl, step_idle _ test_wf_reference rfl⟩

end Sys2Proof.Tests
end

section
/-! SUPPORT. `get` and `put` bit by bit, and the laws of R117 (b) from that. -/

namespace Sys2Proof

@[simp] theorem Field.getLsbD_ones (f : Field) (b : Nat) :
    f.ones.getLsbD b = (decide (b < 32) && decide (b < f.width)) := by
  simp [Field.ones, BitVec.getLsbD_ofNat, Nat.testBit_two_pow_sub_one]

@[simp] theorem Field.getLsbD_get (f : Field) (w : Word) (b : Nat) :
    (f.get w).getLsbD b = (w.getLsbD (f.lo + b) && decide (b < f.width)) := by
  rw [Field.get, BitVec.getLsbD_and, BitVec.getLsbD_ushiftRight, f.getLsbD_ones]
  by_cases hb : b < 32
  · simp [hb]
  · simp [BitVec.getLsbD_of_ge w (f.lo + b) (by omega)]

/-- Where the field's mask is set. -/
theorem Field.getLsbD_mask (f : Field) (b : Nat) :
    f.mask.getLsbD b = (decide (b < 32) && decide (f.lo ≤ b) && decide (b - f.lo < f.width)) := by
  rw [Field.mask, BitVec.getLsbD_shiftLeft, f.getLsbD_ones]
  by_cases hlo : f.lo ≤ b
  · by_cases hb : b < 32
    · simp [hb, hlo, Nat.lt_of_le_of_lt (Nat.sub_le b f.lo) hb]
    · simp [hb]
  · simp [hlo, Nat.lt_of_not_le hlo]

/-- `put` bit by bit. -/
theorem Field.getLsbD_put (f : Field) (w v : Word) (b : Nat) (hb : b < 32) :
    (f.put w v).getLsbD b =
      if f.lo ≤ b ∧ b - f.lo < f.width then v.getLsbD (b - f.lo) else w.getLsbD b := by
  have hsub : b - f.lo < 32 := Nat.lt_of_le_of_lt (Nat.sub_le b f.lo) hb
  rw [Field.put, BitVec.getLsbD_or, BitVec.getLsbD_and, BitVec.getLsbD_not, BitVec.getLsbD_shiftLeft, BitVec.getLsbD_and,
    f.getLsbD_mask, f.getLsbD_ones]
  by_cases hlo : f.lo ≤ b
  · by_cases hwidth : b - f.lo < f.width
    · simp [hb, hlo, hsub, hwidth]
    · simp [hb, hlo, hwidth]
  · simp [hb, hlo, Nat.lt_of_not_le hlo]

theorem Field.lt_width_iff (f : Field) (hf : f.lo ≤ f.hi) (b : Nat) : b < f.width ↔ f.lo + b ≤ f.hi := by
  unfold Field.width
  omega

/-- Inside the field `put` shows the bits of the value. -/
theorem Field.getLsbD_put_inside (f : Field) (hf : f.lo ≤ f.hi) (hw : f.hi ≤ 31) (w v : Word) (b : Nat)
    (hlo : f.lo ≤ b) (hhi : b ≤ f.hi) : (f.put w v).getLsbD b = v.getLsbD (b - f.lo) := by
  rw [f.getLsbD_put w v b (by omega), if_pos ⟨hlo, (f.lt_width_iff hf _).2 (by omega)⟩]

/-- Outside the field `put` keeps the word. -/
theorem Field.getLsbD_put_outside (f : Field) (hf : f.lo ≤ f.hi) (w v : Word) (b : Nat)
    (hb : b < f.lo ∨ f.hi < b) : (f.put w v).getLsbD b = w.getLsbD b := by
  by_cases h32 : b < 32
  · rw [f.getLsbD_put w v b h32, if_neg]
    rw [f.lt_width_iff hf]
    omega
  · rw [BitVec.getLsbD_of_ge _ b (Nat.le_of_not_lt h32), BitVec.getLsbD_of_ge _ b (Nat.le_of_not_lt h32)]

theorem Field.toNat_get_put (f : Field) (hf : f.lo ≤ f.hi) (hw : f.hi ≤ 31) (w v : Word) :
    (f.get (f.put w v)).toNat = v.toNat % 2 ^ f.width := by
  apply Nat.eq_of_testBit_eq
  intro b
  rw [Nat.testBit_mod_two_pow, BitVec.testBit_toNat, BitVec.testBit_toNat, f.getLsbD_get]
  by_cases hb : b < f.width
  · have hhi := (f.lt_width_iff hf b).1 hb
    rw [f.getLsbD_put_inside hf hw w v _ (Nat.le_add_right ..) hhi]
    simp [hb]
  · simp [hb]

theorem Field.put_get (f : Field) (hf : f.lo ≤ f.hi) (hw : f.hi ≤ 31) (w : Word) : f.put w (f.get w) = w := by
  apply BitVec.eq_of_getLsbD_eq
  intro b _
  by_cases hb : b < f.lo ∨ f.hi < b
  · exact f.getLsbD_put_outside hf w _ b hb
  · obtain ⟨hlo, hhi⟩ : f.lo ≤ b ∧ b ≤ f.hi := by omega
    have hwidth : b - f.lo < f.width := (f.lt_width_iff hf _).2 (by omega)
    rw [f.getLsbD_put_inside hf hw w _ b hlo hhi, f.getLsbD_get]
    simp [hwidth, Nat.add_sub_of_le hlo]

/-- Settles O7: from `get` and `put` bit by bit. -/
theorem fieldGetPutLaws : Obligations.FieldGetPutLaws := by
  unfold Obligations.FieldGetPutLaws
  intro f w v hf hw
  exact ⟨f.toNat_get_put hf hw w v, f.put_get hf hw w, f.getLsbD_put_outside hf w v⟩

end Sys2Proof
end

section
/-! SUPPORT. How an operation at the command interface ends and what one step takes, said once; then what no step takes
back (`Sticky`), one lemma an operation, whatever the schedule (R8, R41, R49). -/

namespace Sys2Proof.Machine

/-- An operation that has a next state was refused, ended, or raised. -/
theorem State.command_cases {s t : State} {checks : List Check} {run : State → Run Reply}
    (h : s.command checks run = .next t) :
    (∃ r, firstRefusal checks = some r ∧ t = s.answer r) ∨
    (∃ r u, firstRefusal checks = none ∧ run s = .done r u ∧ t = u.answer r) ∨
    (∃ f u, firstRefusal checks = none ∧ run s = .fatal f u ∧ t = u.raiseFatal f) := by
  unfold State.command at h
  cases hc : firstRefusal checks with
  | some r =>
    rw [hc] at h
    cases h
    exact .inl ⟨r, rfl, rfl⟩
  | none =>
    rw [hc] at h
    cases hr : run s with
    | done r u =>
      rw [hr] at h
      cases h
      exact .inr (.inl ⟨r, u, rfl, rfl, rfl⟩)
    | fatal f u =>
      rw [hr] at h
      cases h
      exact .inr (.inr ⟨f, u, rfl, rfl, rfl⟩)

/-- A step that has a next state waited, took a step of another agent, ran a command, or refused a word that is no
operation. -/
theorem step_cases {s t : State} (h : step s = .next t) :
    (s.inbox = [] ∧ t = s) ∨
    (∃ e rest, s.inbox = .env e :: rest ∧ t = State.envStep { s with inbox := rest } e) ∨
    (∃ c rest i, s.inbox = .command c :: rest ∧ decode c.word = .ok i ∧ exec i (s.latch rest c) = .next t) ∨
    (∃ c rest e, s.inbox = .command c :: rest ∧ decode c.word = .error e ∧ t = (s.latch rest c).badCommand) := by
  unfold step at h
  split at h
  · split at h
    · next hi =>
      cases h
      exact .inl ⟨hi, rfl⟩
    · next e rest hi =>
      cases h
      exact .inr (.inl ⟨e, rest, hi, rfl⟩)
    · next c rest hi =>
      split at h
      · next i hd => exact .inr (.inr (.inl ⟨c, rest, i, hi, hd, h⟩))
      · next e hd =>
        cases h
        exact .inr (.inr (.inr ⟨c, rest, e, hi, hd, rfl⟩))
  · cases h

/-- The parameters stay, and no sticky flag is cleared (R8, R41, R49). -/
structure Sticky (s t : State) : Prop where
  params : t.params = s.params
  halted : s.halted = true → t.halted = true
  readyRx : s.readyRx = true → t.readyRx = true
  readyTx : s.readyTx = true → t.readyTx = true
  bound : s.bound = true → t.bound = true

theorem Sticky.refl (s : State) : Sticky s s := ⟨rfl, id, id, id, id⟩

theorem Sticky.trans {s t u : State} (h : Sticky s t) (g : Sticky t u) : Sticky s u where
  params := g.params.trans h.params
  halted := g.halted ∘ h.halted
  readyRx := g.readyRx ∘ h.readyRx
  readyTx := g.readyTx ∘ h.readyTx
  bound := g.bound ∘ h.bound

/-- What `Frame` says of the operations on descriptors: they leave the parameters and the sticky flags alone. -/
theorem Frame.sticky {rx tx : Bool} {s t : State} (h : Frame rx tx s t) : Sticky s t where
  params := h.params
  halted := h.halted.trans
  readyRx := h.readyRx.trans
  readyTx := h.readyTx.trans
  bound := h.bound.trans

theorem Run.Ends.sticky {α : Type} {rx tx : Bool} {s : State} {r : Run α} (h : r.Ends (Frame rx tx s)) :
    r.Ends (Sticky s) := h.imp fun _ g => g.sticky

theorem Sticky.setTxMeta (s : State) (j : Nat) (m : TxMeta) : Sticky s (s.setTxMeta j m) := ⟨rfl, id, id, id, id⟩

/-- A nested operation and what follows it, each sticky from where it starts. -/
theorem Sticky.andThen {α β : Type} {s : State} {r : Run α} {next : α → State → Run β} (h : r.Ends (Sticky s))
    (hn : ∀ v t, (next v t).Ends (Sticky t)) : (r.andThen next).Ends (Sticky s) := by
  cases r with
  | done v t => exact (hn v t).imp fun _ g => h.trans g
  | fatal f t => exact h

/-- The reply of an operation, a refusal and a `Fatal` keep what its run keeps. -/
theorem Sticky.command {s t : State} {checks : List Check} {run : State → Run Reply}
    (h : s.command checks run = .next t) (hrun : (run s).Ends (Sticky s)) : Sticky s t := by
  obtain ⟨r, _, rfl⟩ | ⟨r, u, _, hr, rfl⟩ | ⟨f, u, _, hr, rfl⟩ := State.command_cases h
  · exact ⟨rfl, id, id, id, id⟩
  · rw [hr] at hrun
    exact hrun.trans ⟨rfl, id, id, id, id⟩
  · rw [hr] at hrun
    exact hrun.trans ⟨rfl, fun _ => rfl, id, id, id⟩

/-! ### The operations of the rings -/

/-- RXRING.NEW sets `ready[RX]` and clears nothing sticky (R49, R200). -/
theorem Sticky.rxringNew (s : State) : (rxringNew s).Ends (Sticky s) :=
  Sticky.andThen (Run.Ends.sticky (Frame.armSlots true _ 0 s)) fun _ _ => ⟨rfl, id, fun _ => rfl, id, id⟩

theorem Sticky.clearSlots (n : Nat) : ∀ (j : Nat) (s : State), Sticky s (clearSlots n j s) := by
  induction n with
  | zero => exact fun _ s => .refl s
  | succ n ih =>
    intro j s
    have hzero := (Frame.zeroDescriptor true true .tx j s).sticky
    exact (hzero.trans (.setTxMeta _ j _)).trans (ih (j + 1) _)

/-- TXRING.NEW sets `ready[TX]` and clears nothing sticky (R49, R210). -/
theorem Sticky.txringNew (s : State) : Sticky s (txringNew s) := by
  have hclear := Sticky.clearSlots s.params.nTx 0 s
  have hbarrier := (hclear.trans (Frame.fenceWw true true _).sticky).trans (Frame.barrierDsb true true _).sticky
  exact hbarrier.trans ⟨rfl, id, id, fun _ => rfl, id⟩

theorem Sticky.rearmHeld (s : State) : (rearmHeld s).Ends (Sticky s) := by
  obtain ⟨t, e, h⟩ | ⟨f, t, e, h⟩ := rearmHeld_ends s
  · rw [e]
    exact h.sticky.trans ⟨rfl, id, id, id, id⟩
  · rw [e]
    exact h.sticky

theorem Sticky.recvNext (p : Option PacketId) (s : State) : (recvNext p s).Ends (Sticky s) := by
  refine Sticky.andThen (Run.Ends.sticky (Frame.takeReceived true _ p _ s)) fun r t => ?_
  rcases r with (_ | _) | _
  · exact .refl t
  · exact Sticky.andThen (Sticky.rearmHeld t) fun _ _ => ⟨rfl, id, id, id, id⟩
  · have hlen := (Frame.frameLength true true s.rxNext t).sticky
    dsimp only
    split
    · exact hlen
    · have hread := hlen.trans
        (Frame.memRead true true (t.params.rxBuf s.rxNext) (Machine.frameLength s.rxNext t).1 _).sticky
      exact Sticky.andThen ((Sticky.rearmHeld _).imp fun _ h => hread.trans h) fun _ _ => ⟨rfl, id, id, id, id⟩

theorem Sticky.dropLapped (j : Nat) (s : State) : Sticky s (dropLapped j s) := by
  unfold Machine.dropLapped
  split
  · exact ⟨rfl, id, id, id, id⟩
  · exact .refl s

theorem Sticky.ringSend (len : Word) (p : Option PacketId) (g : FillFn) (s : State) :
    (ringSend len p g s).Ends (Sticky s) := by
  have howned := (Frame.isOwned true true .tx s.txNext s).sticky
  unfold Machine.ringSend
  dsimp only
  split
  · exact howned
  · have hdrop := howned.trans (.dropLapped s.txNext _)
    have hread := hdrop.trans (Frame.memRead true true (s.params.txBuf s.txNext) len.toNat _).sticky
    have hfill := fun bs => hread.trans (Frame.memWrite true true (s.params.txBuf s.txNext) bs _).sticky
    exact Sticky.andThen ((Frame.txSend true _ _ len p _).imp fun _ h => (hfill _).trans h.sticky)
      fun _ _ => ⟨rfl, id, id, id, id⟩

theorem Sticky.ringReclaim (q : Option PacketId) (s : State) : Sticky s (ringReclaim q s).2 := by
  have htake := (Frame.takeCompleted true s.txReclaim q s).sticky
  unfold Machine.ringReclaim
  dsimp only
  split
  · exact .refl s
  · split
    · exact htake
    · exact htake.trans ⟨rfl, id, id, id, id⟩

/-! ### Every operation, every step -/

/-- Every operation is sticky: NEW sets a flag, `Fatal` sets `halted`, the others keep all of them (R41, R49). -/
theorem Sticky.exec {i : Instr} {s t : State} (h : exec i s = .next t) : Sticky s t := by
  unfold Machine.exec at h
  cases i with
  | rawRead d slot k => exact Sticky.command h (Frame.swRead true true d slot k s).sticky
  | rawModify d slot k => exact Sticky.command h (Frame.swModify true true d slot k _ s).sticky
  | fenceWw => exact Sticky.command h (Frame.fenceWw true true s).sticky
  | barrierDsb => exact Sticky.command h (Frame.barrierDsb true true s).sticky
  | fenceFull => exact Sticky.command h (Frame.fenceFull true true s).sticky
  | fenceRr => exact Sticky.command h (Frame.fenceRr true true s).sticky
  | ownTransfer d slot =>
    exact Sticky.command h (Sticky.andThen (Run.Ends.sticky (Frame.ownTransfer true true d slot s)) fun _ => .refl)
  | rxdIsOwned slot => exact Sticky.command h (Frame.isOwned true true .rx slot s).sticky
  | rxdSetup slot =>
    exact Sticky.command h (Sticky.andThen (Run.Ends.sticky (Frame.rxSetup true slot _ s)) fun _ => .refl)
  | rxdTakeReceived slot =>
    exact Sticky.command h (Sticky.andThen (Run.Ends.sticky (Frame.takeReceived true slot _ _ s)) fun _ => .refl)
  | rxdFrameLength slot => exact Sticky.command h (Frame.frameLength true true slot s).sticky
  | rxdPacketId slot => exact Sticky.command h (Sticky.refl s)
  | rxdTimestamp slot => exact Sticky.command h (Sticky.refl s)
  | txdIsOwned slot => exact Sticky.command h (Frame.isOwned true true .tx slot s).sticky
  | txdSend slot =>
    exact Sticky.command h (Sticky.andThen (Run.Ends.sticky (Frame.txSend true slot _ _ _ s)) fun _ => .refl)
  | txdTakeCompleted slot => exact Sticky.command h (Frame.takeCompleted true slot _ s).sticky
  | rxringNew => exact Sticky.command h (Sticky.andThen (Sticky.rxringNew s) fun _ => .refl)
  | rxringRecvNext => exact Sticky.command h (Sticky.andThen (Sticky.recvNext _ s) fun _ => .refl)
  | txringNew => exact Sticky.command h (Sticky.txringNew s)
  | txringSend => exact Sticky.command h (Sticky.andThen (Sticky.ringSend _ _ _ s) fun _ => .refl)
  | txringReclaim => exact Sticky.command h (Sticky.ringReclaim _ s)
  | engNew => exact Sticky.command h (Sticky.mk rfl id id id fun _ => rfl)
  | engSend => exact Sticky.command h (Sticky.andThen (Sticky.ringSend _ _ _ s) fun _ => .refl)
  | engRecvNext => exact Sticky.command h (Sticky.andThen (Sticky.recvNext _ s) fun _ => .refl)
  | engEnableInterrupt => exact Sticky.command h (Sticky.mk rfl id id id id)
  | engDisableInterrupt => exact Sticky.command h (Sticky.mk rfl id id id id)
  | engInterruptAck => exact Sticky.command h (Sticky.mk rfl id id id id)
  | engTxState => exact Sticky.command h (Frame.countOwned true true _ 0 s).sticky
  | engTxReclaim => exact Sticky.command h (Sticky.ringReclaim _ s)

theorem Sticky.step {s t : State} (h : step s = .next t) : Sticky s t := by
  obtain ⟨_, rfl⟩ | ⟨e, rest, _, rfl⟩ | ⟨c, rest, i, _, _, hexec⟩ | ⟨c, rest, e, _, _, rfl⟩ := step_cases h
  · exact .refl _
  · have htaken : Sticky s { s with inbox := rest } := ⟨rfl, id, id, id, id⟩
    exact htaken.trans ((SharedStep.envStep _ e).frame true true).sticky
  · have hlatched : Sticky s (s.latch rest c) := ⟨rfl, id, id, id, id⟩
    exact hlatched.trans (.exec hexec)
  · exact ⟨rfl, id, id, id, id⟩

/-- Settles O55: every case of a step is sticky, whatever the schedule. -/
theorem nothingClearsTheStickyFlags : Obligations.NothingClearsTheStickyFlags := by
  unfold Obligations.NothingClearsTheStickyFlags
  intro s t h
  obtain ⟨hparams, hhalted, hrx, htx, hbound⟩ := Sticky.step h
  exact ⟨hparams, hhalted, hrx, htx, hbound⟩

end Sys2Proof.Machine
end

section
/-! SUPPORT. What an operation can do to the software-only and control state, said once for all operations and whatever
the schedule: `Change` lists the cases, `exec_changed` says that there is no other (spec/10_state.md, R316). -/

namespace Sys2Proof

/-- The operations that may write receive metadata (R42). -/
def Instr.writesRxMeta : Instr → Bool
  | .rxdSetup _ | .rxdTakeReceived _ | .rxringNew | .rxringRecvNext | .engRecvNext => true
  | _ => false

/-- The operations that may write transmit metadata (R42). -/
def Instr.writesTxMeta : Instr → Bool
  | .txdSend _ | .txdTakeCompleted _ | .txringNew | .txringSend | .engSend | .txringReclaim | .engTxReclaim => true
  | _ => false

theorem Instr.writesRxMeta_eq_false (i : Instr) (h1 : ∀ n, i ≠ .rxdSetup n)
    (h2 : ∀ n, i ≠ .rxdTakeReceived n) (h3 : i ≠ .rxringNew) (h4 : i ≠ .rxringRecvNext) (h5 : i ≠ .engRecvNext) :
    i.writesRxMeta = false := by
  cases i with
  | rxdSetup n => exact absurd rfl (h1 n)
  | rxdTakeReceived n => exact absurd rfl (h2 n)
  | rxringNew => exact absurd rfl h3
  | rxringRecvNext => exact absurd rfl h4
  | engRecvNext => exact absurd rfl h5
  | _ => rfl

theorem Instr.writesTxMeta_eq_false (i : Instr) (h1 : ∀ n, i ≠ .txdSend n)
    (h2 : ∀ n, i ≠ .txdTakeCompleted n) (h3 : i ≠ .txringNew) (h4 : i ≠ .txringSend) (h5 : i ≠ .engSend)
    (h6 : i ≠ .txringReclaim) (h7 : i ≠ .engTxReclaim) : i.writesTxMeta = false := by
  cases i with
  | txdSend n => exact absurd rfl (h1 n)
  | txdTakeCompleted n => exact absurd rfl (h2 n)
  | txringNew => exact absurd rfl h3
  | txringSend => exact absurd rfl h4
  | engSend => exact absurd rfl h5
  | txringReclaim => exact absurd rfl h6
  | engTxReclaim => exact absurd rfl h7
  | _ => rfl

namespace Machine

/-- The reclaim cursor once the submit cursor's slot is to be overwritten (R212). -/
def State.reclaimPastLap (s : State) : Nat :=
  if s.busy s.txNext then nextSlot s.params.nTx s.txReclaim else s.txReclaim

/-- What operation `i` can have done to `s` when it ends in `t`, or, with `raised`, when it raises in `t`: a framed
change, or a framed change and the registers it owns. -/
inductive Change (i : Instr) (s : State) : (raised : Bool) → State → Prop
  | framed {raised : Bool} {u : State} (hu : Frame i.writesRxMeta i.writesTxMeta s u) : Change i s raised u
  | rxConstructed {u : State} (hi : i = .rxringNew) (hu : Frame true false s u) :
      Change i s false { u with rxNext := 0, rxHeld := none, readyRx := true }
  | received {u : State} {held : Option Nat} (hi : i = .rxringRecvNext ∨ i = .engRecvNext) (hu : Frame true false s u)
      (hheld : held = none ∨ held = some s.rxNext) :
      Change i s false { u with rxHeld := held, rxNext := nextSlot s.params.nRx s.rxNext }
  | txConstructed {u : State} {ms : List TxMeta} (hi : i = .txringNew) (hu : Frame false false s u)
      (hlen : ms.length = s.txMeta.length)
      (hidle : ∀ j, j < s.params.nTx → (ms.getD j ⟨none, none, false⟩).busy = false) :
      Change i s false { u with txMeta := ms, txNext := 0, txReclaim := 0, readyTx := true }
  | lapped {u : State} (hi : i = .txringSend ∨ i = .engSend) (hu : Frame false true s u) :
      Change i s true { u with txReclaim := s.reclaimPastLap }
  | sent {u : State} (hi : i = .txringSend ∨ i = .engSend) (hu : Frame false true s u) :
      Change i s false
        { u.setBusy s.txNext true with txNext := nextSlot s.params.nTx s.txNext, txReclaim := s.reclaimPastLap }
  | reclaimed {u : State} (hi : i = .txringReclaim ∨ i = .engTxReclaim) (hbusy : s.busy s.txReclaim = true)
      (hu : Frame false true s u) :
      Change i s false { u.setBusy s.txReclaim false with txReclaim := nextSlot s.params.nTx s.txReclaim }
  | engineBound (hi : i = .engNew) (hrx : s.readyRx = true) (htx : s.readyTx = true) : Change i s false (bindEngine s)
  | interruptSwitched {enable : Bool} (hi : i = .engEnableInterrupt ∨ i = .engDisableInterrupt) (hbound : s.bound = true) :
      Change i s false { s with intEnable := enable }

/-- Each end of a nested operation is a change that operation `i` can have made. -/
def Run.Changes {α : Type} (i : Instr) (s : State) : Run α → Prop
  | .done _ t => Change i s false t
  | .fatal _ t => Change i s true t

theorem Run.Ends.changes {α : Type} {i : Instr} {s : State} {r : Run α}
    (h : r.Ends (Frame i.writesRxMeta i.writesTxMeta s)) : r.Changes i s := by
  cases r <;> exact .framed h

/-- A reply made of the value changes nothing more. -/
theorem Run.Changes.reply {α β : Type} {i : Instr} {s : State} {r : Run α} (h : r.Changes i s) (f : α → β) :
    (r.andThen fun v t => .done (f v) t).Changes i s := by
  cases r <;> exact h

/-- A change of operation `i`, then the result port, and `halted` where it raised (R270). -/
def Changed (i : Instr) (s t : State) : Prop :=
  ∃ u raised r, Change i s raised u ∧ t = { u with halted := raised || u.halted, reply := r }

/-- An operation at the command interface whose run makes a change: the tests have passed when it runs. -/
theorem Changed.command {i : Instr} {s t : State} {checks : List Check} {run : State → Run Reply}
    (h : s.command checks run = .next t) (hrun : firstRefusal checks = none → (run s).Changes i s) : Changed i s t := by
  obtain ⟨r, _, rfl⟩ | ⟨r, u, hc, hr, rfl⟩ | ⟨f, u, hc, hr, rfl⟩ := State.command_cases h
  · exact ⟨s, false, some r, .framed (.refl _ _ s), rfl⟩
  · have hu := hrun hc
    rw [hr] at hu
    exact ⟨u, false, some r, hu, rfl⟩
  · have hu := hrun hc
    rw [hr] at hu
    exact ⟨u, true, some (.fatal f), hu, rfl⟩

/-- A test of an operation that was not refused holds. -/
theorem check_holds {checks : List Check} {c : Check} (h : firstRefusal checks = none) (hc : c ∈ checks) :
    c.1 = true := by
  induction checks with
  | nil => cases hc
  | cons b bs ih =>
    obtain ⟨holds, r⟩ := b
    cases holds with
    | false => cases h
    | true =>
      rcases List.mem_cons.mp hc with rfl | hc
      · rfl
      · exact ih h hc

/-! ### A frame after a register has been set -/

theorem Frame.of_setTxReclaim {rx tx : Bool} {s t : State} {c : Nat} (h : Frame rx tx { s with txReclaim := c } t) :
    ∃ u, t = { u with txReclaim := c } ∧ Frame rx tx s u :=
  ⟨{ t with txReclaim := s.txReclaim }, by rw [← show t.txReclaim = c from h.txReclaim], { h with txReclaim := rfl }⟩

theorem Frame.of_setTxMeta {s t : State} {ms : List TxMeta} (h : Frame false false { s with txMeta := ms } t) :
    ∃ u, t = { u with txMeta := ms } ∧ Frame false false s u :=
  ⟨{ t with txMeta := s.txMeta }, by rw [← show t.txMeta = ms from h.txMeta rfl],
    { h with txMetaLength := rfl, txMeta := fun _ => rfl, busy := fun _ => rfl }⟩

/-! ### The operations of the rings -/

/-- RXRING.NEW raises inside its loop, or ends with the receive cursor and the held slot as new (R200). -/
theorem rxringNew_changes (s : State) : (rxringNew s).Changes .rxringNew s := by
  have h := Frame.armSlots false s.params.nRx 0 s
  unfold rxringNew
  cases hr : armSlots s.params.nRx 0 s with
  | done v u =>
    rw [hr] at h
    exact .rxConstructed rfl h
  | fatal f u =>
    rw [hr] at h
    exact .framed h

/-- Frames of the operations that receive are changes of theirs. -/
theorem Change.framedReceive {i : Instr} (hi : i = .rxringRecvNext ∨ i = .engRecvNext) {raised : Bool} {s u : State}
    (hu : Frame true false s u) : Change i s raised u := by
  obtain rfl | rfl := hi
  · exact .framed hu
  · exact .framed hu

/-- Re-arming the held slot, and then a change of the register that holds it (R203, R205). -/
theorem rearmHeld_changes {β : Type} {i : Instr} (hi : i = .rxringRecvNext ∨ i = .engRecvNext) {s t : State}
    (ht : Frame true false s t) (b : β) (next : State → State)
    (hnext : ∀ u, Frame true false s u → Change i s false (next { u with rxHeld := none })) :
    ((rearmHeld t).andThen fun _ u => .done b (next u)).Changes i s := by
  obtain ⟨u, e, hu⟩ | ⟨f, u, e, hu⟩ := rearmHeld_ends t
  · rw [e]
    exact hnext u (ht.trans hu)
  · rw [e]
    exact .framedReceive hi (ht.trans hu)

/-- RXRING.RECV_NEXT moves the receive cursor on where it delivers a frame or drops one, and nowhere else (R203). -/
theorem recvNext_changes {i : Instr} (hi : i = .rxringRecvNext ∨ i = .engRecvNext) (p : Option PacketId) (s : State) :
    (recvNext p s).Changes i s := by
  have htake := Frame.takeReceived false s.rxNext p (s.params.rxBuf s.rxNext) s
  unfold recvNext
  dsimp only
  cases hr : takeReceived s.rxNext p (s.params.rxBuf s.rxNext) s with
  | fatal f u =>
    rw [hr] at htake
    exact .framedReceive hi htake
  | done r u =>
    rw [hr] at htake
    have hlen := Frame.trans htake (.frameLength true false s.rxNext u)
    rcases r with (_ | _) | _
    · exact .framedReceive hi htake
    · exact rearmHeld_changes hi htake _ (fun v => { v with rxNext := nextSlot s.params.nRx s.rxNext })
        fun v hv => .received (u := v) hi hv (.inl rfl)
    · dsimp only [Run.andThen]
      split
      · exact .framedReceive hi hlen
      · exact rearmHeld_changes hi (hlen.trans (.memRead true false _ _ _)) _
          (fun v => { v with rxHeld := some s.rxNext, rxNext := nextSlot s.params.nRx s.rxNext })
          fun v hv => .received (u := v) hi hv (.inr rfl)

/-- The metadata of a transmit slot that TXRING.NEW has cleared (R210). -/
theorem State.busy_setTxMeta_idle (s : State) (j i : Nat) :
    (s.setTxMeta j ⟨none, none, false⟩).busy i = (s.busy i && i != j) := by
  simp only [State.busy, State.txMetaAt, State.setTxMeta, List.getD_eq_getElem?_getD, List.getElem?_set]
  by_cases hj : j = i
  · subst hj
    by_cases hlen : j < s.txMeta.length <;> simp [hlen]
  · simp [hj, Ne.symm hj]

/-- TXRING.NEW's loop touches the metadata beside its stores, and leaves its slots not busy (R210). -/
theorem clearSlots_changes (n : Nat) : ∀ (j : Nat) (s : State), ∃ u ms,
    clearSlots n j s = { u with txMeta := ms } ∧ Frame false false s u ∧ ms.length = s.txMeta.length ∧
    ∀ i, (ms.getD i ⟨none, none, false⟩).busy = true → s.busy i = true ∧ (i < j ∨ j + n ≤ i) := by
  induction n with
  | zero => exact fun j s => ⟨s, s.txMeta, rfl, .refl _ _ s, rfl, fun i hi => ⟨hi, by omega⟩⟩
  | succ n ih =>
    intro j s
    have hzero := Frame.zeroDescriptor false false .tx j s
    obtain ⟨u, ms, e, hu, hlen, hbusy⟩ := ih (j + 1) ((zeroDescriptor .tx j s).setTxMeta j ⟨none, none, false⟩)
    obtain ⟨v, rfl, hv⟩ := Frame.of_setTxMeta hu
    refine ⟨v, ms, e, hzero.trans hv, ?_, fun i hi => ?_⟩
    · rw [hlen, State.setTxMeta, List.length_set, hzero.txMetaLength]
    · obtain ⟨hb, hrange⟩ := hbusy i hi
      rw [State.busy_setTxMeta_idle, hzero.busy, Bool.and_eq_true, bne_iff_ne] at hb
      exact ⟨hb.1, by omega⟩

/-- TXRING.NEW leaves no slot busy, both transmit cursors at 0, and the ring ready (R210). -/
theorem txringNew_change (s : State) : Change .txringNew s false (txringNew s) := by
  obtain ⟨u, ms, e, hu, hlen, hbusy⟩ := clearSlots_changes s.params.nTx 0 s
  have hdrain := (Frame.fenceWw false false { u with txMeta := ms }).trans (.barrierDsb false false _)
  obtain ⟨v, hv, hframe⟩ := Frame.of_setTxMeta hdrain
  unfold txringNew
  rw [e, hv]
  refine .txConstructed (u := v) rfl (hu.trans hframe) hlen fun j hj => ?_
  refine Bool.eq_false_iff.mpr fun hb => ?_
  have := (hbusy j hb).2
  omega

/-- Dropping a completion at the submit cursor, once SW has read the slot's owner (R212). -/
theorem dropLapped_of_frame {rx tx : Bool} {s u : State} (hu : Frame rx tx s u) :
    dropLapped s.txNext u = { u with txReclaim := s.reclaimPastLap } := by
  unfold dropLapped State.reclaimPastLap
  rw [hu.busy, ← hu.params, ← hu.txReclaim]
  split <;> rfl

/-- TXRING.SEND moves the submit cursor on where it sends; where it overwrites a completion the reclaim cursor moves on
too, even if the hand-over then raises (R211, R212). -/
theorem ringSend_changes {i : Instr} (hi : i = .txringSend ∨ i = .engSend) (len : Word) (p : Option PacketId)
    (g : FillFn) (s : State) : (ringSend len p g s).Changes i s := by
  have howned := Frame.isOwned false true .tx s.txNext s
  unfold ringSend
  dsimp only
  split
  · obtain rfl | rfl := hi <;> exact .framed howned
  · rw [dropLapped_of_frame howned]
    generalize hold : memRead (s.params.txBuf s.txNext) len.toNat
      { (isOwned .tx s.txNext s).2 with txReclaim := s.reclaimPastLap } = old
    have hread := hold ▸ Frame.memRead false true (s.params.txBuf s.txNext) len.toNat
      { (isOwned .tx s.txNext s).2 with txReclaim := s.reclaimPastLap }
    have hfill := hread.trans (.memWrite false true (s.params.txBuf s.txNext) (g.eval old.1) old.2)
    have hsend := (Frame.txSend false s.txNext (s.params.txBuf s.txNext) len p _).imp fun _ h => hfill.trans h
    cases hr : txSend s.txNext (s.params.txBuf s.txNext) len p
      (memWrite (s.params.txBuf s.txNext) (g.eval old.1) old.2) with
    | done v t =>
      rw [hr] at hsend
      obtain ⟨u, rfl, hu⟩ := Frame.of_setTxReclaim hsend
      exact .sent (u := u) hi (howned.trans hu)
    | fatal f t =>
      rw [hr] at hsend
      obtain ⟨u, rfl, hu⟩ := Frame.of_setTxReclaim hsend
      exact .lapped (u := u) hi (howned.trans hu)

/-- TXRING.RECLAIM frees the slot at the reclaim cursor and moves the cursor on, or leaves both (R213). -/
theorem ringReclaim_change {i : Instr} (hi : i = .txringReclaim ∨ i = .engTxReclaim) (q : Option PacketId) (s : State) :
    Change i s false (ringReclaim q s).2 := by
  have hframed : ∀ {u : State}, Frame false true s u → Change i s false u := fun hu => by
    obtain rfl | rfl := hi <;> exact .framed hu
  have htake := Frame.takeCompleted false s.txReclaim q s
  unfold ringReclaim
  dsimp only
  split
  · exact hframed (.refl _ _ s)
  · next hbusy =>
    split
    · exact hframed htake
    · exact .reclaimed hi (by simpa using hbusy) htake

/-! ### Every operation -/

/-- Every operation ends in one of the cases of `Change`, whatever the schedule and the outcome. -/
theorem exec_changed {i : Instr} {s t : State} (h : exec i s = .next t) : Changed i s t := by
  unfold exec at h
  cases i with
  | rawRead d slot k => exact Changed.command h fun _ => .framed (.swRead false false d slot k s)
  | rawModify d slot k => exact Changed.command h fun _ => .framed (.swModify false false d slot k _ s)
  | fenceWw => exact Changed.command h fun _ => .framed (.fenceWw false false s)
  | barrierDsb => exact Changed.command h fun _ => .framed (.barrierDsb false false s)
  | fenceFull => exact Changed.command h fun _ => .framed (.fenceFull false false s)
  | fenceRr => exact Changed.command h fun _ => .framed (.fenceRr false false s)
  | ownTransfer d slot =>
    exact Changed.command h fun _ => (Run.Ends.changes (Frame.ownTransfer false false d slot s)).reply _
  | rxdIsOwned slot => exact Changed.command h fun _ => .framed (.isOwned false false .rx slot s)
  | rxdSetup slot => exact Changed.command h fun _ => (Run.Ends.changes (Frame.rxSetup false slot _ s)).reply _
  | rxdTakeReceived slot =>
    exact Changed.command h fun _ => (Run.Ends.changes (Frame.takeReceived false slot _ _ s)).reply _
  | rxdFrameLength slot => exact Changed.command h fun _ => .framed (.frameLength false false slot s)
  | rxdPacketId slot => exact Changed.command h fun _ => .framed (.refl false false s)
  | rxdTimestamp slot => exact Changed.command h fun _ => .framed (.refl false false s)
  | txdIsOwned slot => exact Changed.command h fun _ => .framed (.isOwned false false .tx slot s)
  | txdSend slot => exact Changed.command h fun _ => (Run.Ends.changes (Frame.txSend false slot _ _ _ s)).reply _
  | txdTakeCompleted slot => exact Changed.command h fun _ => .framed (.takeCompleted false slot _ s)
  | rxringNew => exact Changed.command h fun _ => (rxringNew_changes s).reply _
  | rxringRecvNext => exact Changed.command h fun _ => (recvNext_changes (.inl rfl) _ s).reply _
  | txringNew => exact Changed.command h fun _ => txringNew_change s
  | txringSend => exact Changed.command h fun _ => (ringSend_changes (.inl rfl) _ _ _ s).reply _
  | txringReclaim => exact Changed.command h fun _ => ringReclaim_change (.inl rfl) _ s
  | engNew =>
    refine Changed.command h fun hc => ?_
    have hready : (s.readyRx && s.readyTx) = true := check_holds (c := s.bothReadyCheck) hc (by simp)
    obtain ⟨hrx, htx⟩ := Bool.and_eq_true_iff.mp hready
    exact .engineBound rfl hrx htx
  | engSend => exact Changed.command h fun _ => (ringSend_changes (.inr rfl) _ _ _ s).reply _
  | engRecvNext => exact Changed.command h fun _ => (recvNext_changes (.inr rfl) _ s).reply _
  | engEnableInterrupt =>
    exact Changed.command h fun hc => .interruptSwitched (.inl rfl) (check_holds (c := s.boundCheck) hc (by simp))
  | engDisableInterrupt =>
    exact Changed.command h fun hc => .interruptSwitched (.inr rfl) (check_holds (c := s.boundCheck) hc (by simp))
  | engInterruptAck => exact Changed.command h fun _ => .framed (by constructor <;> intros <;> rfl)
  | engTxState => exact Changed.command h fun _ => .framed (.countOwned false false _ 0 s)
  | engTxReclaim => exact Changed.command h fun _ => ringReclaim_change (.inr rfl) _ s

end Machine

end Sys2Proof
end

section
/-! SUPPORT. Which cursor an operation moves, and which software-only and control state it may write
(spec/10_state.md rules R30, R32, R40, R42, R49). -/

namespace Sys2Proof.Machine

theorem State.reclaimPastLap_eq (s : State) :
    s.reclaimPastLap = s.txReclaim ∨ s.reclaimPastLap = nextSlot s.params.nTx s.txReclaim := by
  unfold State.reclaimPastLap
  split
  · exact .inr rfl
  · exact .inl rfl

/-- Settles O56: by the cases of `Change`. -/
theorem cursorsMoveByRingOperationsOnly : Obligations.CursorsMoveByRingOperationsOnly := by
  unfold Obligations.CursorsMoveByRingOperationsOnly
  intro s t i h
  obtain ⟨u, raised, r, hchange, rfl⟩ := exec_changed h
  cases hchange with
  | framed hu => exact ⟨.inl hu.rxNext, .inl hu.txNext, .inl hu.txReclaim⟩
  | rxConstructed hi hu => exact ⟨.inr (.inr ⟨rfl, hi⟩), .inl hu.txNext, .inl hu.txReclaim⟩
  | received hi hu _ => exact ⟨.inr (.inl ⟨rfl, hi⟩), .inl hu.txNext, .inl hu.txReclaim⟩
  | txConstructed hi hu _ _ => exact ⟨.inl hu.rxNext, .inr (.inr ⟨rfl, hi⟩), .inr (.inr ⟨rfl, hi⟩)⟩
  | lapped hi hu =>
    exact ⟨.inl hu.rxNext, .inl hu.txNext, s.reclaimPastLap_eq.imp_right fun e => .inl ⟨e, hi.imp_right .inl⟩⟩
  | sent hi hu =>
    exact ⟨.inl hu.rxNext, .inr (.inl ⟨rfl, hi⟩), s.reclaimPastLap_eq.imp_right fun e => .inl ⟨e, hi.imp_right .inl⟩⟩
  | reclaimed hi _ hu => exact ⟨.inl hu.rxNext, .inl hu.txNext, .inr (.inl ⟨rfl, .inr (.inr hi)⟩)⟩
  | engineBound _ _ _ => exact ⟨.inl rfl, .inl rfl, .inl rfl⟩
  | interruptSwitched _ _ => exact ⟨.inl rfl, .inl rfl, .inl rfl⟩

/-- Settles O57: by the cases of `Change`; a clause that a case breaks excepts the operations of that case. -/
theorem softwareStateFrame : Obligations.SoftwareStateFrame := by
  unfold Obligations.SoftwareStateFrame
  intro s t i h
  obtain ⟨u, raised, r, hchange, rfl⟩ := exec_changed h
  cases hchange with
  | framed hu =>
    exact ⟨hu.params, hu.inbox, hu.ports, fun _ _ _ => hu.rxHeld,
      fun h1 h2 h3 h4 h5 => hu.rxMeta (i.writesRxMeta_eq_false h1 h2 h3 h4 h5),
      fun h1 h2 h3 h4 h5 h6 h7 => hu.txMeta (i.writesTxMeta_eq_false h1 h2 h3 h4 h5 h6 h7),
      fun _ _ _ _ _ => hu.busy, fun _ _ _ => hu.intEnable, fun _ => hu.readyRx, fun _ => hu.readyTx, fun _ => hu.bound⟩
  | rxConstructed hi hu =>
    exact ⟨hu.params, hu.inbox, hu.ports, fun h => absurd hi h, fun _ _ h => absurd hi h,
      fun _ _ _ _ _ _ _ => hu.txMeta rfl, fun _ _ _ _ _ => hu.busy, fun _ _ _ => hu.intEnable, fun h => absurd hi h,
      fun _ => hu.readyTx, fun _ => hu.bound⟩
  | received hi hu _ =>
    exact ⟨hu.params, hu.inbox, hu.ports, fun _ h h' => (hi.elim h h').elim, fun _ _ _ h h' => (hi.elim h h').elim,
      fun _ _ _ _ _ _ _ => hu.txMeta rfl, fun _ _ _ _ _ => hu.busy, fun _ _ _ => hu.intEnable, fun _ => hu.readyRx,
      fun _ => hu.readyTx, fun _ => hu.bound⟩
  | txConstructed hi hu _ _ =>
    exact ⟨hu.params, hu.inbox, hu.ports, fun _ _ _ => hu.rxHeld, fun _ _ _ _ _ => hu.rxMeta rfl,
      fun _ _ h => absurd hi h, fun h => absurd hi h, fun _ _ _ => hu.intEnable, fun _ => hu.readyRx,
      fun h => absurd hi h, fun _ => hu.bound⟩
  | lapped hi hu =>
    exact ⟨hu.params, hu.inbox, hu.ports, fun _ _ _ => hu.rxHeld, fun _ _ _ _ _ => hu.rxMeta rfl,
      fun _ _ _ h h' => (hi.elim h h').elim, fun _ _ _ _ _ => hu.busy, fun _ _ _ => hu.intEnable, fun _ => hu.readyRx,
      fun _ => hu.readyTx, fun _ => hu.bound⟩
  | sent hi hu =>
    exact ⟨hu.params, hu.inbox, hu.ports, fun _ _ _ => hu.rxHeld, fun _ _ _ _ _ => hu.rxMeta rfl,
      fun _ _ _ h h' => (hi.elim h h').elim, fun _ h h' => (hi.elim h h').elim, fun _ _ _ => hu.intEnable,
      fun _ => hu.readyRx, fun _ => hu.readyTx, fun _ => hu.bound⟩
  | reclaimed hi _ hu =>
    exact ⟨hu.params, hu.inbox, hu.ports, fun _ _ _ => hu.rxHeld, fun _ _ _ _ _ => hu.rxMeta rfl,
      fun _ _ _ _ _ h h' => (hi.elim h h').elim, fun _ _ _ h h' => (hi.elim h h').elim, fun _ _ _ => hu.intEnable,
      fun _ => hu.readyRx, fun _ => hu.readyTx, fun _ => hu.bound⟩
  | engineBound hi _ _ =>
    exact ⟨rfl, rfl, rfl, fun _ _ _ => rfl, fun _ _ _ _ _ => rfl, fun _ _ _ _ _ _ _ => rfl, fun _ _ _ _ _ _ => rfl,
      fun h => absurd hi h, fun _ => rfl, fun _ => rfl, fun h => absurd hi h⟩
  | interruptSwitched hi _ =>
    exact ⟨rfl, rfl, rfl, fun _ _ _ => rfl, fun _ _ _ _ _ => rfl, fun _ _ _ _ _ _ _ => rfl, fun _ _ _ _ _ _ => rfl,
      fun _ h h' => (hi.elim h h').elim, fun _ => rfl, fun _ => rfl, fun _ => rfl⟩

end Sys2Proof.Machine
end

section
/-! SUPPORT. Every operation keeps shared memory, the write buffer and the window as the invariants ask, and every step
keeps the invariants of the block (spec/10_state.md rules R22, R30, R31, R46, R47, R49). -/

namespace Sys2Proof.Machine

/-! ### What the ring operations keep of shared memory -/

/-- Registers that software alone may change take no part in `Keeps`. -/
theorem Keeps.setRegisters (s : State) {rxNext txNext txReclaim : Nat} {rxHeld : Option Nat} {txMeta : List TxMeta}
    {intEnable readyRx readyTx : Bool} :
    Keeps s { s with
      rxNext := rxNext, txNext := txNext, txReclaim := txReclaim, rxHeld := rxHeld, txMeta := txMeta,
      intEnable := intEnable, readyRx := readyRx, readyTx := readyTx } :=
  ⟨rfl, rfl, id, fun _ h => ⟨h.wf, h.apart⟩, fun _ => ⟨rfl, rfl⟩, id⟩

/-- A nested operation and what follows it, each keeping from where it starts. -/
theorem Keeps.andThen {α β : Type} {s : State} {r : Run α} {next : α → State → Run β} (h : r.Ends (Keeps s))
    (hn : ∀ v t, r = .done v t → (next v t).Ends (Keeps t)) : (r.andThen next).Ends (Keeps s) := by
  cases r with
  | done v t => exact (hn v t rfl).imp fun _ g => h.trans g
  | fatal f t => exact h

theorem Keeps.rxringNew (s : State) (hp : s.params.wf = true) : (rxringNew s).Ends (Keeps s) :=
  Keeps.andThen (Keeps.armSlots _ 0 s hp (Nat.zero_add _).le) fun _ t _ => Keeps.setRegisters t

theorem Keeps.txringNew (s : State) : Keeps s (txringNew s) := by
  have hclear := Keeps.clearSlots s.params.nTx 0 s (Nat.zero_add _).le
  exact ((hclear.trans (.fenceWw _)).trans (.barrierDsb _)).trans (Keeps.setRegisters _)

/-- What RXRING.RECV_NEXT does after its reclaim starts from the held slot of the state before (R203). -/
theorem Keeps.recvNext (p : Option PacketId) (s : State) (hp : s.params.wf = true) (hi : s.rxNext < s.params.nRx)
    (hh : ∀ h, s.rxHeld = some h → h < s.params.nRx) : (recvNext p s).Ends (Keeps s) := by
  have hframe := Frame.takeReceived true s.rxNext p (s.params.rxBuf s.rxNext) s
  refine Keeps.andThen (Keeps.takeReceived s.rxNext p _ s hp hi) fun r t e => ?_
  rw [e] at hframe
  have hrearm : ∀ u, Frame true true s u → (Machine.rearmHeld u).Ends (Keeps u) := fun u hu =>
    Keeps.rearmHeld u (hu.params ▸ hp) (hu.params ▸ hu.rxHeld ▸ hh)
  rcases r with (_ | _) | _
  · exact .refl t
  · exact Keeps.andThen (hrearm t hframe) fun _ u _ => Keeps.setRegisters u
  · have hlen := Keeps.frameLength s.rxNext t
    have hlenFrame := Frame.trans hframe (.frameLength true true s.rxNext t)
    dsimp only
    split
    · exact hlen
    · have hread := hlen.trans (.memRead (t.params.rxBuf s.rxNext) (Machine.frameLength s.rxNext t).1 _)
      have hreadFrame := hlenFrame.trans
        (.memRead true true (t.params.rxBuf s.rxNext) (Machine.frameLength s.rxNext t).1 _)
      exact Keeps.andThen ((hrearm _ hreadFrame).imp fun _ g => hread.trans g) fun _ u _ => Keeps.setRegisters u

theorem Keeps.dropLapped (j : Nat) (s : State) : Keeps s (dropLapped j s) := by
  unfold Machine.dropLapped
  split
  · exact Keeps.setRegisters s
  · exact .refl s

/-- TXRING.SEND stores into its slot's own buffer, which lies outside the descriptor arrays (R211, R311). -/
theorem Keeps.ringSend (len : Word) (p : Option PacketId) (g : FillFn) (s : State) (hp : s.params.wf = true)
    (hj : s.txNext < s.params.nTx) (hl : len.toNat ≤ s.params.txBufSize) : (ringSend len p g s).Ends (Keeps s) := by
  have howned := Keeps.isOwned .tx s.txNext s
  unfold Machine.ringSend
  dsimp only
  split
  · exact howned
  · have hread := (howned.trans (.dropLapped s.txNext _)).trans (.memRead (s.params.txBuf s.txNext) len.toNat _)
    have hlen := length_memRead (s.params.txBuf s.txNext) len.toNat
      (Machine.dropLapped s.txNext (Machine.isOwned .tx s.txNext s).2)
    generalize Machine.memRead (s.params.txBuf s.txNext) len.toNat _ = old at hread hlen
    have hfill := hread.trans (.memWrite (s.params.txBuf s.txNext) (g.eval old.1) old.2 fun k hk => by
      rw [FillFn.length_eval, hlen] at hk
      rw [hread.params]
      exact s.params.txBuf_apart hp s.txNext k hj (by omega))
    have hsend := Keeps.txSend s.txNext (s.params.txBuf s.txNext) len p _ (by rw [hfill.params]; exact hp)
      (by rw [hfill.params]; exact hj)
    exact Keeps.andThen (hsend.imp fun _ h => hfill.trans h) fun _ t _ => Keeps.setRegisters t

theorem Keeps.ringReclaim (q : Option PacketId) (s : State) : Keeps s (ringReclaim q s).2 := by
  have htake := Keeps.takeCompleted s.txReclaim q s
  unfold Machine.ringReclaim
  dsimp only
  split
  · exact .refl s
  · split
    · exact htake
    · exact htake.trans (Keeps.setRegisters _)

/-! ### Shared memory after an operation -/

/-- The part of the invariants that shared memory, the write buffer, the window and the interrupt flags take part in
(R45, R46, R47, R49). -/
structure State.SharedSound (s : State) : Prop where
  writeBuffer : s.WbSound
  memory : s.MemoryCanonical
  window : s.handover = none
  flags : s.bound = false → s.ri = false ∧ s.ti = false

theorem Keeps.sharedSound {s t : State} (h : Keeps s t) (hs : s.SharedSound) : t.SharedSound where
  writeBuffer := h.sound hs.writeBuffer
  memory := h.canonical hs.writeBuffer hs.memory
  window := h.window hs.window
  flags := fun hb => by
    have hs' := h.bound.symm.trans hb
    obtain ⟨hri, hti⟩ := h.unbound hs'
    exact ⟨hri.trans (hs.flags hs').1, hti.trans (hs.flags hs').2⟩

theorem State.Invariant.sharedSound {s : State} (h : s.Invariant) : s.SharedSound :=
  ⟨h.writeBuffer, h.memory, h.window, fun hb => (h.engine.quietBefore hb).2⟩

/-- The result port and `halted` take no part in it. -/
theorem State.SharedSound.setReply {s : State} (h : s.SharedSound) (b : Bool) (r : Option Reply) :
    State.SharedSound { s with halted := b, reply := r } :=
  ⟨h.writeBuffer, ⟨h.memory.wf, h.memory.apart⟩, h.window, h.flags⟩

theorem State.SharedSound.command {s t : State} {checks : List Check} {run : State → Run Reply} (hs : s.SharedSound)
    (h : s.command checks run = .next t) (hrun : firstRefusal checks = none → (run s).Ends (Keeps s)) :
    t.SharedSound := by
  obtain ⟨r, _, rfl⟩ | ⟨r, u, hc, hr, rfl⟩ | ⟨f, u, hc, hr, rfl⟩ := State.command_cases h
  · exact hs.setReply _ _
  · have hu := hrun hc
    rw [hr] at hu
    exact (Keeps.sharedSound hu hs).setReply _ _
  · have hu := hrun hc
    rw [hr] at hu
    exact (Keeps.sharedSound hu hs).setReply _ _

/-- ENG.NEW binds the engine and leaves shared memory, the write buffer and the window (R230). -/
theorem State.SharedSound.execEngNew {s t : State} (hs : s.SharedSound) (h : execEngNew s = .next t) :
    t.SharedSound := by
  obtain ⟨r, _, rfl⟩ | ⟨r, u, _, hr, rfl⟩ | ⟨f, u, _, hr, rfl⟩ := State.command_cases h
  · exact hs.setReply _ _
  · cases hr
    exact ⟨hs.writeBuffer, ⟨hs.memory.wf, hs.memory.apart⟩, hs.window, nofun⟩
  · cases hr

/-- The end of a nested operation answers with a value made of its own. -/
theorem Keeps.reply {α β : Type} {s : State} {r : Run α} (h : r.Ends (Keeps s)) (f : α → β) :
    (r.andThen fun v t => .done (f v) t).Ends (Keeps s) := Keeps.andThen h fun _ t _ => .refl t

/-- An operation on a named slot runs only where the slot exists (R114). -/
theorem slot_lt_capacity {s : State} {d : Dir} {slot : Nat} {checks : List Check} (h : firstRefusal checks = none)
    (hc : s.slotCheck d slot ∈ checks) : slot < s.params.capacity d := of_decide_eq_true (check_holds h hc)

/-- Every operation leaves shared memory, the write buffer and the window sound, whatever the schedule. -/
theorem State.Invariant.exec_sharedSound {i : Instr} {s t : State} (hs : s.Invariant) (h : exec i s = .next t) :
    t.SharedSound := by
  have hsh := hs.sharedSound
  have hp := hs.instanceWf
  have hheld := fun n hn => (hs.held n hn).1
  have hfits : ∀ {cs}, firstRefusal cs = none → s.capacityCheck ∈ cs → s.ports.arg0.toNat ≤ s.params.txBufSize :=
    fun hc hmem => of_decide_eq_true (check_holds hc hmem)
  unfold exec at h
  cases i with
  | rawRead d slot k => exact hsh.command h fun _ => Keeps.swRead d slot k s
  | rawModify d slot k =>
    exact hsh.command h fun hc => Keeps.swModify d slot k _ s (slot_lt_capacity hc (.head _)) k.isLt
  | fenceWw => exact hsh.command h fun _ => Keeps.fenceWw s
  | barrierDsb => exact hsh.command h fun _ => Keeps.barrierDsb s
  | fenceFull => exact hsh.command h fun _ => Keeps.fenceFull s
  | fenceRr => exact hsh.command h fun _ => Keeps.fenceRr s
  | ownTransfer d slot =>
    exact hsh.command h fun hc => Keeps.reply (Keeps.ownTransfer d slot s hp (slot_lt_capacity hc (.head _))) _
  | rxdIsOwned slot => exact hsh.command h fun _ => Keeps.isOwned .rx slot s
  | rxdSetup slot =>
    exact hsh.command h fun hc => Keeps.reply (Keeps.rxSetup slot _ s hp (slot_lt_capacity hc (.head _))) _
  | rxdTakeReceived slot =>
    exact hsh.command h fun hc => Keeps.reply (Keeps.takeReceived slot _ _ s hp (slot_lt_capacity hc (.head _))) _
  | rxdFrameLength slot => exact hsh.command h fun _ => Keeps.frameLength slot s
  | rxdPacketId slot => exact hsh.command h fun _ => Keeps.refl s
  | rxdTimestamp slot => exact hsh.command h fun _ => Keeps.refl s
  | txdIsOwned slot => exact hsh.command h fun _ => Keeps.isOwned .tx slot s
  | txdSend slot =>
    exact hsh.command h fun hc => Keeps.reply (Keeps.txSend slot _ _ _ s hp (slot_lt_capacity hc (.head _))) _
  | txdTakeCompleted slot => exact hsh.command h fun _ => Keeps.takeCompleted slot _ s
  | rxringNew => exact hsh.command h fun _ => Keeps.reply (Keeps.rxringNew s hp) _
  | rxringRecvNext => exact hsh.command h fun _ => Keeps.reply (Keeps.recvNext _ s hp hs.cursors.rxNext hheld) _
  | txringNew => exact hsh.command h fun _ => Keeps.txringNew s
  | txringSend =>
    exact hsh.command h fun hc => Keeps.reply (Keeps.ringSend _ _ _ s hp hs.cursors.txNext (hfits hc (by simp))) _
  | txringReclaim => exact hsh.command h fun _ => Keeps.ringReclaim _ s
  | engNew => exact hsh.execEngNew h
  | engSend =>
    exact hsh.command h fun hc => Keeps.reply (Keeps.ringSend _ _ _ s hp hs.cursors.txNext (hfits hc (by simp))) _
  | engRecvNext => exact hsh.command h fun _ => Keeps.reply (Keeps.recvNext _ s hp hs.cursors.rxNext hheld) _
  | engEnableInterrupt => exact hsh.command h fun _ => Keeps.setRegisters s
  | engDisableInterrupt => exact hsh.command h fun _ => Keeps.setRegisters s
  | engInterruptAck =>
    exact hsh.command h fun hc =>
      (SharedStep.signal s false false s.sent (check_holds (c := s.boundCheck) hc (by simp))).keeps id
  | engTxState => exact hsh.command h fun _ => Keeps.countOwned _ 0 s
  | engTxReclaim => exact hsh.command h fun _ => Keeps.ringReclaim _ s

/-! ### The invariants after a step -/

theorem Frame.sized {rx tx : Bool} {s t : State} (h : Frame rx tx s t) (hs : s.Sized) : t.Sized := by
  constructor
  · rw [h.rxWords, h.params, hs.rxWords]
  · rw [h.txWords, h.params, hs.txWords]
  · rw [h.rxMetaLength, h.params, hs.rxMeta]
  · rw [h.txMetaLength, h.params, hs.txMeta]

/-- A framed change, then registers set within the invariants, keeps them where shared memory is left sound. -/
theorem State.Invariant.frame_setRegisters {rx tx : Bool} {s u : State} (hs : s.Invariant) (h : Frame rx tx s u)
    {rxNext txNext txReclaim : Nat} {rxHeld : Option Nat} {txMeta : List TxMeta} {readyRx readyTx : Bool}
    (hcursors : rxNext < s.params.nRx ∧ txNext < s.params.nTx ∧ txReclaim < s.params.nTx)
    (hheld : ∀ n, rxHeld = some n → n < s.params.nRx ∧ rxNext = nextSlot s.params.nRx n)
    (hmeta : txMeta.length = s.txMeta.length) (hrx : s.readyRx = true → readyRx = true)
    (htx : s.readyTx = true → readyTx = true)
    (ht : State.SharedSound { u with
      rxNext := rxNext, txNext := txNext, txReclaim := txReclaim, rxHeld := rxHeld, txMeta := txMeta,
      readyRx := readyRx, readyTx := readyTx }) :
    State.Invariant { u with
      rxNext := rxNext, txNext := txNext, txReclaim := txReclaim, rxHeld := rxHeld, txMeta := txMeta,
      readyRx := readyRx, readyTx := readyTx } := by
  obtain ⟨hrxNext, htxNext, htxReclaim⟩ := hcursors
  have hsized := h.sized hs.sized
  have hbound {b : Bool} (hb : u.bound = b) : s.bound = b := h.bound.symm.trans hb
  exact {
    instanceWf := show u.params.wf = true from h.params ▸ hs.instanceWf
    sized := ⟨hsized.rxWords, hsized.txWords, hsized.rxMeta, (hmeta.trans hs.sized.txMeta).trans (by rw [h.params])⟩
    cursors := ⟨show _ < u.params.nRx from h.params ▸ hrxNext, show _ < u.params.nTx from h.params ▸ htxNext,
      show _ < u.params.nTx from h.params ▸ htxReclaim⟩
    held := fun n hn => show n < u.params.nRx ∧ rxNext = nextSlot u.params.nRx n from h.params ▸ hheld n hn
    memory := ht.memory
    writeBuffer := ht.writeBuffer
    engine := ⟨fun hb => hrx (hs.engine.readyRx (hbound hb)), fun hb => htx (hs.engine.readyTx (hbound hb)),
      fun hb => ⟨h.intEnable.trans (hs.engine.quietBefore (hbound hb)).1, ht.flags hb⟩⟩
    window := ht.window }

theorem State.Invariant.frame {rx tx : Bool} {s t : State} (hs : s.Invariant) (h : Frame rx tx s t)
    (ht : t.SharedSound) : t.Invariant :=
  hs.frame_setRegisters h
    ⟨h.rxNext ▸ hs.cursors.rxNext, h.txNext ▸ hs.cursors.txNext, h.txReclaim ▸ hs.cursors.txReclaim⟩
    (h.rxNext ▸ h.rxHeld ▸ hs.held) h.txMetaLength h.readyRx.trans h.readyTx.trans ht

theorem State.reclaimPastLap_lt {s : State} (hs : s.CursorsBelowCapacity) : s.reclaimPastLap < s.params.nTx := by
  obtain e | e := s.reclaimPastLap_eq
  · exact e ▸ hs.txReclaim
  · exact e ▸ nextSlot_lt _ _ (Nat.zero_lt_of_lt hs.txReclaim)

/-- Every case of `Change` keeps the invariants where it leaves shared memory sound. -/
theorem State.Invariant.change {i : Instr} {raised : Bool} {s t : State} (hs : s.Invariant) (h : Change i s raised t)
    (ht : t.SharedSound) : t.Invariant := by
  have hrxSlot := Nat.zero_lt_of_lt hs.cursors.rxNext
  have htxSlot := Nat.zero_lt_of_lt hs.cursors.txNext
  cases h with
  | framed hu => exact hs.frame hu ht
  | rxConstructed _ hu =>
    exact hs.frame_setRegisters hu
      ⟨hrxSlot, hu.txNext ▸ hs.cursors.txNext, hu.txReclaim ▸ hs.cursors.txReclaim⟩
      nofun hu.txMetaLength (fun _ => rfl) hu.readyTx.trans ht
  | received _ hu hheld =>
    refine hs.frame_setRegisters hu
      ⟨nextSlot_lt _ _ hrxSlot, hu.txNext ▸ hs.cursors.txNext, hu.txReclaim ▸ hs.cursors.txReclaim⟩
      (fun n hn => ?_) hu.txMetaLength hu.readyRx.trans hu.readyTx.trans ht
    obtain rfl | rfl := hheld
    · cases hn
    · cases hn
      exact ⟨hs.cursors.rxNext, rfl⟩
  | txConstructed _ hu hlen _ =>
    exact hs.frame_setRegisters hu ⟨hu.rxNext ▸ hs.cursors.rxNext, htxSlot, htxSlot⟩
      (hu.rxNext ▸ hu.rxHeld ▸ hs.held) hlen hu.readyRx.trans (fun _ => rfl) ht
  | lapped _ hu =>
    exact hs.frame_setRegisters hu
      ⟨hu.rxNext ▸ hs.cursors.rxNext, hu.txNext ▸ hs.cursors.txNext, State.reclaimPastLap_lt hs.cursors⟩
      (hu.rxNext ▸ hu.rxHeld ▸ hs.held) hu.txMetaLength hu.readyRx.trans hu.readyTx.trans ht
  | sent _ hu =>
    exact hs.frame_setRegisters hu
      ⟨hu.rxNext ▸ hs.cursors.rxNext, nextSlot_lt _ _ htxSlot, State.reclaimPastLap_lt hs.cursors⟩
      (hu.rxNext ▸ hu.rxHeld ▸ hs.held) (List.length_set.trans hu.txMetaLength) hu.readyRx.trans hu.readyTx.trans ht
  | reclaimed _ _ hu =>
    exact hs.frame_setRegisters hu
      ⟨hu.rxNext ▸ hs.cursors.rxNext, hu.txNext ▸ hs.cursors.txNext, nextSlot_lt _ _ htxSlot⟩
      (hu.rxNext ▸ hu.rxHeld ▸ hs.held) (List.length_set.trans hu.txMetaLength) hu.readyRx.trans hu.readyTx.trans ht
  | engineBound _ hrx htx =>
    exact ⟨hs.instanceWf, ⟨hs.sized.rxWords, hs.sized.txWords, hs.sized.rxMeta, hs.sized.txMeta⟩,
      ⟨hs.cursors.rxNext, hs.cursors.txNext, hs.cursors.txReclaim⟩, hs.held, ht.memory, ht.writeBuffer,
      ⟨fun _ => hrx, fun _ => htx, nofun⟩, ht.window⟩
  | interruptSwitched _ hbound =>
    exact ⟨hs.instanceWf, ⟨hs.sized.rxWords, hs.sized.txWords, hs.sized.rxMeta, hs.sized.txMeta⟩,
      ⟨hs.cursors.rxNext, hs.cursors.txNext, hs.cursors.txReclaim⟩, hs.held, ht.memory, ht.writeBuffer,
      ⟨hs.engine.readyRx, hs.engine.readyTx, fun hb => absurd (hbound.symm.trans hb) nofun⟩, ht.window⟩

/-- What arrives, the operand ports, `halted` and the result port take no part in the invariants. -/
theorem State.Invariant.setInterface {s : State} (hs : s.Invariant) (inbox : List Input) (ports : Ports) (halted : Bool)
    (reply : Option Reply) :
    State.Invariant { s with inbox := inbox, ports := ports, halted := halted, reply := reply } :=
  ⟨hs.instanceWf, ⟨hs.sized.rxWords, hs.sized.txWords, hs.sized.rxMeta, hs.sized.txMeta⟩,
    ⟨hs.cursors.rxNext, hs.cursors.txNext, hs.cursors.txReclaim⟩, hs.held, ⟨hs.memory.wf, hs.memory.apart⟩,
    hs.writeBuffer, ⟨hs.engine.readyRx, hs.engine.readyTx, hs.engine.quietBefore⟩, hs.window⟩

/-- Every operation keeps the invariants, whatever the schedule. -/
theorem State.Invariant.exec {i : Instr} {s t : State} (hs : s.Invariant) (h : exec i s = .next t) : t.Invariant := by
  have ht := hs.exec_sharedSound h
  obtain ⟨u, raised, r, hchange, rfl⟩ := exec_changed h
  have hu : u.SharedSound := ht.setReply u.halted u.reply
  exact (hs.change hchange hu).setInterface _ _ _ _

/-- Every step of another agent keeps the invariants (R250). -/
theorem State.Invariant.envStep {s : State} (hs : s.Invariant) (e : EnvStep) : (s.envStep e).Invariant := by
  have hstep := SharedStep.envStep s e
  have hkeeps : Keeps s (s.envStep e) := hstep.keeps fun h => (s.envStep_rest e).1.trans h
  exact hs.frame (hstep.frame true true) (hkeeps.sharedSound hs.sharedSound)

/-- Settles O53: a step waits, takes a step of another agent, runs an operation, or refuses a word; each keeps the
invariants. -/
theorem stepKeepsTheInvariants : Obligations.StepKeepsTheInvariants := by
  unfold Obligations.StepKeepsTheInvariants
  intro s t hs h
  obtain ⟨_, rfl⟩ | ⟨e, rest, _, rfl⟩ | ⟨c, rest, i, _, _, hexec⟩ | ⟨c, rest, e, _, _, rfl⟩ := step_cases h
  · exact hs
  · exact (hs.setInterface rest _ _ _).envStep e
  · exact State.Invariant.exec (hs.setInterface rest c.ports _ _) hexec
  · exact hs.setInterface rest c.ports _ _

end Sys2Proof.Machine
end

section
/-! SUPPORT. The busy transmit slots stay a cyclic range (spec/10_state.md rule R44, spec/44_rings.md rules R212, R213):
first cyclic ranges of numbers, then the cases of `Change`. -/

namespace Sys2Proof

/-- The slots that `busy` marks in a ring of `n` slots are the cyclic range from `first` up to `next` (R44). -/
def CyclicRange (n first next : Nat) (busy : Nat → Bool) : Prop :=
  ∃ m, m ≤ n ∧ next = (first + m) % n ∧ ∀ j, j < n → (busy j = true ↔ ∃ k, k < m ∧ j = (first + k) % n)

theorem eq_add_mod_iff {n first k j : Nat} (hfirst : first < n) (hk : k ≤ n) (hj : j < n) :
    j = (first + k) % n ↔ j = first + k ∨ j + n = first + k := by
  obtain h | h := Nat.lt_or_ge (first + k) n
  · rw [Nat.mod_eq_of_lt h]
    omega
  · rw [Nat.mod_eq_sub_mod h, Nat.mod_eq_of_lt (by omega)]
    omega

/-- A cyclic range without remainders: up to its end, or around the end of the ring. -/
theorem cyclicRange_iff {n first next : Nat} {busy : Nat → Bool} (hfirst : first < n) (hnext : next < n) :
    CyclicRange n first next busy ↔
      ∃ m, m ≤ n ∧ (next = first + m ∨ next + n = first + m) ∧
        ∀ j, j < n → (busy j = true ↔ first ≤ j ∧ j < first + m ∨ j + n < first + m) := by
  refine exists_congr fun m => and_congr_right fun hm =>
    and_congr (eq_add_mod_iff hfirst hm hnext) (forall₂_congr fun j hj => iff_congr Iff.rfl ?_)
  constructor
  · rintro ⟨k, hk, e⟩
    rw [eq_add_mod_iff hfirst (by omega) hj] at e
    omega
  · rintro (h | h)
    · exact ⟨j - first, by omega, (eq_add_mod_iff hfirst (by omega) hj).2 (by omega)⟩
    · exact ⟨j + n - first, by omega, (eq_add_mod_iff hfirst (by omega) hj).2 (by omega)⟩

/-- The ring successor in the two cases of R117, for `omega`. -/
theorem nextSlot_cases {n c : Nat} (h : c < n) :
    nextSlot n c = c + 1 ∧ c + 1 < n ∨ nextSlot n c = 0 ∧ c + 1 = n := by
  rw [nextSlot_eq n c h]
  split <;> omega

/-- The empty range. -/
theorem CyclicRange.empty {n first : Nat} {busy : Nat → Bool} (hfirst : first < n)
    (hidle : ∀ j, j < n → busy j = false) : CyclicRange n first first busy :=
  (cyclicRange_iff hfirst hfirst).2 ⟨0, by omega, by omega, fun j hj => by simp [hidle j hj]; omega⟩

/-- The whole ring. -/
theorem CyclicRange.whole {n first : Nat} {busy : Nat → Bool} (hfirst : first < n)
    (hbusy : ∀ j, j < n → busy j = true) : CyclicRange n first first busy :=
  (cyclicRange_iff hfirst hfirst).2 ⟨n, le_rfl, .inr rfl, fun j hj => by simp only [hbusy j hj, true_iff]; omega⟩

/-- The slot at the end of the range is marked: the range grows, or, where it was the whole ring, it moves on as a whole
(R211, R212). -/
theorem CyclicRange.push {n first next : Nat} {busy : Nat → Bool} (h : CyclicRange n first next busy)
    (hfirst : first < n) (hnext : next < n) :
    CyclicRange n (if busy next then nextSlot n first else first) (nextSlot n next)
      (fun j => if j = next then true else busy j) := by
  have hslot := nextSlot_lt n next (Nat.zero_lt_of_lt hfirst)
  obtain ⟨m, hm, he, hrange⟩ := (cyclicRange_iff hfirst hnext).1 h
  by_cases hfull : busy next = true
  · have hmarked := (hrange next hnext).1 hfull
    obtain rfl : next = first := by omega
    rw [if_pos hfull]
    refine .whole hslot fun j hj => ?_
    simp only [(hrange j hj).2 (by omega), ite_self]
  · have hfree := mt (hrange next hnext).2 hfull
    have hstep := nextSlot_cases hnext
    rw [if_neg hfull, cyclicRange_iff hfirst hslot]
    refine ⟨m + 1, by omega, by omega, fun j hj => ?_⟩
    by_cases hj' : j = next
    · simp only [hj', if_true, true_iff]
      omega
    · rw [if_neg hj', hrange j hj]
      omega

/-- The slot at the start of the range is freed: the range shrinks (R213). -/
theorem CyclicRange.pop {n first next : Nat} {busy : Nat → Bool} (h : CyclicRange n first next busy)
    (hfirst : first < n) (hnext : next < n) (hbusy : busy first = true) :
    CyclicRange n (nextSlot n first) next (fun j => if j = first then false else busy j) := by
  obtain ⟨m, hm, he, hrange⟩ := (cyclicRange_iff hfirst hnext).1 h
  have hmarked := (hrange first hfirst).1 hbusy
  have hstep := nextSlot_cases hfirst
  rw [cyclicRange_iff (nextSlot_lt n first (Nat.zero_lt_of_lt hfirst)) hnext]
  refine ⟨m - 1, by omega, by omega, fun j hj => ?_⟩
  by_cases hj' : j = first
  · simp only [hj', if_true, Bool.false_eq_true, false_iff]
    omega
  · rw [if_neg hj', hrange j hj]
    omega

namespace Machine

theorem State.busyRange_iff (s : State) : s.BusyRange ↔ CyclicRange s.params.nTx s.txReclaim s.txNext s.busy := Iff.rfl

theorem State.busy_setBusy (s : State) (j i : Nat) (b : Bool) (hj : j < s.txMeta.length) :
    (s.setBusy j b).busy i = if i = j then b else s.busy i := by
  unfold State.busy State.setBusy
  rw [State.txMetaAt_setTxMeta s j i _ hj]
  split <;> rfl

/-- A framed change leaves the busy slots and the transmit cursors alone. -/
theorem Frame.busyRange {rx tx : Bool} {s t : State} (h : Frame rx tx s t) (hs : s.BusyRange) : t.BusyRange := by
  rw [State.busyRange_iff, h.params, h.txReclaim, h.txNext, funext h.busy]
  exact hs

/-- Every case of `Change` that does not raise keeps the busy slots a cyclic range. -/
theorem Change.busyRange {i : Instr} {s t : State} (hs : s.Invariant) (hb : s.BusyRange) (h : Change i s false t) :
    t.BusyRange := by
  have hnext := hs.cursors.txNext
  have hreclaim := hs.cursors.txReclaim
  cases h with
  | framed hu => exact hu.busyRange hb
  | rxConstructed _ hu => exact hu.busyRange hb
  | received _ hu _ => exact hu.busyRange hb
  | txConstructed _ hu _ hidle =>
    have hn := Nat.zero_lt_of_lt hnext
    exact CyclicRange.empty (hu.params ▸ hn) (hu.params ▸ hidle)
  | @sent u _ hu =>
    have hlen : s.txNext < u.txMeta.length := by rw [hu.txMetaLength, hs.sized.txMeta]; exact hnext
    have hbusy : (u.setBusy s.txNext true).busy = fun j => if j = s.txNext then true else s.busy j :=
      funext fun j => by rw [State.busy_setBusy u _ j true hlen, hu.busy]
    show CyclicRange u.params.nTx s.reclaimPastLap (nextSlot s.params.nTx s.txNext) (u.setBusy s.txNext true).busy
    rw [hbusy, hu.params]
    exact CyclicRange.push hb hreclaim hnext
  | @reclaimed u _ hbusy hu =>
    have hlen : s.txReclaim < u.txMeta.length := by rw [hu.txMetaLength, hs.sized.txMeta]; exact hreclaim
    have hfreed : (u.setBusy s.txReclaim false).busy = fun j => if j = s.txReclaim then false else s.busy j :=
      funext fun j => by rw [State.busy_setBusy u _ j false hlen, hu.busy]
    show CyclicRange u.params.nTx (nextSlot s.params.nTx s.txReclaim) u.txNext (u.setBusy s.txReclaim false).busy
    rw [hfreed, hu.params, hu.txNext]
    exact CyclicRange.pop hb hreclaim hnext hbusy
  | engineBound _ _ _ => exact hb
  | interruptSwitched _ _ => exact hb

/-- Settles O54: by the cases of `Change`; only a `Fatal` leaves a completion dropped and its slot not sent again. -/
theorem stepKeepsTheBusyRange : Obligations.StepKeepsTheBusyRange := by
  unfold Obligations.StepKeepsTheBusyRange
  intro s t hs hb h
  obtain ⟨_, rfl⟩ | ⟨e, rest, _, rfl⟩ | ⟨c, rest, i, _, _, hexec⟩ | ⟨c, rest, e, _, _, rfl⟩ := step_cases h
  · exact .inr hb
  · exact .inr (((SharedStep.envStep _ e).frame true true).busyRange hb)
  · obtain ⟨u, raised, r, hchange, rfl⟩ := exec_changed hexec
    cases raised with
    | true => exact .inl rfl
    | false => exact .inr (Change.busyRange (s := s.latch rest c) (t := u) (hs.setInterface rest c.ports _ _) hb hchange)
  · exact .inr hb

end Machine

end Sys2Proof
end

section
/-! SUPPORT. What one drain of the write buffer does, said once for its three cases; then that it changes nothing SW
reads, and that no entry passes a fence (spec/20_memory.md rules R66, R69, R73). -/

namespace Sys2Proof.Machine

/-! ### The cases of a drain -/

/-- An entry that may drain stands at its place behind entries that are no fences and write other locations (R69). -/
theorem mayDrain_split {wb : List WbEntry} {n : Nat} {e : WbEntry} (he : wb[n]? = some e) (h : mayDrain wb n = true) :
    ∃ older younger, wb = older ++ e :: younger ∧ wb.eraseIdx n = older ++ younger ∧ e ≠ .fence ∧
      ∀ o ∈ older, o ≠ .fence ∧ o.sameLoc e = false := by
  obtain ⟨hn, hget⟩ := List.getElem?_eq_some_iff.mp he
  have hsplit : wb = wb.take n ++ e :: wb.drop (n + 1) := by
    rw [← hget, List.cons_getElem_drop_succ, List.take_append_drop]
  have hfence : e ≠ .fence := by
    rintro rfl
    simp [mayDrain, he] at h
  have holder : (wb.take n).all (fun o => o != .fence && !o.sameLoc e) = true := by
    cases e with
    | fence => exact absurd rfl hfence
    | _ => simpa only [mayDrain, he] using h
  refine ⟨_, _, hsplit, List.eraseIdx_eq_take_drop_succ .., hfence, fun o ho => ?_⟩
  simpa using List.all_eq_true.mp holder o ho

/-- A drain does nothing, removes the oldest entry where that is a fence, or takes a write to MEM that no older fence
and no older write of its location holds back (R69). -/
theorem State.drain_cases (s : State) (n : Nat) :
    s.drain n = s ∨
    (∃ rest, s.wb = .fence :: rest ∧ s.drain n = { s with wb := rest }) ∨
    (∃ older e younger, s.wb = older ++ e :: younger ∧ e ≠ .fence ∧
      (∀ o ∈ older, o ≠ .fence ∧ o.sameLoc e = false) ∧
      s.drain n = { e.apply s with wb := older ++ younger }) := by
  unfold State.drain
  split
  · next rest hwb => exact .inr (.inl ⟨rest, hwb, rfl⟩)
  · split
    · next e he =>
      split
      · next hmay =>
        obtain ⟨older, younger, hwb, herase, hfence, holder⟩ := mayDrain_split he hmay
        refine .inr (.inr ⟨older, e, younger, hwb, hfence, holder, ?_⟩)
        rw [WbEntry.apply_withWb, herase]
      · exact .inl rfl
    · exact .inl rfl

/-! ### What SW reads past an entry that drains -/

/-- The youngest write of a word is looked for in the younger part first (R66). -/
theorem pendingWord_appendList (older younger : List WbEntry) (d : Dir) (i k : Nat) :
    pendingWord (older ++ younger) d i k = (pendingWord younger d i k).or (pendingWord older d i k) := by
  induction younger using List.reverseRecOn with
  | nil => simp [pendingWord]
  | append_singleton younger e ih =>
    rw [← List.append_assoc, pendingWord_append, pendingWord_append, ih]
    cases e with
    | word d' i' k' v => dsimp only; split <;> simp
    | _ => rfl

/-- The youngest write of a byte is looked for in the younger part first (R66). -/
theorem pendingByte_appendList (older younger : List WbEntry) (a : Nat) :
    pendingByte (older ++ younger) a = (pendingByte younger a).or (pendingByte older a) := by
  induction younger using List.reverseRecOn with
  | nil => simp [pendingByte]
  | append_singleton younger e ih =>
    rw [← List.append_assoc, pendingByte_append, pendingByte_append, ih]
    cases e with
    | byte a' v => dsimp only; split <;> simp
    | _ => rfl

/-- Where no entry writes the location of `e`, none is pending on a word that `e` writes. -/
theorem pendingWord_eq_none_of_sameLoc {wb : List WbEntry} {e : WbEntry} (h : ∀ o ∈ wb, o.sameLoc e = false)
    {d : Dir} {i k : Nat} {v : Word} (he : pendingWord [e] d i k = some v) : pendingWord wb d i k = none := by
  obtain rfl : e = .word d i k v := by
    cases e with
    | word d' i' k' v' => simpa [pendingWord, and_assoc] using he
    | _ => cases he
  induction wb with
  | nil => rfl
  | cons o wb ih =>
    obtain ⟨ho, hwb⟩ := List.forall_mem_cons.mp h
    rw [pendingWord_cons, ih hwb]
    cases o with
    | word d' i' k' v' => simpa [WbEntry.sameLoc, and_assoc] using ho
    | _ => rfl

/-- Where no entry writes the location of `e`, none is pending on a byte that `e` writes. -/
theorem pendingByte_eq_none_of_sameLoc {wb : List WbEntry} {e : WbEntry} (h : ∀ o ∈ wb, o.sameLoc e = false)
    {a : Nat} {v : Byte} (he : pendingByte [e] a = some v) : pendingByte wb a = none := by
  obtain rfl : e = .byte a v := by
    cases e with
    | byte a' v' => simpa [pendingByte] using he
    | _ => cases he
  induction wb with
  | nil => rfl
  | cons o wb ih =>
    obtain ⟨ho, hwb⟩ := List.forall_mem_cons.mp h
    rw [pendingByte_cons, ih hwb]
    cases o with
    | byte a' v' => simpa [WbEntry.sameLoc] using ho
    | _ => rfl

theorem State.swByte_eq_or (s : State) (a : Nat) : s.swByte a = (pendingByte s.wb a).or (s.byteAt a) := by
  unfold State.swByte
  cases pendingByte s.wb a <;> rfl

section
variable {s : State} {older younger : List WbEntry} {e : WbEntry} (hsized : s.Sized)
  (hwb : s.wb = older ++ e :: younger) (hsound : e.Sound s.params) (holder : ∀ o ∈ older, o.sameLoc e = false)
include hsized hwb hsound holder

/-- Of a word that `e` writes no older write is pending, so MEM now answers what `e` answered (R66, R69). -/
theorem State.swWord_drained {d : Dir} {i k : Nat} (hi : i < s.params.capacity d) (hk : k < 4) :
    State.swWord { e.apply s with wb := older ++ younger } d i k = s.swWord d i k := by
  have hmem : (e.apply s).word d i k = (pendingWord [e] d i k).getD (s.word d i k) :=
    (State.applyAll_view [e] s (by simpa using hsound) hsized).1 d i k hi hk
  show (pendingWord (older ++ younger) d i k).getD ((e.apply s).word d i k) = _
  rw [State.swWord, hmem, hwb, List.append_cons, pendingWord_appendList, pendingWord_appendList,
    pendingWord_appendList]
  cases he : pendingWord [e] d i k with
  | none => rfl
  | some v => rw [pendingWord_eq_none_of_sameLoc holder he]; cases pendingWord younger d i k <;> rfl

/-- The same of a byte outside the descriptor arrays (R66, R69). -/
theorem State.swByte_drained {a : Nat} (ha : s.params.descriptorByte a = none) :
    State.swByte { e.apply s with wb := older ++ younger } a = s.swByte a := by
  have hmem : (e.apply s).byteAt a = (pendingByte [e] a).or (s.byteAt a) := by
    refine ((State.applyAll_view [e] s (by simpa using hsound) hsized).2 a ha).trans ?_
    cases pendingByte [e] a <;> rfl
  rw [State.swByte_eq_or, State.swByte_eq_or]
  show (pendingByte (older ++ younger) a).or ((e.apply s).byteAt a) = _
  rw [hmem, hwb, List.append_cons, pendingByte_appendList, pendingByte_appendList, pendingByte_appendList]
  cases he : pendingByte [e] a with
  | none => rfl
  | some v => rw [pendingByte_eq_none_of_sameLoc holder he]; cases pendingByte younger a <;> rfl

end

/-- Settles O9: by the cases of a drain; a fence is no write, and a write that drains has no older one of its
location before it. -/
theorem drainKeepsWhatSoftwareReads : Obligations.DrainKeepsWhatSoftwareReads := by
  unfold Obligations.DrainKeepsWhatSoftwareReads
  intro s n _ hsized hsound
  obtain h | ⟨rest, hwb, h⟩ | ⟨older, e, younger, hwb, _, holder, h⟩ := s.drain_cases n
  · rw [h]
    exact ⟨fun _ _ _ _ _ => rfl, fun _ _ => rfl⟩
  · rw [h]
    refine ⟨fun d i k _ _ => ?_, fun a _ => ?_⟩
    · rw [State.swWord, State.swWord, hwb]; rfl
    · rw [State.swByte, State.swByte, hwb]; rfl
  · rw [h]
    have he : e.Sound s.params := hsound e (by simp [hwb])
    have hloc : ∀ o ∈ older, o.sameLoc e = false := fun o ho => (holder o ho).2
    exact ⟨fun d i k hi hk => State.swWord_drained hsized hwb he hloc hi hk,
      fun a ha => State.swByte_drained hsized hwb he hloc ha⟩

/-! ### Fences -/

/-- The DMA agent and the interrupt agent leave the write buffer alone (R250). -/
theorem State.envStep_wb_of_not_drain (s : State) {e : EnvStep} (h : ∀ n, e ≠ .drain n) :
    (s.envStep e).wb = s.wb := by
  cases e with
  | drain n => exact absurd rfl (h n)
  | rxWriteback i bs v =>
    simp only [State.envStep, State.rxWriteback]
    split
    · rw [(State.advanceDmaPos_rest _ .rx).2]
      simp only [State.writeBack_wb, State.putBytes_wb]
    · rfl
  | txWriteback j v t =>
    simp only [State.envStep, State.txWriteback]
    split
    · rw [(State.advanceDmaPos_rest _ .tx).2]
      simp only [State.writeBack_wb, State.fetchBytes]
    · rfl
  | interruptAck =>
    simp only [State.envStep, State.handlerAck]
    split <;> rfl

/-- A drain takes an entry from before a fence, or the fence itself once it is the oldest entry (R69). -/
theorem State.drain_wb_of_fence {s : State} {old young : List WbEntry} (h : s.wb = old ++ .fence :: young) (n : Nat) :
    (∃ left, left.Sublist old ∧ (s.drain n).wb = left ++ .fence :: young) ∨ (s.drain n).wb = young := by
  obtain hd | ⟨rest, hwb, hd⟩ | ⟨older, e, younger, hwb, hfence, holder, hd⟩ := s.drain_cases n
  · rw [hd]
    exact .inl ⟨old, .refl old, h⟩
  · rw [hd]
    cases old with
    | nil =>
      rw [h] at hwb
      cases hwb
      exact .inr rfl
    | cons o old =>
      rw [h] at hwb
      cases hwb
      exact .inl ⟨old, List.sublist_cons_self _ _, rfl⟩
  · rw [hd]
    rw [hwb] at h
    obtain ⟨mid, rfl, hmid⟩ | ⟨mid, rfl, hmid⟩ := List.append_eq_append_iff.mp h
    · cases mid with
      | nil =>
        cases hmid
        exact absurd rfl hfence
      | cons f mid =>
        cases hmid
        exact .inl ⟨older ++ mid, by simp, by simp⟩
    · cases mid with
      | nil =>
        cases hmid
        exact absurd rfl hfence
      | cons f mid =>
        cases hmid
        exact absurd rfl (holder .fence (by simp)).1

/-- No step of another agent lets an entry past a fence. -/
theorem State.envStep_wb_of_fence {s : State} {old young : List WbEntry} (h : s.wb = old ++ .fence :: young)
    (e : EnvStep) :
    (∃ left, left.Sublist old ∧ (s.envStep e).wb = left ++ .fence :: young) ∨ (s.envStep e).wb = young := by
  cases e with
  | drain n => exact State.drain_wb_of_fence h n
  | _ => exact .inl ⟨old, .refl old, (State.envStep_wb_of_not_drain s (by simp)).trans h⟩

/-- Settles O10, by induction on the agents' steps: until the fence leaves, what is younger stays; after that, entries
only leave. -/
theorem fenceHoldsYoungerWritesBack : Obligations.FenceHoldsYoungerWritesBack := by
  unfold Obligations.FenceHoldsYoungerWritesBack
  intro s old young es h
  induction es generalizing s old with
  | nil => exact .inl ⟨old, .refl old, h⟩
  | cons e es ih =>
    obtain ⟨left, hleft, hwb⟩ | hwb := State.envStep_wb_of_fence h e
    · obtain ⟨left', hleft', hwb'⟩ | hgone := ih _ left hwb
      · exact .inl ⟨left', hleft'.trans hleft, hwb'⟩
      · exact .inr hgone
    · exact .inr (hwb ▸ (State.envSteps_rest es (s.envStep e)).2)

end Sys2Proof.Machine
end

section
/-! SUPPORT. Whatever the schedule, no operation but RAW.MODIFY and FENCE.WW leaves anything in the write buffer: what
only reads leaves an empty one empty, and what stores ends with the hand-over's barrier (spec/20_memory.md rule R72). -/

namespace Sys2Proof.Machine

/-- Nothing is pending in the write buffer (R72). -/
def State.Drained (s : State) : Prop := s.wb = []

/-! ### What only reads -/

theorem State.Drained.interleave {s : State} (h : s.Drained) : s.interleave.Drained :=
  List.eq_nil_of_sublist_nil (h ▸ s.interleave_rest.2)

theorem State.Drained.setTxMeta {s : State} (h : s.Drained) (j : Nat) (m : TxMeta) : (s.setTxMeta j m).Drained := h

theorem State.Drained.readBytes (base : Word) (n : Nat) : ∀ (i : Nat) {s : State}, s.Drained →
    (readBytes base n i s).2.Drained := by
  induction n with
  | zero => exact fun _ _ h => h
  | succ n ih => exact fun i _ h => ih (i + 1) h.interleave

theorem State.Drained.rxCacheTs {s : State} (h : s.Drained) (i : Nat) (w : Word) : (rxCacheTs i w s).2.Drained := by
  unfold Machine.rxCacheTs
  dsimp only
  split
  · exact h
  · split
    · exact h
    · generalize hv : (if s.params.hasTsValid then _ else _ : Bool × State) = valid
      have hvalid : valid.2.Drained := by
        rw [← hv]
        split
        · exact h.interleave
        · exact h
      split
      · exact hvalid
      · exact hvalid.interleave.interleave

theorem State.Drained.txTsValid {s : State} (h : s.Drained) (j : Nat) (w : Word) : (txTsValid j w s).2.Drained := by
  unfold Machine.txTsValid
  dsimp only
  split
  · exact h
  · split
    · exact h
    · exact h.interleave

theorem State.Drained.txCacheTs {s : State} (h : s.Drained) (j : Nat) (w : Word) : (txCacheTs j w s).2.Drained := by
  unfold Machine.txCacheTs
  dsimp only
  split
  · exact h
  · split
    · exact h
    · have hvalid := h.txTsValid j w
      split
      · exact hvalid
      · exact hvalid.interleave.interleave

theorem State.Drained.takeCompleted {s : State} (h : s.Drained) (j : Nat) (q : Option PacketId) :
    (takeCompleted j q s).2.Drained := by
  have howned := h.interleave
  unfold Machine.takeCompleted
  dsimp only
  split
  · exact howned
  · have hread := howned.interleave.interleave
    split
    · exact (hread.setTxMeta j _).setTxMeta j _
    · exact ((hread.setTxMeta j _).txCacheTs j _).setTxMeta j _

theorem State.Drained.ringReclaim {s : State} (h : s.Drained) (q : Option PacketId) : (ringReclaim q s).2.Drained := by
  have htake := h.takeCompleted s.txReclaim q
  unfold Machine.ringReclaim
  dsimp only
  split
  · exact h
  · split
    · exact htake
    · exact htake

theorem State.Drained.countOwned (n : Nat) : ∀ (j : Nat) {s : State}, s.Drained → (countOwned n j s).2.Drained := by
  induction n with
  | zero => exact fun _ _ h => h
  | succ n ih => exact fun j _ h => ih (j + 1) h.interleave

/-! ### What stores: the barrier drains whatever was pending -/

/-- The hand-over ends with nothing pending, and so does the read-back that raises after its barrier (R145). -/
theorem ownTransfer_drained (d : Dir) (i : Nat) (s : State) : (ownTransfer d i s).Ends State.Drained := by
  unfold ownTransfer
  dsimp only
  split
  · exact State.flush_wb _
  · exact State.Drained.interleave (State.flush_wb _)

theorem rxSetup_drained (i : Nat) (buf : Word) (s : State) : (rxSetup i buf s).Ends State.Drained :=
  ownTransfer_drained .rx i _

theorem txSend_drained (j : Nat) (ptr len : Word) (p : Option PacketId) (s : State) :
    (txSend j ptr len p s).Ends State.Drained := ownTransfer_drained .tx j _

theorem txringNew_drained (s : State) : (txringNew s).Drained :=
  State.flush_wb (fenceWw (clearSlots s.params.nTx 0 s)).interleave

/-! ### What stores on some of its paths -/

/-- A nested operation that ends drained, and what goes on from a drained state. -/
theorem Run.Ends.drained_andThen {α β : Type} {r : Run α} {next : α → State → Run β} (h : r.Ends State.Drained)
    (hn : ∀ v t, t.Drained → (next v t).Ends State.Drained) : (r.andThen next).Ends State.Drained := by
  cases r with
  | done v t => exact hn v t h
  | fatal f t => exact h

/-- The end of a nested operation answers with a value made of its own. -/
theorem Run.Ends.drained_reply {α β : Type} {r : Run α} (h : r.Ends State.Drained) (f : α → β) :
    (r.andThen fun v t => .done (f v) t).Ends State.Drained := h.drained_andThen fun _ _ ht => ht

theorem State.Drained.takeReceived {s : State} (h : s.Drained) (i : Nat) (p : Option PacketId) (fb : Word) :
    (takeReceived i p fb s).Ends State.Drained := by
  have howned := h.interleave
  unfold Machine.takeReceived
  dsimp only
  split
  · exact howned
  · split
    · exact howned.interleave.interleave.rxCacheTs i _
    · exact (rxSetup_drained i fb _).drained_reply _

theorem State.Drained.rearmHeld {s : State} (h : s.Drained) : (rearmHeld s).Ends State.Drained := by
  unfold Machine.rearmHeld
  split
  · exact h
  · exact (rxSetup_drained _ _ s).drained_andThen fun _ _ ht => ht

/-- Each slot ends with its hand-over; a ring of no slots stores nothing (R200). -/
theorem State.Drained.armSlots (n : Nat) : ∀ (i : Nat) {s : State}, s.Drained →
    (armSlots n i s).Ends State.Drained := by
  induction n with
  | zero => exact fun _ _ h => h
  | succ n ih => exact fun i _ _ => (rxSetup_drained i _ _).drained_andThen fun _ _ ht => ih (i + 1) ht

theorem State.Drained.rxringNew {s : State} (h : s.Drained) : (rxringNew s).Ends State.Drained :=
  (State.Drained.armSlots _ 0 h).drained_andThen fun _ _ ht => ht

theorem State.Drained.recvNext {s : State} (h : s.Drained) (p : Option PacketId) :
    (recvNext p s).Ends State.Drained := by
  refine (h.takeReceived s.rxNext p _).drained_andThen fun r t ht => ?_
  rcases r with (_ | _) | _
  · exact ht
  · exact ht.rearmHeld.drained_andThen fun _ _ hu => hu
  · have hlen := ht.interleave
    dsimp only
    split
    · exact hlen
    · exact (State.Drained.readBytes _ _ 0 hlen).rearmHeld.drained_andThen fun _ _ hu => hu

/-- TXRING.SEND stores into the buffer and the descriptor, and ends with the hand-over (R211). -/
theorem State.Drained.ringSend {s : State} (h : s.Drained) (len : Word) (p : Option PacketId) (g : FillFn) :
    (ringSend len p g s).Ends State.Drained := by
  unfold Machine.ringSend
  dsimp only
  split
  · exact h.interleave
  · exact (txSend_drained _ _ len p _).drained_andThen fun _ _ ht => ht

/-! ### Every operation -/

theorem State.Drained.command {s t : State} {checks : List Check} {run : State → Run Reply} (hs : s.Drained)
    (h : s.command checks run = .next t) (hrun : (run s).Ends State.Drained) : t.Drained := by
  obtain ⟨r, _, rfl⟩ | ⟨r, u, _, hr, rfl⟩ | ⟨f, u, _, hr, rfl⟩ := State.command_cases h
  · exact hs
  · rw [hr] at hrun
    exact hrun
  · rw [hr] at hrun
    exact hrun

/-- Every operation but the two that only store ends with nothing pending, whatever the schedule (R72). -/
theorem State.Drained.exec {i : Instr} {s t : State} (hs : s.Drained) (h : exec i s = .next t)
    (hmodify : ∀ d n k, i ≠ .rawModify d n k) (hfence : i ≠ .fenceWw) : t.Drained := by
  have hread := hs.interleave
  have hbarrier : s.interleave.flush.Drained := State.flush_wb _
  unfold Machine.exec at h
  cases i with
  | rawRead d slot k => exact hs.command h hread
  | rawModify d slot k => exact absurd rfl (hmodify d slot k)
  | fenceWw => exact absurd rfl hfence
  | barrierDsb => exact hs.command h hbarrier
  | fenceFull => exact hs.command h hbarrier
  | fenceRr => exact hs.command h hread
  | ownTransfer d slot => exact hs.command h ((ownTransfer_drained d slot s).drained_reply _)
  | rxdIsOwned slot => exact hs.command h hread
  | rxdSetup slot => exact hs.command h ((rxSetup_drained slot _ s).drained_reply _)
  | rxdTakeReceived slot => exact hs.command h ((hs.takeReceived slot _ _).drained_reply _)
  | rxdFrameLength slot => exact hs.command h hread
  | rxdPacketId slot => exact hs.command h hs
  | rxdTimestamp slot => exact hs.command h hs
  | txdIsOwned slot => exact hs.command h hread
  | txdSend slot => exact hs.command h ((txSend_drained slot _ _ _ s).drained_reply _)
  | txdTakeCompleted slot => exact hs.command h (hs.takeCompleted slot _)
  | rxringNew => exact hs.command h (hs.rxringNew.drained_reply _)
  | rxringRecvNext => exact hs.command h ((hs.recvNext _).drained_reply _)
  | txringNew => exact hs.command h (txringNew_drained s)
  | txringSend => exact hs.command h ((hs.ringSend _ _ _).drained_reply _)
  | txringReclaim => exact hs.command h (hs.ringReclaim _)
  | engNew => exact hs.command h (show (bindEngine s).Drained from hs)
  | engSend => exact hs.command h ((hs.ringSend _ _ _).drained_reply _)
  | engRecvNext => exact hs.command h ((hs.recvNext _).drained_reply _)
  | engEnableInterrupt => exact hs.command h hs
  | engDisableInterrupt => exact hs.command h hs
  | engInterruptAck => exact hs.command h hs
  | engTxState => exact hs.command h (State.Drained.countOwned _ 0 hs)
  | engTxReclaim => exact hs.command h (hs.ringReclaim _)

/-- Settles O58: what only reads adds nothing, and every operation that stores, these two apart, ends past its
barrier. -/
theorem nothingPendingAtTheEndOfAnOperation : Obligations.NothingPendingAtTheEndOfAnOperation := by
  unfold Obligations.NothingPendingAtTheEndOfAnOperation
  intro s t i hs h hmodify hfence
  exact State.Drained.exec hs h hmodify hfence

end Sys2Proof.Machine
end

section
/-! SUPPORT. The command word (spec/30_encoding.md rules R110, R111, R114): the decoder inverts the encoder because a word
decodes to an operation exactly when its fields are the operation's (`decode_eq_ok_iff`). -/

namespace Sys2Proof

/-- The format of an operation's command word (R110, R111). -/
def Instr.format : Instr → Format
  | .rawRead _ _ _ | .rawModify _ _ _ => .cmdR
  | .ownTransfer _ _ => .cmdDS
  | .rxdIsOwned _ | .rxdSetup _ | .rxdTakeReceived _ | .rxdFrameLength _ | .rxdPacketId _ | .rxdTimestamp _
  | .txdIsOwned _ | .txdSend _ | .txdTakeCompleted _ => .cmdS
  | _ => .cmd0

/-- The fields of an operation's command word: zero where its format has none (R111). -/
def Instr.fields (i : Instr) : CommandFields :=
  match i with
  | .rawRead d slot k | .rawModify d slot k => ⟨i.opcode, k, d, 0, slot⟩
  | .ownTransfer d slot => ⟨i.opcode, 0, d, 0, slot⟩
  | .rxdIsOwned slot | .rxdSetup slot | .rxdTakeReceived slot | .rxdFrameLength slot | .rxdPacketId slot
  | .rxdTimestamp slot | .txdIsOwned slot | .txdSend slot | .txdTakeCompleted slot => ⟨i.opcode, 0, .rx, 0, slot⟩
  | _ => ⟨i.opcode, 0, .rx, 0, 0⟩

/-- The fields a format has, the others zero (R111). -/
def CommandFields.restrict (c : CommandFields) : Format → CommandFields
  | .cmd0 => ⟨c.op, 0, .rx, 0, 0⟩
  | .cmdS => ⟨c.op, 0, .rx, 0, c.slot⟩
  | .cmdDS => ⟨c.op, 0, c.dir, 0, c.slot⟩
  | .cmdR => ⟨c.op, c.k, c.dir, 0, c.slot⟩

/-! ### The fields of a word -/

theorem commandFields_commandWord (op : Nat) (k : Fin 4) (d : Dir) (slot : Nat) (hop : op < 256) (hslot : slot < 65536) :
    commandFields (commandWord op k d slot) = ⟨op, k, d, 0, slot⟩ := by
  have hk := k.isLt
  cases d <;>
    simp only [commandFields, commandWord, Dir.bit, BitVec.toNat_ofNat, CommandFields.mk.injEq, Fin.ext_iff] <;>
    refine ⟨by omega, by omega, ?_, by omega, by omega⟩
  · exact if_pos (by omega)
  · exact if_neg (by omega)

/-- No bit of a word lies outside its fields (R111). -/
theorem commandWord_commandFields (w : Word) (h : (commandFields w).reserved = 0) :
    commandWord (commandFields w).op (commandFields w).k (commandFields w).dir (commandFields w).slot = w := by
  have hw := w.isLt
  have hreserved : w.toNat / 2048 % 32 = 0 := h
  have hdir : (commandFields w).dir.bit = w.toNat / 1024 % 2 := by
    by_cases hbit : w.toNat / 1024 % 2 = 0
    · simp [commandFields, hbit, Dir.bit]
    · simp only [commandFields, hbit, if_false, Dir.bit]
      omega
  apply BitVec.eq_of_toNat_eq
  rw [commandWord, hdir, BitVec.toNat_ofNat]
  simp only [commandFields]
  omega

theorem CommandFields.restrict_eq_self_iff (c : CommandFields) (f : Format) :
    c.restrict f = c ↔ c.reserved = 0 ∧ c.unusedZero f = true := by
  obtain ⟨op, k, dir, reserved, slot⟩ := c
  cases f <;> simp only [CommandFields.restrict, CommandFields.unusedZero, CommandFields.mk.injEq, Bool.and_eq_true,
    decide_eq_true_eq, eq_comm (a := (0 : Fin 4)), eq_comm (a := (0 : Nat)), eq_comm (a := Dir.rx)] <;> tauto

@[simp] theorem CommandFields.restrict_op (c : CommandFields) (f : Format) : (c.restrict f).op = c.op := by
  cases f <;> rfl

/-! ### The fields of an operation -/

theorem encode_eq_commandWord (i : Instr) :
    encode i = commandWord i.fields.op i.fields.k i.fields.dir i.fields.slot := by cases i <;> rfl

@[simp] theorem Instr.fields_op (i : Instr) : i.fields.op = i.opcode := by cases i <;> rfl

@[simp] theorem Instr.fields_reserved (i : Instr) : i.fields.reserved = 0 := by cases i <;> rfl

@[simp] theorem Instr.fields_select (i : Instr) : i.fields.select = some (i.format, i) := by cases i <;> rfl

@[simp] theorem Instr.fields_unusedZero (i : Instr) : i.fields.unusedZero i.format = true := by cases i <;> rfl

theorem Instr.encodable_iff (i : Instr) : i.encodable = true ↔ i.fields.slot < 65536 := by
  cases i <;> simp [Instr.encodable, Instr.namedSlot, Instr.fields]

/-- What an opcode selects: its format, and the operation with the fields that format has (R110). -/
theorem CommandFields.fields_of_select {c : CommandFields} {f : Format} {i : Instr} (h : c.select = some (f, i)) :
    i.format = f ∧ i.fields = c.restrict f := by
  obtain ⟨op, k, dir, reserved, slot⟩ := c
  unfold CommandFields.select at h
  split at h <;> cases h
  all_goals
    next hop =>
      cases hop
      exact ⟨rfl, rfl⟩

/-! ### The decoder -/

theorem decode_eq_ok_iff (w : Word) (i : Instr) : decode w = .ok i ↔ commandFields w = i.fields := by
  constructor
  · intro h
    unfold decode at h
    split at h
    · cases h
    · next f j hselect =>
      split_ifs at h with hreserved hunused
      cases h
      rw [(CommandFields.fields_of_select hselect).2]
      exact (((commandFields w).restrict_eq_self_iff f).2 ⟨hreserved, hunused⟩).symm
  · intro h
    simp [decode, h]

theorem commandFields_encode (i : Instr) (h : i.encodable = true) : commandFields (encode i) = i.fields := by
  have hop : i.fields.op < 256 := i.fields_op ▸ Laws.opcode_lt i
  rw [encode_eq_commandWord, commandFields_commandWord _ _ _ _ hop (i.encodable_iff.1 h), ← i.fields_reserved]

/-- Settles O2: the fields of the word of an operation are the operation's. -/
theorem decodeOfEncodeIsTheOperation : Obligations.DecodeOfEncodeIsTheOperation := by
  unfold Obligations.DecodeOfEncodeIsTheOperation
  intro i h
  exact (decode_eq_ok_iff _ i).2 (commandFields_encode i h)

/-- Settles O3: a word whose fields are an operation's is made of those fields. -/
theorem decodedWordIsItsEncoding : Obligations.DecodedWordIsItsEncoding := by
  unfold Obligations.DecodedWordIsItsEncoding
  intro w i h
  have hfields := (decode_eq_ok_iff w i).1 h
  constructor
  · rw [i.encodable_iff, ← hfields]
    exact Nat.div_lt_of_lt_mul w.isLt
  · rw [encode_eq_commandWord, ← hfields]
    exact commandWord_commandFields w (by rw [hfields, i.fields_reserved])

/-- Settles O1: by running the decoder on each word. -/
theorem specWordsDecode : Obligations.SpecWordsDecode := by
  unfold Obligations.SpecWordsDecode
  decide

end Sys2Proof
end

section
/-! SUPPORT. Which command words are illegal (spec/30_encoding.md rule R114), and the step that takes a command word
(R112, R62). -/

namespace Sys2Proof

/-- The opcodes of the operations without operands in their word (R110). -/
def cmd0Opcodes : List Nat :=
  [0x08, 0x09, 0x0A, 0x0B, 0x30, 0x31, 0x38, 0x39, 0x3A, 0x40, 0x41, 0x42, 0x43, 0x44, 0x45, 0x46, 0x47]

/-- The opcodes of the operations whose word has SLOT alone (R110). -/
def cmdSOpcodes : List Nat := [0x10, 0x11, 0x12, 0x13, 0x14, 0x15, 0x20, 0x21, 0x22]

/-- A field of the word that the format of its opcode does not have is not zero (R111, R114). -/
def UnusedFieldSet (w : Word) : Prop :=
  (w.toNat % 256 ∈ cmd0Opcodes ∧ w.toNat / 256 ≠ 0) ∨
  (w.toNat % 256 ∈ cmdSOpcodes ∧ w.toNat / 256 % 8 ≠ 0) ∨
  (w.toNat % 256 = 0x0C ∧ w.toNat / 256 % 4 ≠ 0)

/-- The SLOT of a word whose opcode names a slot is not below the capacity of the ring it names (R114). -/
def SlotOutside (p : Params) (w : Word) : Prop :=
  (w.toNat % 256 ∈ [0x00, 0x01, 0x0C] ∧
    p.capacity (if w.toNat / 1024 % 2 = 0 then .rx else .tx) ≤ w.toNat / 65536) ∨
  (w.toNat % 256 ∈ [0x10, 0x11, 0x12, 0x13, 0x14, 0x15] ∧ p.nRx ≤ w.toNat / 65536) ∨
  (w.toNat % 256 ∈ [0x20, 0x21, 0x22] ∧ p.nTx ≤ w.toNat / 65536)

/-! ### Which words decode -/

theorem CommandFields.select_eq_none_iff (c : CommandFields) : c.select = none ↔ c.op ∉ assignedOpcodes := by
  unfold CommandFields.select
  split <;> simp_all [assignedOpcodes]

theorem Instr.opcode_mem_cmd0Opcodes (i : Instr) : i.opcode ∈ cmd0Opcodes ↔ i.format = .cmd0 := by
  cases i <;> simp [Instr.opcode, Instr.format, cmd0Opcodes]

theorem Instr.opcode_mem_cmdSOpcodes (i : Instr) : i.opcode ∈ cmdSOpcodes ↔ i.format = .cmdS := by
  cases i <;> simp [Instr.opcode, Instr.format, cmdSOpcodes]

theorem Instr.opcode_eq_ownTransfer (i : Instr) : i.opcode = 0x0C ↔ i.format = .cmdDS := by
  cases i <;> simp [Instr.opcode, Instr.format]

/-- The unused fields of each format, read from the word: its upper 24 bits, K and DIR, K (R111). -/
theorem commandFields_unusedZero_iff (w : Word) (f : Format) (hreserved : w.toNat / 2048 % 32 = 0) :
    (commandFields w).unusedZero f = true ↔
      (f = .cmd0 → w.toNat / 256 = 0) ∧ (f = .cmdS → w.toNat / 256 % 8 = 0) ∧ (f = .cmdDS → w.toNat / 256 % 4 = 0) := by
  have hdir : (commandFields w).dir = .rx ↔ w.toNat / 1024 % 2 = 0 := by simp [commandFields]
  cases f <;> simp only [CommandFields.unusedZero, Bool.and_eq_true, decide_eq_true_eq, hdir] <;>
    simp [commandFields, Fin.ext_iff] <;> omega

theorem unusedFieldSet_iff {w : Word} {f : Format} {i : Instr} (hselect : (commandFields w).select = some (f, i))
    (hreserved : w.toNat / 2048 % 32 = 0) : UnusedFieldSet w ↔ (commandFields w).unusedZero f = false := by
  obtain ⟨rfl, hfields⟩ := CommandFields.fields_of_select hselect
  have hop : w.toNat % 256 = i.opcode := by
    rw [← i.fields_op, hfields, CommandFields.restrict_op]
    rfl
  rw [← Bool.not_eq_true, commandFields_unusedZero_iff w _ hreserved, UnusedFieldSet, hop, i.opcode_mem_cmd0Opcodes,
    i.opcode_mem_cmdSOpcodes, i.opcode_eq_ownTransfer]
  tauto

/-- The decoder rejects the words with an unassigned opcode, a reserved bit set, or an unused field set (R114). -/
theorem decode_eq_error_iff (w : Word) :
    (∃ e, decode w = .error e) ↔
      w.toNat % 256 ∉ assignedOpcodes ∨ w.toNat / 2048 % 32 ≠ 0 ∨ UnusedFieldSet w := by
  have hassigned : (commandFields w).select = none ↔ w.toNat % 256 ∉ assignedOpcodes :=
    (commandFields w).select_eq_none_iff
  unfold decode
  cases hselect : (commandFields w).select with
  | none => simp [hassigned.1 hselect]
  | some fi =>
    obtain ⟨f, i⟩ := fi
    have hop : w.toNat % 256 ∈ assignedOpcodes := by
      by_contra hunassigned
      simp [hassigned.2 hunassigned] at hselect
    by_cases hreserved : w.toNat / 2048 % 32 = 0
    · have hunused := unusedFieldSet_iff hselect hreserved
      have hfield : (commandFields w).reserved = 0 := hreserved
      cases hzero : (commandFields w).unusedZero f <;> simp [hop, hreserved, hfield, hunused, hzero]
    · have hfield : (commandFields w).reserved ≠ 0 := hreserved
      simp [hfield, hreserved]

theorem Instr.wf_eq_false_iff (i : Instr) (p : Params) :
    i.wf p = false ↔ ∃ d slot, i.namedSlot = some (d, slot) ∧ p.capacity d ≤ slot := by
  unfold Instr.wf
  cases hnamed : i.namedSlot with
  | none => simp
  | some named =>
    obtain ⟨d, slot⟩ := named
    simp

/-- For a word that decodes, the test of SLOT is well-formedness of the operation (R114). -/
theorem slotOutside_iff {w : Word} {i : Instr} (h : decode w = .ok i) (p : Params) :
    SlotOutside p w ↔ i.wf p = false := by
  have hfields := (decode_eq_ok_iff w i).1 h
  have hop : w.toNat % 256 = i.fields.op := congrArg CommandFields.op hfields
  have hdir : (if w.toNat / 1024 % 2 = 0 then Dir.rx else .tx) = i.fields.dir := congrArg CommandFields.dir hfields
  have hslot : w.toNat / 65536 = i.fields.slot := congrArg CommandFields.slot hfields
  rw [SlotOutside, hop, hdir, hslot, i.wf_eq_false_iff]
  cases i <;> simp [Instr.fields, Instr.opcode, Instr.namedSlot, Params.capacity]

end Sys2Proof

namespace Sys2Proof.Machine

/-! ### The step that takes a command -/

theorem step_of_decode_ok {s : State} {c : Command} {rest : List Input} {i : Instr} (hw : s.params.wf = true)
    (hi : s.inbox = .command c :: rest) (hd : decode c.word = .ok i) : step s = exec i (s.latch rest c) := by
  simp only [step, hw, hi, hd, if_true]

theorem step_of_decode_error {s : State} {c : Command} {rest : List Input} {e : DecodeError} (hw : s.params.wf = true)
    (hi : s.inbox = .command c :: rest) (hd : decode c.word = .error e) :
    step s = .next ((s.latch rest c).answer (.contract .badCommand)) := by
  simp only [step, hw, hi, hd, if_true, State.badCommand]

/-- The test of SLOT stands first in every operation that names a slot (R114, R280). -/
theorem exec_of_namedSlot {i : Instr} {d : Dir} {slot : Nat} (h : i.namedSlot = some (d, slot)) (s : State) :
    ∃ checks run, exec i s = s.command (s.slotCheck d slot :: checks) run := by
  unfold exec
  cases i <;> cases h <;> exact ⟨_, _, rfl⟩

theorem exec_of_not_wf {i : Instr} {s : State} (h : i.wf s.params = false) :
    exec i s = .next (s.answer (.contract .badCommand)) := by
  obtain ⟨d, slot, hnamed, hslot⟩ := (i.wf_eq_false_iff s.params).1 h
  obtain ⟨checks, run, hexec⟩ := exec_of_namedSlot hnamed s
  simp [hexec, State.command, State.slotCheck, firstRefusal, Nat.not_lt_of_le hslot]

/-- Settles O4: the decoder rejects what is malformed, and the test of SLOT, first in every operation that names a slot,
what is outside its ring. -/
theorem illegalCommandIsRefused : Obligations.IllegalCommandIsRefused := by
  unfold Obligations.IllegalCommandIsRefused
  intro s c rest hw hi op illegal
  have hillegal : illegal ↔ (∃ e, decode c.word = .error e) ∨ SlotOutside s.params c.word := by
    rw [decode_eq_error_iff, UnusedFieldSet]
    simp only [or_assoc]
    exact Iff.rfl
  rw [hillegal]
  cases hd : decode c.word with
  | error e => exact ⟨fun _ => step_of_decode_error hw hi hd, fun h => absurd (.inl ⟨e, rfl⟩) h⟩
  | ok i =>
    rw [slotOutside_iff hd]
    constructor
    · rintro (⟨e, he⟩ | hwf)
      · cases he
      · rw [step_of_decode_ok hw hi hd]
        exact exec_of_not_wf (s := s.latch rest c) hwf
    · intro h
      exact ⟨i, rfl, eq_true_of_ne_false fun hwf => h (.inr hwf)⟩

/-- Settles O5: the command is decoded with its operands on the ports. -/
theorem stepRunsTheDecodedCommand : Obligations.StepRunsTheDecodedCommand := by
  unfold Obligations.StepRunsTheDecodedCommand
  intro s c rest i hw hi hd
  exact step_of_decode_ok hw hi hd

end Sys2Proof.Machine
end

section
/-! SUPPORT. The status word of the default layout (spec/30_encoding.md rule R101, spec/42_rx_descriptor.md rule R163). -/

namespace Sys2Proof

theorem Field.toNat_get (f : Field) (w : Word) :
    (f.get w).toNat = w.toNat / 2 ^ f.lo % 2 ^ f.width := by
  apply Nat.eq_of_testBit_eq
  intro b
  rw [BitVec.testBit_toNat, f.getLsbD_get, Nat.testBit_mod_two_pow, Nat.testBit_div_two_pow, BitVec.testBit_toNat,
    Bool.and_comm, Nat.add_comm]

/-- The value of a one-bit field as a word. -/
theorem Field.get_oneBit (f : Field) (h : f.oneBit = true) (w : Word) : f.get w = if f.isSet w then 1 else 0 := by
  cases hset : f.isSet w with
  | true => simpa [Field.isSet] using hset
  | false =>
    apply BitVec.eq_of_getLsbD_eq
    intro b _
    rw [f.isSet_oneBit h] at hset
    rw [f.getLsbD_get, f.width_oneBit h]
    by_cases hb : b = 0
    · simp [hb, hset]
    · simp [hb]

/-- A word through the mask of a one-bit field. -/
theorem Field.and_mask_oneBit (f : Field) (h : f.oneBit = true) (w : Word) :
    w &&& f.mask = if f.isSet w then f.mask else 0 := by
  apply BitVec.eq_of_getLsbD_eq
  intro b hb
  rw [BitVec.getLsbD_and, f.isSet_oneBit h]
  by_cases hlo : b = f.lo
  · cases hset : w.getLsbD f.lo <;> simp [hlo, hset]
  · have hmask : f.mask.getLsbD b = false := by simp [f.mask_oneBit h, hlo]
    cases w.getLsbD f.lo <;> simp [hmask]

/-- The mask of the test is made of the four flags of the test (R94, R163). -/
theorem defaultRxLayout_and_classMask (w : Word) :
    w &&& 0x70008000 =
      (w &&& defaultRxLayout.ctxt.mask) ||| (w &&& defaultRxLayout.fd.mask) ||| (w &&& defaultRxLayout.ld.mask) |||
        (w &&& defaultRxLayout.es.mask) := by
  rw [← BitVec.and_or_distrib_left, ← BitVec.and_or_distrib_left, ← BitVec.and_or_distrib_left]
  rfl

/-- R163 in the default layout, flag by flag. -/
theorem rxWholeFrame_defaultLayout (p : Params) (w : Word) (hp : p.rxLayout = defaultRxLayout) :
    p.rxWholeFrame w = ((w &&& 0x70008000) == 0x30000000) := by
  have herr : defaultRxLayout.errMask = defaultRxLayout.es.mask := rfl
  rw [Params.rxWholeFrame, hp, herr, defaultRxLayout_and_classMask, defaultRxLayout.ctxt.get_oneBit rfl,
    defaultRxLayout.ctxt.and_mask_oneBit rfl, defaultRxLayout.fd.and_mask_oneBit rfl,
    defaultRxLayout.ld.and_mask_oneBit rfl, defaultRxLayout.es.and_mask_oneBit rfl]
  cases defaultRxLayout.ctxt.isSet w <;> cases defaultRxLayout.fd.isSet w <;> cases defaultRxLayout.ld.isSet w <;>
    cases defaultRxLayout.es.isSet w <;> decide

/-- Settles O8: the flags through their masks, the length as a field at bit 0, OWN as a bit. -/
theorem defaultLayoutClassification : Obligations.DefaultLayoutClassification := by
  unfold Obligations.DefaultLayoutClassification
  intro p w hp
  refine ⟨rxWholeFrame_defaultLayout p w hp, ?_, ?_⟩
  · rw [Params.rxLen, hp, defaultRxLayout.len.toNat_get]
    simp [defaultRxLayout, Field.width]
  · rw [Params.ownedByHw, Params.own, hp]
    exact defaultRxLayout.own.isSet_oneBit rfl w

end Sys2Proof
end

section
/-! SUPPORT. The raw accessor (spec/40_raw_accessor.md rules R130, R131): past the tests, each of its two operations is
a micro-step of SW or two, whatever the schedule; undisturbed, those have the closed forms of Laws/Quiet.lean. -/

namespace Sys2Proof.Machine

/-! ### An operation that passes its tests -/

/-- An operation that no test refuses runs (R280). -/
theorem State.command_of_checks {s : State} {checks : List Check} {run : State → Run Reply}
    (hchecks : firstRefusal checks = none) : s.command checks run = conclude (run s) := by
  rw [State.command, hchecks]

/-- A block that runs refuses no operation on a slot that exists, in a ring that is constructed (R280). -/
theorem State.firstRefusal_slotChecks {s : State} {d : Dir} {slot : Nat} (hrunning : s.halted = false)
    (hslot : slot < s.params.capacity d) (hready : s.ready d = true) : firstRefusal (s.slotChecks d slot) = none := by
  simp [State.slotChecks, State.slotCheck, State.liveCheck, State.readyCheck, firstRefusal, hslot, hrunning, hready]

/-! ### The two operations -/

/-- RAW.READ is one read of SW (R130). -/
theorem exec_rawRead {s : State} {d : Dir} {slot : Nat} (k : Fin 4)
    (hchecks : firstRefusal (s.slotChecks d slot) = none) :
    exec (.rawRead d slot k) s = .next ((swRead d slot k s).2.answer (.word (swRead d slot k s).1)) := by
  rw [exec, execRawRead, State.command_of_checks hchecks, conclude]

/-- RAW.MODIFY is one read-modify-write of SW (R131). -/
theorem exec_rawModify {s : State} {d : Dir} {slot : Nat} (k : Fin 4)
    (hchecks : firstRefusal (s.slotChecks d slot) = none) :
    exec (.rawModify d slot k) s = .next ((swModify d slot k s.ports.fn.eval s).answer .ok) := by
  rw [exec, execRawModify, State.command_of_checks hchecks, conclude]

/-- Settles O11: an undisturbed read takes the word SW sees and leaves the state as it is. -/
theorem rawReadAnswersTheWord : Obligations.RawReadAnswersTheWord := by
  unfold Obligations.RawReadAnswersTheWord
  intro s d slot k hs hslot hready
  rw [exec_rawRead k (State.firstRefusal_slotChecks hs.running hslot hready), swRead_quiet s hs.quiet]

/-- Settles O12: an undisturbed read-modify-write queues one write; it is then the youngest pending one of its word
(R66), and has not reached MEM (R67). -/
theorem rawModifyQueuesOneWrite : Obligations.RawModifyQueuesOneWrite := by
  unfold Obligations.RawModifyQueuesOneWrite
  intro s d slot k hs hslot hready
  refine ⟨?_, ?_, ?_⟩
  · rw [exec_rawModify k (State.firstRefusal_slotChecks hs.running hslot hready), swModify_quiet s hs.quiet]
  · exact s.swWord_write_same s.wb d slot k _
  · cases d <;> rfl

end Sys2Proof.Machine
end

section
/-! SUPPORT. The fences and the barriers (spec/41_ownership_transfer.md rules R140 to R143): past the test of `halted`,
each is its micro-step, whatever the schedule; undisturbed, those have the closed forms of Laws/Quiet.lean. -/

namespace Sys2Proof.Machine

/-! ### The operations on a block that runs -/

theorem State.firstRefusal_liveCheck {s : State} (hrunning : s.halted = false) : firstRefusal [s.liveCheck] = none := by
  simp [State.liveCheck, firstRefusal, hrunning]

theorem exec_fenceWw {s : State} (hrunning : s.halted = false) :
    exec .fenceWw s = .next ((fenceWw s).answer .ok) := by
  rw [exec, execFenceWw, State.command_of_checks (State.firstRefusal_liveCheck hrunning), conclude]

theorem exec_barrierDsb {s : State} (hrunning : s.halted = false) :
    exec .barrierDsb s = .next ((barrierDsb s).answer .ok) := by
  rw [exec, execBarrierDsb, State.command_of_checks (State.firstRefusal_liveCheck hrunning), conclude]

theorem exec_fenceFull {s : State} (hrunning : s.halted = false) :
    exec .fenceFull s = .next ((fenceFull s).answer .ok) := by
  rw [exec, execFenceFull, State.command_of_checks (State.firstRefusal_liveCheck hrunning), conclude]

theorem exec_fenceRr {s : State} (hrunning : s.halted = false) :
    exec .fenceRr s = .next ((fenceRr s).answer .ok) := by
  rw [exec, execFenceRr, State.command_of_checks (State.firstRefusal_liveCheck hrunning), conclude]

/-- Settles O13: undisturbed, the one fence is its marker and the other is nothing. -/
theorem fencesOrderOnly : Obligations.FencesOrderOnly := by
  unfold Obligations.FencesOrderOnly
  intro s hs
  rw [exec_fenceWw hs.running, exec_fenceRr hs.running, fenceWw_quiet s hs.quiet, fenceRr_quiet s hs.quiet]
  exact ⟨rfl, rfl⟩

/-! ### The registers of the block -/

/-- The cursors, the control state and the draw counter agree in two states: what a store to shared memory and an update
of metadata leave alone. -/
structure SameRegisters (s t : State) : Prop where
  cursors : SameCursors s t
  control : SameControl s t
  draws : t.draws = s.draws

theorem SameRegisters.flush (s : State) : SameRegisters s s.flush :=
  ⟨by constructor <;> simp, by constructor <;> simp, s.flush_draws⟩

section
variable {s t : State} (h : SameRegisters s t)
include h

theorem SameRegisters.setWord (d : Dir) (i k : Nat) (v : Word) : SameRegisters s (t.setWord d i k v) := by
  obtain ⟨hcursors, hcontrol, hdraws⟩ := h
  cases d <;> exact ⟨{ hcursors with }, { hcontrol with }, hdraws⟩

theorem SameRegisters.setRxMeta (i : Nat) (m : RxMeta) : SameRegisters s (t.setRxMeta i m) :=
  ⟨{ h.cursors with }, { h.control with }, h.draws⟩

theorem SameRegisters.setTxMeta (j : Nat) (m : TxMeta) : SameRegisters s (t.setTxMeta j m) :=
  ⟨{ h.cursors with }, { h.control with }, h.draws⟩

theorem SameRegisters.answer (r : Reply) : SameRegisters s (t.answer r) :=
  ⟨{ h.cursors with }, { h.control with }, h.draws⟩

end

/-- Settles O14: both are the flush, which puts into MEM what SW saw through the write buffer. -/
theorem barriersEmptyTheWriteBuffer : Obligations.BarriersEmptyTheWriteBuffer := by
  unfold Obligations.BarriersEmptyTheWriteBuffer
  intro s hs hsound
  refine ⟨s.flush.answer .ok, ?_, ?_, rfl, rfl, fun d i k hi hk => ?_, fun a ha => ?_, ?_⟩
  · rw [exec_barrierDsb hs.running, barrierDsb_quiet s hs.quiet]
  · rw [exec_fenceFull hs.running, fenceFull_quiet s hs.quiet]
  · rw [← State.flush_word s hsound hs.sized d i k hi hk]
    cases d <;> rfl
  · exact State.flush_byte s hsound hs.sized a ha
  · have hregisters := (SameRegisters.flush s).answer .ok
    exact ⟨hregisters.cursors, hregisters.control, s.flush_rxMeta, s.flush_txMeta, s.flush_handover,
      hregisters.draws⟩

end Sys2Proof.Machine
end

section
/-! SUPPORT. The hand-over and the operations that store to a descriptor and end with it, when no other agent steps
inside them (spec/41_ownership_transfer.md rules R145 to R149, spec/42_rx_descriptor.md rule R161,
spec/43_tx_descriptor.md rule R181): the next state of each, then what it leaves alone. -/

namespace Sys2Proof.Machine

/-! ### The next states -/

/-- How the operations with a hand-over end: the window closed, `Ok(())` on the result port (R148). -/
def State.handedOver (s : State) : State := State.answer { s with handover := none } .ok

/-- OWN.TRANSFER (R145). -/
theorem exec_ownTransfer_quiet {s : State} {d : Dir} {slot : Nat} (hs : s.Undisturbed)
    (hslot : slot < s.params.capacity d) (hready : s.ready d = true) :
    exec (.ownTransfer d slot) s = .next (s.flush.setWord d slot (s.params.ownWord d)
      (s.swOwnWord d slot ||| s.params.handoverMask d)).handedOver := by
  rw [exec, execOwnTransfer, State.command_of_checks (State.firstRefusal_slotChecks hs.running hslot hready),
    ownTransfer_quiet s hs.quiet hs.instanceWf hs.sized d slot hslot]
  rfl

/-- RXD.SETUP (R161). -/
theorem exec_rxdSetup_quiet {s : State} {slot : Nat} (hs : s.Undisturbed) (hslot : slot < s.params.nRx)
    (hready : s.ready .rx = true) :
    exec (.rxdSetup slot) s =
      .next (((s.flush.setWord .rx slot s.params.rxLayout.buf1ap.word s.ports.arg0).setWord .rx slot
        (s.params.ownWord .rx) (s.params.rxSetupWord (s.swOwnWord .rx slot) ||| s.params.handoverMask .rx)).setRxMeta
        slot ⟨none, none⟩).handedOver := by
  rw [exec, execRxdSetup, State.command_of_checks (State.firstRefusal_slotChecks hs.running hslot hready),
    rxSetup_quiet s hs.quiet hs.instanceWf hs.sized slot hslot]
  rfl

/-- The word of the length field as TXD.SEND stores it (R181). -/
def State.sizedWord (s : State) (slot : Nat) (len : Word) : Word :=
  s.params.txLayout.b1l.put (s.swWord .tx slot s.params.txLayout.b1l.word) len

/-- The OWN word that TXD.SEND starts from: with the new length, where the layout has the length in that word (R181). -/
def State.sizedOwnWord (s : State) (slot : Nat) (len : Word) : Word :=
  if s.params.txLayout.b1l.word = s.params.ownWord .tx then s.sizedWord slot len else s.swOwnWord .tx slot

/-- TXD.SEND past its length test (R181). -/
theorem exec_txdSend_quiet {s : State} {slot : Nat} (hs : s.Undisturbed) (hslot : slot < s.params.nTx)
    (hready : s.ready .tx = true) (hlen : s.ports.arg1.toNat ≤ 16383) :
    exec (.txdSend slot) s =
      .next ((((s.flush.setWord .tx slot s.params.txLayout.buf1ap.word s.ports.arg0).setWord .tx slot
        s.params.txLayout.b1l.word (s.sizedWord slot s.ports.arg1)).setWord .tx slot (s.params.ownWord .tx)
        (s.params.txSendWord (s.sizedOwnWord slot s.ports.arg1) ||| s.params.handoverMask .tx)).setTxMeta slot
        ⟨s.ports.pid, none, s.busy slot⟩).handedOver := by
  have hchecks : firstRefusal (s.slotChecks .tx slot ++ [s.fieldCheck]) = none := by
    simp [State.slotChecks, State.slotCheck, State.liveCheck, State.readyCheck, State.fieldCheck, firstRefusal,
      Params.capacity, hslot, hs.running, hready, hlen]
  rw [exec, execTxdSend, State.command_of_checks hchecks,
    txSend_quiet s hs.quiet hs.instanceWf hs.sized slot hslot]
  rfl

/-- Settles O15: the closed form of the hand-over, read at the word it has written. -/
theorem ownTransferHandsOver : Obligations.OwnTransferHandsOver := by
  unfold Obligations.OwnTransferHandsOver
  intro s d slot hs hslot hready
  have hword := (s.params.wf_own hs.instanceWf d).2.2
  have hinside : 4 * slot + s.params.ownWord d < (s.flush.words d).length := by
    rw [State.length_words_flush, s.words_length hs.sized]
    omega
  refine ⟨exec_ownTransfer_quiet hs hslot hready, ?_, ?_, s.params.ownedByHw_or_handoverMask hs.instanceWf d _⟩
  · exact State.setWord_wb ..
  · refine Eq.trans ?_ (State.word_setWord_same s.flush d slot (s.params.ownWord d) _ hinside)
    cases d <;> rfl

/-! ### What they leave alone -/

/-- A store to a word of the set (R132). -/
theorem SameBytesOutside.setWord {stored : Nat → Prop} {s u : State} (h : SameBytesOutside stored s u) {d : Dir}
    {i k : Nat} (hstored : ∀ a, u.params.holdsWord d i k a → stored a) (v : Word) :
    SameBytesOutside stored s (u.setWord d i k v) := fun a ha =>
  (u.byteAt_setWord d i k v a fun b hb => ha (hstored a ⟨b, hb⟩)).trans (h a ha)

theorem SameBytesOutside.handedOver {stored : Nat → Prop} {s u : State} (h : SameBytesOutside stored s u) :
    SameBytesOutside stored s u.handedOver := h

theorem SameRegisters.handedOver {s t : State} (h : SameRegisters s t) : SameRegisters s t.handedOver :=
  ⟨{ h.cursors with }, { h.control with }, h.draws⟩

/-- The frame of an operation, put together. -/
theorem SameRegisters.frame {s t u : State} {stored : Nat → Prop} {rx : List RxMeta} {tx : List TxMeta}
    (h : SameRegisters s t) (hbytes : SameBytesOutside stored u t) (hrx : t.rxMeta = rx) (htx : t.txMeta = tx) :
    SameBytesOutside stored u t ∧ SameCursors s t ∧ SameControl s t ∧ t.rxMeta = rx ∧ t.txMeta = tx ∧
      t.draws = s.draws := ⟨hbytes, h.cursors, h.control, hrx, htx, h.draws⟩

@[simp] theorem State.handedOver_rxMeta (s : State) : s.handedOver.rxMeta = s.rxMeta := rfl
@[simp] theorem State.handedOver_txMeta (s : State) : s.handedOver.txMeta = s.txMeta := rfl

/-- Settles O16: each operation is the flush and one store a word it names, besides metadata of its slot. -/
theorem descriptorStoresFrame : Obligations.DescriptorStoresFrame := by
  unfold Obligations.DescriptorStoresFrame
  intro s t slot hs
  have hbytes (stored : Nat → Prop) : SameBytesOutside stored s.flush s.flush := fun _ _ => rfl
  have hflush := SameRegisters.flush s
  refine ⟨fun d hslot hready h => ?_, fun hslot hready h => ?_, fun hslot hready hlen h => ?_⟩
  · rw [exec_ownTransfer_quiet hs hslot hready] at h
    cases h
    exact (hflush.setWord ..).handedOver.frame ((hbytes _).setWord (by simp) _).handedOver (by simp) (by simp)
  · rw [exec_rxdSetup_quiet hs hslot hready] at h
    cases h
    refine (((hflush.setWord ..).setWord ..).setRxMeta ..).handedOver.frame ?_ (by simp) (by simp)
    exact (((hbytes _).setWord (by simp +contextual) _).setWord (by simp +contextual) _).handedOver
  · rw [exec_txdSend_quiet hs hslot hready hlen] at h
    cases h
    refine ((((hflush.setWord ..).setWord ..).setWord ..).setTxMeta ..).handedOver.frame ?_ (by simp) (by simp)
    exact ((((hbytes _).setWord (by simp +contextual) _).setWord (by simp +contextual) _).setWord
      (by simp +contextual) _).handedOver

end Sys2Proof.Machine
end

section
/-! SUPPORT. The hand-over under HANDOVER_ATOMIC, whatever the schedule (spec/41_ownership_transfer.md rule R150): SW
reads the slot inside the window as hardware-owned from the write of step 3 on, since no step of another agent can
release it. `HandoverSafe` is the invariant, kept by every micro-step. -/

namespace Sys2Proof

theorem Params.wf_rxBufSize (p : Params) (h : p.wf = true) : p.rxBufSize ≤ 16383 := by
  simp only [Params.wf_tests, Bool.and_eq_true, decide_eq_true_eq] at h
  tauto

namespace Machine

/-! ### What SW reads of a descriptor -/

/-- Where no entry writes a word, none is pending. -/
theorem pendingWord_eq_none {wb : List WbEntry} {d : Dir} {i k : Nat} (h : ∀ v, .word d i k v ∉ wb) :
    pendingWord wb d i k = none := by
  induction wb with
  | nil => rfl
  | cons e wb ih =>
    rw [pendingWord_cons, ih fun v hv => h v (List.mem_cons_of_mem _ hv)]
    cases e with
    | word d' i' k' v =>
      have hother : ¬ (d' = d ∧ i' = i ∧ k' = k) := by
        rintro ⟨rfl, rfl, rfl⟩
        exact h v List.mem_cons_self
      simp [hother]
    | _ => rfl

/-- SW sees MEM where no write is pending (R66). -/
theorem State.swWord_of_not_pending {s : State} {d : Dir} {i k : Nat} (h : ∀ v, .word d i k v ∉ s.wb) :
    s.swWord d i k = s.word d i k := by
  rw [State.swWord, pendingWord_eq_none h, Option.getD_none]

/-- SW reads every descriptor the same in two states. -/
structure SameDescriptors (s t : State) : Prop where
  params : t.params = s.params
  rxWords : t.rxWords = s.rxWords
  txWords : t.txWords = s.txWords
  wb : t.wb = s.wb

section
variable {s t : State} (h : SameDescriptors s t)
include h

theorem SameDescriptors.swWord (d : Dir) (i k : Nat) : t.swWord d i k = s.swWord d i k := by
  rw [State.swWord, State.swWord, h.wb]
  cases d <;> simp only [State.word, State.words, h.rxWords, h.txWords]

theorem SameDescriptors.swOwned (d : Dir) (i : Nat) : t.swOwned d i = s.swOwned d i := by
  rw [State.swOwned, State.swOwned, State.swOwnWord, State.swOwnWord, h.params, h.swWord]

theorem SameDescriptors.advanceDmaPos (d : Dir) : SameDescriptors s (t.advanceDmaPos d) := by
  unfold State.advanceDmaPos
  split
  · cases d <;> exact { h with }
  · exact h

end

@[simp] theorem State.writeBack_params (s : State) (d : Dir) (i : Nat) (v : Words4) :
    (s.writeBack d i v).params = s.params := (SharedStep.writeBack s d i v).soft.params

/-- A write-back of a slot to which SW has no write pending releases the slot; SW reads every other as before (R252,
R254). -/
theorem State.writeBack_view {s : State} {d : Dir} {i : Nat} (v : Words4) (hp : s.params.wf = true) (hs : s.Sized)
    (hi : i < s.params.capacity d) (hpending : ∀ k v, .word d i k v ∉ s.wb) :
    (s.writeBack d i v).swOwned d i = false ∧
    ∀ d' i' k, k < 4 → ¬ (d' = d ∧ i' = i) → (s.writeBack d i v).swWord d' i' k = s.swWord d' i' k := by
  obtain ⟨_, _, hown, hother⟩ := s.writeBack_words d i v hp hs hi
  refine ⟨?_, fun d' i' k hk hne => ?_⟩
  · rw [State.swOwned, State.swOwnWord, State.writeBack_params,
      State.swWord_of_not_pending (by simpa using hpending _), hown]
    exact (s.params.own d).isSet_andNot_mask (s.params.wf_own hp d).1 _
  · rw [State.swWord, State.swWord, State.writeBack_wb, hother d' i' k hk hne]

/-- An agent that is enabled on a slot finds it hardware-owned, and outside the window (R250, R251). -/
theorem State.dmaEnabled_slot {s : State} {d : Dir} {i : Nat} (h : s.dmaEnabled d i = true) :
    i < s.params.capacity d ∧ s.params.ownedByHw d (s.ownWordOf d i) = true ∧
    ¬ (s.params.handoverAtomic = true ∧ s.handover = some (d, i)) := by
  simp only [State.dmaEnabled, Bool.and_eq_true, decide_eq_true_eq, Bool.not_eq_true', ← Bool.not_eq_true,
    beq_iff_eq] at h
  obtain ⟨⟨⟨⟨_, hslot⟩, howned⟩, hwindow⟩, _⟩ := h
  exact ⟨hslot, howned, hwindow⟩

/-! ### The invariant -/

/-- What holds while a hand-over runs: `window` is the slot that SW is handing over once the window is open. Nothing
but that slot's OWN word is pending; no agent may step on the slot, and SW reads it as hardware-owned; every other
receive slot that SW reads as hardware-owned points outside the descriptor arrays (R146, R150, R251, R311). -/
structure HandoverSafe (window : Option (Dir × Nat)) (s : State) : Prop where
  instanceWf : s.params.wf = true
  sized : s.Sized
  entries : ∀ e ∈ s.wb, e = .fence ∨ ∃ d i v, window = some (d, i) ∧ e = .word d i (s.params.ownWord d) v
  guarded : ∀ d i, window = some (d, i) → s.params.handoverAtomic = true ∧ s.handover = some (d, i)
  owned : ∀ d i, window = some (d, i) → i < s.params.capacity d ∧ s.swOwned d i = true
  pointers : ∀ i, i < s.params.nRx → window ≠ some (.rx, i) → s.swOwned .rx i = true →
    ∀ k, k < s.params.rxBufSize →
      s.params.descriptorByte (addrAt (s.swWord .rx i s.params.rxLayout.buf1ap.word) k) = none

/-- SW reads every slot as before, or one, not the one in the window, has been released to SW. -/
def ViewKept (window : Option (Dir × Nat)) (s t : State) : Prop :=
  ∀ d i, i < s.params.capacity d →
    (∀ k, k < 4 → t.swWord d i k = s.swWord d i k) ∨ (window ≠ some (d, i) ∧ t.swOwned d i = false)

section
variable {window : Option (Dir × Nat)} {s : State} (h : HandoverSafe window s)
include h

theorem HandoverSafe.sound : s.WbSound := by
  intro e he
  obtain rfl | ⟨d, i, v, hwindow, rfl⟩ := h.entries e he
  · trivial
  · exact ⟨(h.owned d i hwindow).1, (s.params.wf_own h.instanceWf d).2.2⟩

theorem HandoverSafe.not_pending {d : Dir} {i : Nat} (hother : window ≠ some (d, i)) (k : Nat) (v : Word) :
    .word d i k v ∉ s.wb := by
  intro he
  obtain hfence | ⟨d', i', v', hwindow, hword⟩ := h.entries _ he
  · cases hfence
  · cases hword
    exact hother hwindow

/-! ### The steps of the other agents -/

/-- No agent may step on the slot being handed over (R251). -/
theorem HandoverSafe.window_ne_of_enabled {d : Dir} {i : Nat} (henabled : s.dmaEnabled d i = true) :
    window ≠ some (d, i) := fun hwindow => (State.dmaEnabled_slot henabled).2.2 (h.guarded d i hwindow)

/-- A slot an agent is enabled on is hardware-owned for SW too: nothing is pending to it. -/
theorem HandoverSafe.swOwned_of_enabled {d : Dir} {i : Nat} (henabled : s.dmaEnabled d i = true) :
    s.swOwned d i = true := by
  rw [State.swOwned, State.swOwnWord,
    State.swWord_of_not_pending (h.not_pending (h.window_ne_of_enabled henabled) _)]
  exact (State.dmaEnabled_slot henabled).2.1

/-- The write-back of an agent that is enabled, after accesses to buffer memory. -/
theorem HandoverSafe.writeBack_view {d : Dir} {i : Nat} {v : Words4} {u : State} {ri ti : Bool}
    (henabled : s.dmaEnabled d i = true) (hu : SameDescriptors s u) (hsized : u.Sized) :
    ViewKept window s (State.advanceDmaPos { u.writeBack d i v with ri := ri, ti := ti } d) := by
  have hother := h.window_ne_of_enabled henabled
  obtain ⟨hreleased, hkept⟩ := State.writeBack_view v (hu.params ▸ h.instanceWf) hsized
    (hu.params ▸ (State.dmaEnabled_slot henabled).1) (hu.wb ▸ h.not_pending hother)
  have ht := SameDescriptors.advanceDmaPos (t := { u.writeBack d i v with ri := ri, ti := ti })
    (s := u.writeBack d i v) ⟨rfl, rfl, rfl, rfl⟩ d
  intro d' i' _
  by_cases hslot : d' = d ∧ i' = i
  · obtain ⟨rfl, rfl⟩ := hslot
    exact .inr ⟨hother, (ht.swOwned d' i').trans hreleased⟩
  · exact .inl fun k hk => (ht.swWord d' i' k).trans ((hkept d' i' k hk hslot).trans (hu.swWord d' i' k))

/-- A receive write-back puts the frame's bytes outside the descriptor arrays (R252, R311). -/
theorem HandoverSafe.rxWriteback_view (j : Nat) (bytes : List Byte) (v : Words4) :
    ViewKept window s (s.rxWriteback j bytes v) := by
  unfold State.rxWriteback
  split
  · next henabled =>
    obtain ⟨henabled, hlegal⟩ := Bool.and_eq_true_iff.mp henabled
    have hother := h.window_ne_of_enabled henabled
    have hsize := s.params.wf_rxBufSize h.instanceWf
    have hfits : bytes.length ≤ s.params.rxBufSize := by
      simp only [State.rxDrawsLegal, Bool.and_eq_true, decide_eq_true_eq] at hlegal
      exact hlegal.1.1
    have hapart : ∀ k, k < bytes.length →
        s.params.descriptorByte (addrAt (s.word .rx j s.params.rxLayout.buf1ap.word) (0 + k)) = none := by
      intro k hk
      rw [Nat.zero_add, ← State.swWord_of_not_pending (h.not_pending hother _)]
      exact h.pointers j (State.dmaEnabled_slot henabled).1 hother (h.swOwned_of_enabled henabled) k (by omega)
    obtain ⟨m, hput, -, -⟩ := State.putBytes_apart bytes _ 0 s hapart (by omega)
    dsimp only
    rw [hput]
    exact h.writeBack_view henabled ⟨rfl, rfl, rfl, rfl⟩ { h.sized with }
  · exact fun _ _ _ => .inl fun _ _ => rfl

theorem HandoverSafe.txWriteback_view (j : Nat) (v : Words4) (ti : Bool) :
    ViewKept window s (s.txWriteback j v ti) := by
  unfold State.txWriteback
  split
  · next henabled =>
    exact h.writeBack_view henabled ⟨rfl, rfl, rfl, rfl⟩ { h.sized with }
  · exact fun _ _ _ => .inl fun _ _ => rfl

/-- No step of another agent takes the slot in the window away from the hardware (R150). -/
theorem HandoverSafe.envStep_view (e : EnvStep) : ViewKept window s (s.envStep e) := by
  cases e with
  | drain n =>
    have hview := (drainKeepsWhatSoftwareReads s n h.instanceWf h.sized h.sound).1
    exact fun d i hi => .inl fun k hk => hview d i k hi hk
  | rxWriteback i bytes v => exact h.rxWriteback_view i bytes v
  | txWriteback j v t => exact h.txWriteback_view j v t
  | interruptAck =>
    refine fun d i _ => .inl fun k _ => SameDescriptors.swWord ?_ d i k
    simp only [State.envStep, State.handlerAck]
    split <;> exact ⟨rfl, rfl, rfl, rfl⟩

/-- The invariant is one on what SW reads: it is kept where SW's view is. -/
theorem HandoverSafe.of_view {t : State} (hshared : SharedStep s t) (hview : ViewKept window s t)
    (hwindow : t.handover = s.handover) (hwb : ∀ e ∈ t.wb, e ∈ s.wb ∨ e = .fence) : HandoverSafe window t := by
  have hp := hshared.soft.params
  have hown (d : Dir) := (s.params.wf_own h.instanceWf d).2.2
  have howned {d : Dir} {i : Nat} (hkept : ∀ k, k < 4 → t.swWord d i k = s.swWord d i k) :
      t.swOwned d i = s.swOwned d i := by
    rw [State.swOwned, State.swOwned, State.swOwnWord, State.swOwnWord, hp, hkept _ (hown d)]
  refine ⟨hp ▸ h.instanceWf, (hshared.frame true true).sized h.sized,
    fun e he => hp ▸ (hwb e he).elim (h.entries e) .inl,
    fun d i hw => hp ▸ hwindow ▸ h.guarded d i hw, fun d i hw => ?_, fun i hi hw ho => ?_⟩
  · obtain ⟨hslot, hs⟩ := h.owned d i hw
    obtain hkept | ⟨hother, _⟩ := hview d i hslot
    · exact ⟨hp ▸ hslot, (howned hkept).trans hs⟩
    · exact absurd hw hother
  · rw [hp] at hi ⊢
    obtain hkept | ⟨_, hreleased⟩ := hview .rx i hi
    · rw [hkept _ (s.params.wf_rxRead h.instanceWf).1]
      exact h.pointers i hi hw ((howned hkept).symm.trans ho)
    · rw [hreleased] at ho
      cases ho

theorem HandoverSafe.envStep (e : EnvStep) : HandoverSafe window (s.envStep e) :=
  h.of_view (.envStep s e) (h.envStep_view e) (s.envStep_rest e).1 fun _ he => .inl ((s.envStep_rest e).2.subset he)

end

theorem HandoverSafe.envSteps {window : Option (Dir × Nat)} (es : List EnvStep) : ∀ {s : State},
    HandoverSafe window s → HandoverSafe window (s.envSteps es) := by
  induction es with
  | nil => exact fun h => h
  | cons e es ih => exact fun h => ih (h.envStep e)

/-! ### The micro-steps of the hand-over -/

section
variable {window : Option (Dir × Nat)} {s : State} (h : HandoverSafe window s)
include h

theorem HandoverSafe.interleave : HandoverSafe window s.interleave := by
  unfold State.interleave
  split
  · exact h
  · exact HandoverSafe.envSteps _ { h with sized := { h.sized with } }

theorem HandoverSafe.swRead (d : Dir) (i k : Nat) : HandoverSafe window (swRead d i k s).2 := h.interleave

theorem HandoverSafe.fenceWw : HandoverSafe window (fenceWw s) := by
  have hi := h.interleave
  have hshared : SharedStep s.interleave (Machine.fenceWw s) := .appendWb _ _ (by simp [WbEntry.Sound])
  refine hi.of_view hshared (fun d i _ => .inl fun k _ => ?_) rfl (by simp [Machine.fenceWw])
  simp only [Machine.fenceWw, State.swWord, pendingWord_append]
  rfl

theorem HandoverSafe.flush : HandoverSafe window s.flush := by
  refine h.of_view (.flush s) (fun d i hi => .inl fun k hk => ?_) s.flush_handover (by simp)
  rw [State.swWord_of_empty _ s.flush_wb, s.flush_word h.sound h.sized d i k hi hk]

theorem HandoverSafe.barrierDsb : HandoverSafe window (barrierDsb s) := h.interleave.flush

end

/-- SW appends the write that hands the slot over, and the window opens (R146). -/
theorem HandoverSafe.openWindow {s : State} (h : HandoverSafe none s) (hatomic : s.params.handoverAtomic = true)
    {d : Dir} {i : Nat} (hi : i < s.params.capacity d) {v : Word} (hv : s.params.ownedByHw d v = true) :
    HandoverSafe (some (d, i)) { swWrite d i (s.params.ownWord d) v s with handover := some (d, i) } := by
  have hparams : s.interleave.params = s.params := (SharedStep.interleave s).soft.params
  have hbefore := h.interleave
  unfold swWrite
  dsimp only
  rw [← hparams] at hatomic hi hv ⊢
  generalize s.interleave = u at hatomic hi hv hbefore ⊢
  have hsame := u.swWord_write d d i i (u.params.ownWord d) (u.params.ownWord d) v
  have hother {i' k : Nat} (hne : some (d, i) ≠ some (.rx, i')) :=
    (u.swWord_write d .rx i i' (u.params.ownWord d) k v).trans (if_neg fun e => hne (by rw [e.1, e.2.1]))
  rw [if_pos ⟨rfl, rfl, rfl⟩] at hsame
  refine ⟨hbefore.instanceWf, { hbefore.sized with }, fun e he => ?_, ?_, ?_, fun i' hi' hne ho k hk => ?_⟩
  · obtain he | he := List.mem_append.mp he
    · obtain hfence | ⟨_, _, _, hnone, _⟩ := hbefore.entries e he
      · exact .inl hfence
      · cases hnone
    · exact .inr ⟨d, i, v, rfl, List.mem_singleton.mp he⟩
  · rintro _ _ ⟨⟩
    exact ⟨hatomic, rfl⟩
  · rintro _ _ ⟨⟩
    exact ⟨hi, (congrArg (u.params.ownedByHw d) hsame).trans hv⟩
  · have howned : u.swOwned .rx i' = true := (congrArg (u.params.ownedByHw .rx) (hother hne)).symm.trans ho
    have hpointer := hbefore.pointers i' hi' nofun howned k hk
    rwa [← hother hne] at hpointer

/-- SW reads the slot in the window as hardware-owned (R148). -/
theorem HandoverSafe.swRead_owned {s : State} {d : Dir} {i : Nat} (h : HandoverSafe (some (d, i)) s) :
    s.params.ownedByHw d (Machine.swRead d i (s.params.ownWord d) s).1 = true := by
  rw [← (SharedStep.interleave s).soft.params]
  exact (h.interleave.owned d i rfl).2

/-- Before the window opens, with nothing pending, the invariant is the caller's duty of R311. -/
theorem State.PointersApart.handoverSafe {s : State} (h : s.PointersApart) (hp : s.params.wf = true) (hs : s.Sized)
    (hwb : s.wb = []) : HandoverSafe none s := by
  refine ⟨hp, hs, by simp [hwb], nofun, nofun, fun i hi _ ho k hk => ?_⟩
  rw [State.swOwned, State.swOwnWord, s.swWord_of_empty hwb] at ho
  rw [s.swWord_of_empty hwb]
  exact h i hi ho k hk

/-- The read-back of step 5 finds the slot hardware-owned, whatever the schedule (R148, R150). -/
theorem HandoverSafe.ownTransfer_done {s : State} (h : HandoverSafe none s) (hatomic : s.params.handoverAtomic = true)
    {d : Dir} {i : Nat} (hi : i < s.params.capacity d) :
    ∃ t, ownTransfer d i s = .done () t ∧ t.handover = none := by
  have hread := h.fenceWw.swRead d i (s.params.ownWord d)
  have hshared := (SharedStep.fenceWw s).trans (.swRead d i (s.params.ownWord d) _)
  unfold ownTransfer
  dsimp only
  generalize Machine.swRead d i (s.params.ownWord d) (Machine.fenceWw s) = old at hread hshared ⊢
  have hopen := hread.openWindow (d := d) (i := i) (v := old.1 ||| s.params.handoverMask d)
  rw [hshared.soft.params] at hopen
  have hback := (hopen hatomic hi (s.params.ownedByHw_or_handoverMask h.instanceWf d _)).barrierDsb.swRead_owned
  have hparams (v : Word) : (Machine.swWrite d i (s.params.ownWord d) v old.2).params = s.params :=
    (hshared.trans (.interleave _)).soft.params
  rw [(SharedStep.barrierDsb _).soft.params, hparams] at hback
  rw [if_pos hback]
  exact ⟨_, rfl, (State.flush_handover _).trans (State.interleave_rest _).1⟩

/-- Settles O17: the hand-over ends, with the window closed, and no micro-step of it halts the block. -/
theorem atomicHandoverNeverFails : Obligations.AtomicHandoverNeverFails := by
  unfold Obligations.AtomicHandoverNeverFails
  intro s d slot hp hatomic hs hrunning hslot hready hwb hapart
  obtain ⟨t, hdone, hwindow⟩ := (hapart.handoverSafe hp hs hwb).ownTransfer_done hatomic hslot
  have hframe : Frame true true s t := by
    have h := Frame.ownTransfer true true d slot s
    rwa [hdone] at h
  refine ⟨t.answer .ok, ?_, rfl, hframe.halted.trans hrunning, hwindow⟩
  rw [exec, execOwnTransfer, State.command_of_checks (State.firstRefusal_slotChecks hrunning hslot hready), hdone]
  rfl

end Machine

end Sys2Proof
end

section
/-! SUPPORT. The operations that read one receive descriptor (spec/42_rx_descriptor.md rules R160, R162, R165 to R168,
and R180 for transmit): past the tests, each answers what its nested function gives; undisturbed, those have the closed
forms of Laws/Quiet.lean and Laws/Descriptors.lean. -/

namespace Sys2Proof.Machine

/-! ### Past the tests, whatever the schedule -/

theorem exec_rxdIsOwned {s : State} {slot : Nat} (hchecks : firstRefusal (s.slotChecks .rx slot) = none) :
    exec (.rxdIsOwned slot) s = .next ((isOwned .rx slot s).2.answer (.bool (isOwned .rx slot s).1)) := by
  rw [exec, execRxdIsOwned, State.command_of_checks hchecks, conclude]

theorem exec_txdIsOwned {s : State} {slot : Nat} (hchecks : firstRefusal (s.slotChecks .tx slot) = none) :
    exec (.txdIsOwned slot) s = .next ((isOwned .tx slot s).2.answer (.bool (isOwned .tx slot s).1)) := by
  rw [exec, execTxdIsOwned, State.command_of_checks hchecks, conclude]

theorem exec_rxdTakeReceived {s : State} {slot : Nat} (hchecks : firstRefusal (s.slotChecks .rx slot) = none) :
    exec (.rxdTakeReceived slot) s =
      conclude ((takeReceived slot s.ports.pid s.ports.arg0 s).andThen fun r t => .done (receivedReply r) t) := by
  rw [exec, execRxdTakeReceived, State.command_of_checks hchecks]

theorem exec_rxdFrameLength {s : State} {slot : Nat} (hchecks : firstRefusal (s.slotChecks .rx slot) = none) :
    exec (.rxdFrameLength slot) s = .next ((frameLength slot s).2.answer (.length (frameLength slot s).1)) := by
  rw [exec, execRxdFrameLength, State.command_of_checks hchecks, conclude]

theorem exec_rxdPacketId {s : State} {slot : Nat} (hchecks : firstRefusal (s.slotChecks .rx slot) = none) :
    exec (.rxdPacketId slot) s = .next (s.answer (.packetId (s.rxMetaAt slot).pid)) := by
  rw [exec, execRxdPacketId, State.command_of_checks hchecks, conclude]

theorem exec_rxdTimestamp {s : State} {slot : Nat} (hchecks : firstRefusal (s.slotChecks .rx slot) = none) :
    exec (.rxdTimestamp slot) s = .next (s.answer (.timestamp (s.rxMetaAt slot).ts)) := by
  rw [exec, execRxdTimestamp, State.command_of_checks hchecks, conclude]

/-! ### What they answer undisturbed -/

/-- Settles O18: undisturbed, the one read takes the OWN word SW sees. -/
theorem isOwnedAnswersTheOwnershipBit : Obligations.IsOwnedAnswersTheOwnershipBit := by
  unfold Obligations.IsOwnedAnswersTheOwnershipBit
  intro s slot hs
  refine ⟨fun hslot hready => ?_, fun hslot hready => ?_⟩
  · rw [exec_rxdIsOwned (State.firstRefusal_slotChecks hs.running hslot hready), isOwned_quiet s hs.quiet]
    rfl
  · rw [exec_txdIsOwned (State.firstRefusal_slotChecks hs.running hslot hready), isOwned_quiet s hs.quiet]
    rfl

/-- Settles O20: the first branch of the closed form. -/
theorem takeReceivedWouldBlock : Obligations.TakeReceivedWouldBlock := by
  unfold Obligations.TakeReceivedWouldBlock
  intro s slot hs hslot hready howned
  rw [exec_rxdTakeReceived (State.firstRefusal_slotChecks hs.running hslot hready), takeReceived_quiet s hs.quiet,
    if_pos howned]
  rfl

/-- Settles O21: the second branch of the closed form. -/
theorem takeReceivedStoresTagAndTimestamp : Obligations.TakeReceivedStoresTagAndTimestamp := by
  unfold Obligations.TakeReceivedStoresTagAndTimestamp
  intro s slot hs hslot hready howned hwhole
  rw [exec_rxdTakeReceived (State.firstRefusal_slotChecks hs.running hslot hready), takeReceived_quiet s hs.quiet,
    if_neg (Bool.eq_false_iff.mp howned), if_pos hwhole]
  rfl

/-- Settles O23: undisturbed, the one read takes the OWN word SW sees. -/
theorem frameLengthAnswersTheField : Obligations.FrameLengthAnswersTheField := by
  unfold Obligations.FrameLengthAnswersTheField
  intro s slot hs hslot hready
  rw [exec_rxdFrameLength (State.firstRefusal_slotChecks hs.running hslot hready), frameLength_quiet s hs.quiet]
  rfl

end Sys2Proof.Machine
end

section
/-! SUPPORT. A receive slot armed (spec/42_rx_descriptor.md rules R161, R164): the state RXD.SETUP ends in, then what
the later operations find in it. -/

namespace Sys2Proof.Machine

/-! ### The armed state -/

/-- Everything pending reaches MEM, then the buffer address and the OWN word of the slot, its metadata is cleared, and
the slot is handed over (R161). -/
def State.rxArmed (s : State) (slot : Nat) : State :=
  (((s.flush.setWord .rx slot s.params.rxLayout.buf1ap.word s.ports.arg0).setWord .rx slot (s.params.ownWord .rx)
    (s.params.rxSetupWord (s.swOwnWord .rx slot) ||| s.params.handoverMask .rx)).setRxMeta slot ⟨none, none⟩).handedOver

theorem exec_rxdSetup {s : State} {slot : Nat} (hs : s.Undisturbed) (hslot : slot < s.params.nRx)
    (hready : s.ready .rx = true) : exec (.rxdSetup slot) s = .next (s.rxArmed slot) :=
  exec_rxdSetup_quiet hs hslot hready

@[simp] theorem State.rxArmed_params (s : State) (slot : Nat) : (s.rxArmed slot).params = s.params := s.flush_params
@[simp] theorem State.rxArmed_halted (s : State) (slot : Nat) : (s.rxArmed slot).halted = s.halted := s.flush_halted
@[simp] theorem State.rxArmed_readyRx (s : State) (slot : Nat) : (s.rxArmed slot).readyRx = s.readyRx :=
  s.flush_readyRx
@[simp] theorem State.rxArmed_mem (s : State) (slot : Nat) : (s.rxArmed slot).mem = s.flush.mem := rfl
@[simp] theorem State.rxArmed_wb (s : State) (slot : Nat) : (s.rxArmed slot).wb = [] := rfl
@[simp] theorem State.rxArmed_handover (s : State) (slot : Nat) : (s.rxArmed slot).handover = none := rfl
@[simp] theorem State.rxArmed_reply (s : State) (slot : Nat) : (s.rxArmed slot).reply = some .ok := rfl

/-- The descriptor words of the armed state are those of its two stores. -/
theorem State.rxArmed_word (s : State) (slot : Nat) (d : Dir) (i k : Nat) :
    (s.rxArmed slot).word d i k =
      ((s.flush.setWord .rx slot s.params.rxLayout.buf1ap.word s.ports.arg0).setWord .rx slot (s.params.ownWord .rx)
        (s.params.rxSetupWord (s.swOwnWord .rx slot) ||| s.params.handoverMask .rx)).word d i k := by
  cases d <;> rfl

/-- The armed slot has no metadata (R43). -/
theorem State.rxArmed_rxMetaAt {s : State} {slot : Nat} (hs : s.Sized) (hslot : slot < s.params.nRx) :
    (s.rxArmed slot).rxMetaAt slot = ⟨none, none⟩ := by
  have hinside : slot < s.flush.rxMeta.length := by rwa [State.flush_rxMeta, hs.rxMeta]
  exact (State.rxMetaAt_setRxMeta _ slot slot ⟨none, none⟩ (by simpa using hinside)).trans (if_pos rfl)

section
variable {s : State} {slot : Nat} (hp : s.params.wf = true) (hs : s.Sized) (hslot : slot < s.params.nRx)
include hp hs hslot

theorem State.rxArmed_ownWord : (s.rxArmed slot).word .rx slot (s.params.ownWord .rx) =
    s.params.rxSetupWord (s.swOwnWord .rx slot) ||| s.params.handoverMask .rx := by
  have hown := (s.params.wf_own hp .rx).2.2
  have hlength := s.words_length hs .rx
  rw [s.rxArmed_word]
  apply State.word_setWord_same
  simp only [State.length_words_setWord, State.length_words_flush, hlength, Params.capacity]
  omega

theorem State.rxArmed_owned :
    s.params.ownedByHw .rx ((s.rxArmed slot).word .rx slot (s.params.ownWord .rx)) = true := by
  rw [s.rxArmed_ownWord hp hs hslot]
  exact s.params.ownedByHw_or_handoverMask hp .rx _

theorem State.rxArmed_buf1ap : (s.rxArmed slot).word .rx slot s.params.rxLayout.buf1ap.word = s.ports.arg0 := by
  obtain ⟨hbuf, hne⟩ := s.params.wf_rxRead hp
  have hown := (s.params.wf_own hp .rx).2.2
  have hlength := s.words_length hs .rx
  rw [s.rxArmed_word, State.word_setWord_ne _ _ _ _ _ _ _ _ hown hbuf (by simp [hne])]
  apply State.word_setWord_same
  simp only [State.length_words_flush, hlength, Params.capacity]
  omega

end

/-- Arming a slot stores to no other word (R161). -/
theorem State.rxArmed_word_ne {s : State} {slot : Nat} (hp : s.params.wf = true) {d : Dir} {i k : Nat} (hk : k < 4)
    (hne : ¬ (d = .rx ∧ i = slot ∧ (k = s.params.ownWord .rx ∨ k = s.params.rxLayout.buf1ap.word))) :
    (s.rxArmed slot).word d i k = s.flush.word d i k := by
  have hbuf := (s.params.wf_rxRead hp).1
  have hown := (s.params.wf_own hp .rx).2.2
  rw [s.rxArmed_word, State.word_setWord_ne _ _ _ _ _ _ _ _ hown hk fun e => hne ⟨e.1, e.2.1, .inl e.2.2⟩,
    State.word_setWord_ne _ _ _ _ _ _ _ _ hbuf hk fun e => hne ⟨e.1, e.2.1, .inr e.2.2⟩]

/-! ### The operations -/

/-- Settles O19: the words of the armed state, and its registers. -/
theorem rxdSetupArmsTheSlot : Obligations.RxdSetupArmsTheSlot := by
  unfold Obligations.RxdSetupArmsTheSlot
  intro s slot hs hslot hready
  have hp := hs.instanceWf
  exact ⟨s.rxArmed slot, exec_rxdSetup hs hslot hready, s.rxArmed_reply slot, s.rxArmed_wb slot,
    s.rxArmed_handover slot, State.rxArmed_buf1ap hp hs.sized hslot, State.rxArmed_ownWord hp hs.sized hslot,
    State.rxArmed_owned hp hs.sized hslot, fun _ _ _ => State.rxArmed_word_ne hp, s.rxArmed_mem slot,
    State.rxArmed_rxMetaAt hs.sized hslot⟩

/-- Settles O22: the last branch of the closed form is the run of RXD.SETUP, with another answer. -/
theorem takeReceivedTruncatedRearms : Obligations.TakeReceivedTruncatedRearms := by
  unfold Obligations.TakeReceivedTruncatedRearms
  intro s slot hs hslot hready howned hpart
  refine ⟨s.rxArmed slot, exec_rxdSetup hs hslot hready, ?_, s.rxArmed_reply slot,
    State.rxArmed_owned hs.instanceWf hs.sized hslot, State.rxArmed_rxMetaAt hs.sized hslot⟩
  rw [exec_rxdTakeReceived (State.firstRefusal_slotChecks hs.running hslot hready), takeReceived_quiet s hs.quiet,
    if_neg (Bool.eq_false_iff.mp howned), if_neg (Bool.eq_false_iff.mp hpart),
    rxSetup_quiet s hs.quiet hs.instanceWf hs.sized slot hslot]
  rfl

/-- Settles O24: the accessors answer the cache, which is empty in the armed state. -/
theorem metadataAccessorsAnswerTheCache : Obligations.MetadataAccessorsAnswerTheCache := by
  unfold Obligations.MetadataAccessorsAnswerTheCache
  intro s slot hrunning hslot hready
  have hchecks := State.firstRefusal_slotChecks (d := .rx) hrunning hslot hready
  refine ⟨exec_rxdPacketId hchecks, exec_rxdTimestamp hchecks, fun hs => ?_⟩
  have harmed : firstRefusal ((s.rxArmed slot).slotChecks .rx slot) = none :=
    State.firstRefusal_slotChecks ((s.rxArmed_halted slot).trans hrunning)
      (by rw [s.rxArmed_params]; exact hslot) ((s.rxArmed_readyRx slot).trans hready)
  refine ⟨s.rxArmed slot, exec_rxdSetup hs hslot hready, ?_, ?_⟩
  · rw [exec_rxdPacketId harmed, State.rxArmed_rxMetaAt hs.sized hslot]
  · rw [exec_rxdTimestamp harmed, State.rxArmed_rxMetaAt hs.sized hslot]

end Sys2Proof.Machine
end

section
/-! SUPPORT. The words of a software-owned slot under the steps of the other agents, outside a hand-over
(spec/46_dma_agent.md rule R250, spec/70_reset_and_hazards.md rule R290): the DMA agent writes back only slots that are
hardware-owned, and puts frames outside the descriptor arrays (R311). -/

namespace Sys2Proof.Machine

/-! ### The write-backs -/

/-- A frame fits its buffer (R252). -/
theorem State.length_le_of_rxDrawsLegal {s : State} {i : Nat} {bytes : List Byte} {v : Words4}
    (h : s.rxDrawsLegal i bytes v = true) : bytes.length ≤ s.params.rxBufSize := by
  simp only [State.rxDrawsLegal, Bool.and_eq_true, decide_eq_true_eq] at h
  exact h.1.1

@[simp] theorem State.word_advanceDmaPos (s : State) (d d' : Dir) (i k : Nat) :
    (s.advanceDmaPos d).word d' i k = s.word d' i k := by
  unfold State.advanceDmaPos
  split
  · cases d <;> cases d' <;> rfl
  · rfl

/-- A write-back that is enabled, after accesses to buffer memory, leaves the words of every software-owned slot. -/
theorem State.word_writeBack_of_enabled {s u : State} {d d' : Dir} {i i' k : Nat} (v : Words4) (ri ti : Bool)
    (henabled : s.dmaEnabled d i = true) (hu : SameDescriptors s u) (hp : s.params.wf = true) (hs : u.Sized)
    (hk : k < 4) (hsoft : s.params.ownedByHw d' (s.ownWordOf d' i') = false) :
    (State.advanceDmaPos { u.writeBack d i v with ri := ri, ti := ti } d).word d' i' k = s.word d' i' k := by
  obtain ⟨hslot, howned, _⟩ := State.dmaEnabled_slot henabled
  have hother : ¬ (d' = d ∧ i' = i) := by
    rintro ⟨rfl, rfl⟩
    simp [hsoft] at howned
  obtain ⟨_, _, _, hkept⟩ := u.writeBack_words d i v (hu.params ▸ hp) hs (hu.params ▸ hslot)
  have hword : (u.writeBack d i v).word d' i' k = s.word d' i' k := by
    rw [hkept d' i' k hk hother]
    cases d' <;> simp only [State.word, State.words, hu.rxWords, hu.txWords]
  rw [State.word_advanceDmaPos, ← hword]
  cases d' <;> rfl

section
variable {s : State} (h : HandoverSafe none s) {d : Dir} {i k : Nat} (hk : k < 4)
  (hsoft : s.params.ownedByHw d (s.ownWordOf d i) = false)

/-! ### The steps, outside a hand-over -/

include h in
/-- Outside a hand-over SW sees MEM in every descriptor, so what MEM shows hardware-owned points outside the descriptor
arrays (R311). -/
theorem HandoverSafe.pointersApart : s.PointersApart := by
  intro j hj howned k hk
  have hview (k : Nat) := State.swWord_of_not_pending (h.not_pending (d := .rx) (i := j) nofun k)
  rw [← hview]
  exact h.pointers j hj nofun (by rwa [State.swOwned, State.swOwnWord, hview]) k hk

include h hk hsoft

theorem HandoverSafe.word_rxWriteback (j : Nat) (bytes : List Byte) (v : Words4) :
    (s.rxWriteback j bytes v).word d i k = s.word d i k := by
  unfold State.rxWriteback
  split
  · next henabled =>
    obtain ⟨henabled, hlegal⟩ := Bool.and_eq_true_iff.mp henabled
    obtain ⟨hslot, howned, _⟩ := State.dmaEnabled_slot henabled
    have hsize := s.params.wf_rxBufSize h.instanceWf
    have hfits := State.length_le_of_rxDrawsLegal hlegal
    obtain ⟨m, hput, -, -⟩ := State.putBytes_apart bytes (s.word .rx j s.params.rxLayout.buf1ap.word) 0 s
      (fun n hn => by rw [Nat.zero_add]; exact h.pointersApart j hslot howned n (by omega)) (by omega)
    dsimp only
    rw [hput]
    exact State.word_writeBack_of_enabled v _ _ henabled ⟨rfl, rfl, rfl, rfl⟩ h.instanceWf { h.sized with } hk hsoft
  · rfl

theorem HandoverSafe.word_txWriteback (j : Nat) (v : Words4) (ti : Bool) :
    (s.txWriteback j v ti).word d i k = s.word d i k := by
  unfold State.txWriteback
  split
  · next henabled =>
    exact State.word_writeBack_of_enabled v _ _ henabled ⟨rfl, rfl, rfl, rfl⟩ h.instanceWf { h.sized with } hk hsoft
  · rfl

/-- No step of another agent touches the words of a software-owned slot (R250, R290). -/
theorem HandoverSafe.word_envStep (e : EnvStep) : (s.envStep e).word d i k = s.word d i k := by
  cases e with
  | drain n =>
    obtain hsame | ⟨rest, _, hfence⟩ | ⟨_, entry, _, hwb, hwrite, _⟩ := s.drain_cases n
    · exact congrArg (fun t : State => t.word d i k) hsame
    · rw [State.envStep, hfence]
      cases d <;> rfl
    · obtain rfl | ⟨_, _, _, hnone, _⟩ := h.entries entry (by simp [hwb])
      · exact absurd rfl hwrite
      · cases hnone
  | rxWriteback j bytes v => exact h.word_rxWriteback hk hsoft j bytes v
  | txWriteback j v ti => exact h.word_txWriteback hk hsoft j v ti
  | interruptAck =>
    simp only [State.envStep, State.handlerAck]
    split
    · cases d <;> rfl
    · rfl

end

/-- Any number of steps: the slot stays software-owned, since its OWN word stays. -/
theorem HandoverSafe.word_envSteps (es : List EnvStep) {d : Dir} {i k : Nat} (hk : k < 4) : ∀ {s : State},
    HandoverSafe none s → s.params.ownedByHw d (s.ownWordOf d i) = false →
    (s.envSteps es).word d i k = s.word d i k := by
  induction es with
  | nil => exact fun _ _ => rfl
  | cons e es ih =>
    intro s h hsoft
    have hsoft' : (s.envStep e).params.ownedByHw d ((s.envStep e).ownWordOf d i) = false := by
      rwa [State.ownWordOf, (SharedStep.envStep s e).soft.params,
        h.word_envStep (s.params.wf_own h.instanceWf d).2.2 hsoft e]
    exact (ih (h.envStep e) hsoft').trans (h.word_envStep hk hsoft e)

/-- Settles O51: with nothing pending, the caller's duty of R311 is the invariant outside a hand-over. -/
theorem softwareOwnedSlotStaysSoftwares : Obligations.SoftwareOwnedSlotStaysSoftwares := by
  unfold Obligations.SoftwareOwnedSlotStaysSoftwares
  intro s es d i k hp hs hwb hapart _ hk hsoft
  exact (hapart.handoverSafe hp hs hwb).word_envSteps es hk hsoft

end Sys2Proof.Machine
end

section
/-! SUPPORT. A transmit slot submitted (spec/43_tx_descriptor.md rule R181): the state TXD.SEND ends in, then what that
state holds. -/

namespace Sys2Proof.Machine

/-- Everything pending reaches MEM, then the pointer, the length word and the OWN word of the slot, its metadata names
the caller's identifier and no timestamp, and the slot is handed over (R181). -/
def State.txSubmitted (s : State) (slot : Nat) : State :=
  ((((s.flush.setWord .tx slot s.params.txLayout.buf1ap.word s.ports.arg0).setWord .tx slot s.params.txLayout.b1l.word
    (s.sizedWord slot s.ports.arg1)).setWord .tx slot (s.params.ownWord .tx)
    (s.params.txSendWord (s.sizedOwnWord slot s.ports.arg1) ||| s.params.handoverMask .tx)).setTxMeta slot
    ⟨s.ports.pid, none, s.busy slot⟩).handedOver

theorem exec_txdSend {s : State} {slot : Nat} (hs : s.Undisturbed) (hslot : slot < s.params.nTx)
    (hready : s.ready .tx = true) (hlen : s.ports.arg1.toNat ≤ 16383) :
    exec (.txdSend slot) s = .next (s.txSubmitted slot) := exec_txdSend_quiet hs hslot hready hlen

@[simp] theorem State.txSubmitted_mem (s : State) (slot : Nat) : (s.txSubmitted slot).mem = s.flush.mem := rfl
@[simp] theorem State.txSubmitted_wb (s : State) (slot : Nat) : (s.txSubmitted slot).wb = [] := rfl
@[simp] theorem State.txSubmitted_handover (s : State) (slot : Nat) : (s.txSubmitted slot).handover = none := rfl
@[simp] theorem State.txSubmitted_reply (s : State) (slot : Nat) : (s.txSubmitted slot).reply = some .ok := rfl

/-- The descriptor words of the submitted state are those of its three stores. -/
theorem State.txSubmitted_word (s : State) (slot : Nat) (d : Dir) (i k : Nat) :
    (s.txSubmitted slot).word d i k =
      (((s.flush.setWord .tx slot s.params.txLayout.buf1ap.word s.ports.arg0).setWord .tx slot
        s.params.txLayout.b1l.word (s.sizedWord slot s.ports.arg1)).setWord .tx slot (s.params.ownWord .tx)
        (s.params.txSendWord (s.sizedOwnWord slot s.ports.arg1) ||| s.params.handoverMask .tx)).word d i k := by
  cases d <;> rfl

/-- The submitted slot keeps its busy flag, which only the ring operations move (R44, R181). -/
theorem State.txSubmitted_txMetaAt {s : State} {slot : Nat} (hs : s.Sized) (hslot : slot < s.params.nTx) :
    (s.txSubmitted slot).txMetaAt slot = ⟨s.ports.pid, none, s.busy slot⟩ := by
  have hinside : slot < s.flush.txMeta.length := by rwa [State.flush_txMeta, hs.txMeta]
  exact (State.txMetaAt_setTxMeta _ slot slot _ (by simpa using hinside)).trans (if_pos rfl)

/-- A word stored to a slot that exists reads as stored, whatever stores of other words `u` has seen (R132). -/
theorem State.word_setWord_ofSized {s u : State} {d : Dir} {i k : Nat} (hs : s.Sized)
    (hlength : (u.words d).length = (s.words d).length) (hi : i < s.params.capacity d) (hk : k < 4) (v : Word) :
    (u.setWord d i k v).word d i k = v := by
  apply State.word_setWord_same
  rw [hlength, s.words_length hs]
  omega

section
variable {s : State} {slot : Nat} (hp : s.params.wf = true) (hs : s.Sized) (hslot : slot < s.params.nTx)
include hp hs hslot

/-- The OWN word is stored last. -/
theorem State.txSubmitted_ownWord : (s.txSubmitted slot).word .tx slot (s.params.ownWord .tx) =
    s.params.txSendWord (s.sizedOwnWord slot s.ports.arg1) ||| s.params.handoverMask .tx := by
  rw [s.txSubmitted_word]
  exact State.word_setWord_ofSized hs (by simp) hslot (s.params.wf_own hp .tx).2.2 _

theorem State.txSubmitted_owned :
    s.params.ownedByHw .tx ((s.txSubmitted slot).word .tx slot (s.params.ownWord .tx)) = true := by
  rw [s.txSubmitted_ownWord hp hs hslot]
  exact s.params.ownedByHw_or_handoverMask hp .tx _

/-- The store of the OWN word leaves the length word, unless they are one word. -/
theorem State.txSubmitted_b1l (hne : s.params.txLayout.b1l.word ≠ s.params.ownWord .tx) :
    (s.txSubmitted slot).word .tx slot s.params.txLayout.b1l.word = s.sizedWord slot s.ports.arg1 := by
  obtain ⟨_, hlen, _, _⟩ := s.params.wf_txRead hp
  have hown := (s.params.wf_own hp .tx).2.2
  rw [s.txSubmitted_word, State.word_setWord_ne _ _ _ _ _ _ _ _ hown hlen (by simp [hne])]
  exact State.word_setWord_ofSized hs (by simp) hslot hlen _

/-- The pointer has a word of its own (R92). -/
theorem State.txSubmitted_buf1ap :
    (s.txSubmitted slot).word .tx slot s.params.txLayout.buf1ap.word = s.ports.arg0 := by
  obtain ⟨hbuf, hlen, hneOwn, hneLen⟩ := s.params.wf_txRead hp
  have hown := (s.params.wf_own hp .tx).2.2
  rw [s.txSubmitted_word, State.word_setWord_ne _ _ _ _ _ _ _ _ hown hbuf (by simp [hneOwn]),
    State.word_setWord_ne _ _ _ _ _ _ _ _ hlen hbuf (by simp [hneLen.symm])]
  exact State.word_setWord_ofSized hs (by simp) hslot hbuf _

end

/-- Submitting a slot stores to no other word (R181). -/
theorem State.txSubmitted_word_ne {s : State} {slot : Nat} (hp : s.params.wf = true) {d : Dir} {i k : Nat} (hk : k < 4)
    (hne : ¬ (d = .tx ∧ i = slot ∧
      (k = s.params.ownWord .tx ∨ k = s.params.txLayout.buf1ap.word ∨ k = s.params.txLayout.b1l.word))) :
    (s.txSubmitted slot).word d i k = s.flush.word d i k := by
  obtain ⟨hbuf, hlen, _, _⟩ := s.params.wf_txRead hp
  have hown := (s.params.wf_own hp .tx).2.2
  rw [s.txSubmitted_word, State.word_setWord_ne _ _ _ _ _ _ _ _ hown hk fun e => hne ⟨e.1, e.2.1, .inl e.2.2⟩,
    State.word_setWord_ne _ _ _ _ _ _ _ _ hlen hk fun e => hne ⟨e.1, e.2.1, .inr (.inr e.2.2)⟩,
    State.word_setWord_ne _ _ _ _ _ _ _ _ hbuf hk fun e => hne ⟨e.1, e.2.1, .inr (.inl e.2.2)⟩]

/-- Settles O25: the words of the submitted state, and its registers. -/
theorem txdSendSubmitsTheSlot : Obligations.TxdSendSubmitsTheSlot := by
  unfold Obligations.TxdSendSubmitsTheSlot
  intro s slot hs hslot hready hlen
  have hp := hs.instanceWf
  exact ⟨s.txSubmitted slot, exec_txdSend hs hslot hready hlen, s.txSubmitted_reply slot, s.txSubmitted_wb slot,
    s.txSubmitted_handover slot, State.txSubmitted_buf1ap hp hs.sized hslot, State.txSubmitted_b1l hp hs.sized hslot,
    State.txSubmitted_ownWord hp hs.sized hslot, State.txSubmitted_owned hp hs.sized hslot,
    fun _ _ _ => State.txSubmitted_word_ne hp, s.txSubmitted_mem slot, State.txSubmitted_txMetaAt hs.sized hslot⟩

end Sys2Proof.Machine
end

section
/-! SUPPORT. The tests of a transmit length, which stand last before the operations that send (spec/43_tx_descriptor.md
rule R181, spec/44_rings.md rule R211, spec/60_exceptions.md rule R280). -/

namespace Sys2Proof.Machine

/-- Tests that hold let the ones after them decide (R280). -/
theorem firstRefusal_append {checks later : List Check} (h : firstRefusal checks = none) :
    firstRefusal (checks ++ later) = firstRefusal later := by
  induction checks with
  | nil => rfl
  | cons c cs ih =>
    obtain ⟨holds, r⟩ := c
    cases holds with
    | false => cases h
    | true => exact ih h

/-- An operation whose last test alone fails is refused with what that test says, and changes nothing else (R275,
R280). -/
theorem State.command_of_lastCheck {s : State} {checks : List Check} {r : Reply} {run : State → Run Reply}
    (hchecks : firstRefusal checks = none) : s.command (checks ++ [(false, r)]) run = .next (s.answer r) := by
  rw [State.command, firstRefusal_append hchecks]
  rfl

theorem State.fieldCheck_of_lt {s : State} (h : 16383 < s.ports.arg1.toNat) :
    s.fieldCheck = (false, .contract .lengthExceedsField) := by
  rw [State.fieldCheck, decide_eq_false (Nat.not_le.mpr h)]

theorem State.capacityCheck_of_lt {s : State} (h : s.params.txBufSize < s.ports.arg0.toNat) :
    s.capacityCheck = (false, .contract .lengthExceedsCapacity) := by
  rw [State.capacityCheck, decide_eq_false (Nat.not_le.mpr h)]

/-- Settles O26: in each of the three operations the tests before the length hold. -/
theorem oversizedLengthIsRefused : Obligations.OversizedLengthIsRefused := by
  unfold Obligations.OversizedLengthIsRefused
  intro s slot hrunning
  have hlive := State.firstRefusal_liveCheck hrunning
  refine ⟨fun hslot hready hlong => ?_, fun hready hlong => ?_, fun hbound hlong => ?_⟩
  · rw [exec, execTxdSend, State.fieldCheck_of_lt hlong]
    exact State.command_of_lastCheck (State.firstRefusal_slotChecks hrunning hslot hready)
  · rw [exec, execTxringSend, State.capacityCheck_of_lt hlong]
    refine State.command_of_lastCheck (checks := [s.liveCheck, s.readyCheck .tx]) ((firstRefusal_append hlive).trans ?_)
    simp [firstRefusal, State.readyCheck, State.ready, hready]
  · rw [exec, execEngSend, State.capacityCheck_of_lt hlong]
    refine State.command_of_lastCheck (checks := [s.liveCheck, s.boundCheck]) ((firstRefusal_append hlive).trans ?_)
    simp [firstRefusal, State.boundCheck, hbound]

end Sys2Proof.Machine
end

section
/-! SUPPORT. TXD.TAKE_COMPLETED (spec/43_tx_descriptor.md rules R182 to R184): past the tests it answers what its nested
function gives; undisturbed, that has the closed form of Laws/Descriptors.lean. -/

namespace Sys2Proof.Machine

theorem exec_txdTakeCompleted {s : State} {slot : Nat} (hchecks : firstRefusal (s.slotChecks .tx slot) = none) :
    exec (.txdTakeCompleted slot) s =
      .next ((takeCompleted slot s.ports.pid s).2.answer (completedReply (takeCompleted slot s.ports.pid s).1)) := by
  rw [exec, execTxdTakeCompleted, State.command_of_checks hchecks, conclude]

/-- Settles O27: the three branches of the closed form. -/
theorem takeCompletedAnswers : Obligations.TakeCompletedAnswers := by
  unfold Obligations.TakeCompletedAnswers
  intro s slot hs hslot hready
  rw [exec_txdTakeCompleted (State.firstRefusal_slotChecks hs.running hslot hready),
    takeCompleted_quiet s hs.quiet slot (hs.sized.txMeta ▸ hslot)]
  refine ⟨fun howned => ?_, fun howned herror => ?_, fun howned herror => ?_⟩
  · rw [if_pos howned]
    rfl
  · rw [if_neg (Bool.eq_false_iff.mp howned), if_pos herror]
    rfl
  · rw [if_neg (Bool.eq_false_iff.mp howned), if_neg (Bool.eq_false_iff.mp herror)]
    rfl

end Sys2Proof.Machine
end

section
/-! SUPPORT. The construction of the two rings (spec/44_rings.md rules R200, R210): past the tests, the loops of
Laws/Rings.lean. -/

namespace Sys2Proof

/-- The OWN word of an armed slot hands it to the hardware (R145, R200). -/
theorem Params.ownedByHw_encRead {p : Params} (hp : p.wf = true) (buf : Word) :
    p.ownedByHw .rx ((p.rxLayout.encRead buf 1 1 0 1).at (p.ownWord .rx)) = true := by
  rw [p.encRead_at hp buf _ (p.wf_own hp .rx).2.2, if_pos rfl]
  exact p.ownedByHw_or_handoverMask hp .rx _

/-- A word of zeros is software-owned (R210). -/
theorem Params.ownedByHw_zero (p : Params) (d : Dir) : p.ownedByHw d 0 = false := by
  simp [Params.ownedByHw, Field.isSet, Field.get]

namespace Machine

/-- A block that runs and is not bound yet refuses no construction of a ring (R277, R280). -/
theorem State.firstRefusal_newChecks {s : State} (hrunning : s.halted = false) (hunbound : s.bound = false) :
    firstRefusal [s.liveCheck, s.unboundCheck] = none := by
  simp [State.liveCheck, State.unboundCheck, firstRefusal, hrunning, hunbound]

theorem exec_rxringNew {s : State} (hrunning : s.halted = false) (hunbound : s.bound = false) :
    exec .rxringNew s = conclude ((rxringNew s).andThen fun _ t => .done .ok t) := by
  rw [exec, execRxringNew, State.command_of_checks (State.firstRefusal_newChecks hrunning hunbound)]

theorem exec_txringNew {s : State} (hrunning : s.halted = false) (hunbound : s.bound = false) :
    exec .txringNew s = .next ((txringNew s).answer .ok) := by
  rw [exec, execTxringNew, State.command_of_checks (State.firstRefusal_newChecks hrunning hunbound), conclude]

/-- Settles O28: the closed form of the loop, whose slots hold the words of the read format. -/
theorem rxringNewArmsEverySlot : Obligations.RxringNewArmsEverySlot := by
  unfold Obligations.RxringNewArmsEverySlot
  intro s hs hunbound
  have hp := hs.instanceWf
  obtain ⟨_, _, _, hrun, rfl, -, -, hwords, hmeta⟩ := rxringNew_quiet s hs.quiet hp hs.sized
  have howned (i : Nat) (hi : i < s.params.nRx) := (congrArg (s.params.ownedByHw .rx)
    (hwords i _ hi (s.params.wf_own hp .rx).2.2)).trans (Params.ownedByHw_encRead hp _)
  rw [exec_rxringNew hs.running hunbound, hrun]
  exact ⟨_, rfl, rfl, rfl, hwords, fun i hi => ⟨howned i hi, hmeta i hi⟩, rfl, rfl, rfl, rfl, rfl, rfl, rfl, rfl, rfl,
    by constructor <;> rfl⟩

/-- Settles O29: the closed form of the loop, whose slots hold zeros. -/
theorem txringNewClearsEverySlot : Obligations.TxringNewClearsEverySlot := by
  unfold Obligations.TxringNewClearsEverySlot
  intro s hs hunbound
  obtain ⟨ws, ms, hrun, -, -, hwords, hmeta⟩ := txringNew_quiet s hs.quiet hs.sized
  have howned (j : Nat) (hj : j < s.params.nTx) := (congrArg (s.params.ownedByHw .tx)
    (hwords j _ hj (s.params.wf_own hs.instanceWf .tx).2.2)).trans (s.params.ownedByHw_zero .tx)
  refine ⟨_, exec_txringNew hs.running hunbound, rfl, ?_⟩
  rw [hrun]
  exact ⟨rfl, hwords, fun j hj => ⟨howned j hj, hmeta j hj⟩, rfl, rfl, rfl, rfl, rfl, rfl, rfl, rfl,
    by constructor <;> rfl⟩

end Machine

end Sys2Proof
end

section
/-! SUPPORT. TXRING.RECLAIM and ENG.TX_RECLAIM (spec/44_rings.md rule R213, spec/45_engine.md rule R237): past the
tests, TXD.TAKE_COMPLETED at the reclaim cursor, undisturbed in the closed form of Laws/Descriptors.lean. -/

namespace Sys2Proof.Machine

/-- The two reclaims differ in their tests alone (R237). -/
theorem exec_reclaim {s : State} {op : Instr} (hrunning : s.halted = false)
    (hop : op = .txringReclaim ∧ s.readyTx = true ∨ op = .engTxReclaim ∧ s.bound = true) :
    exec op s =
      .next ((ringReclaim s.ports.pid s).2.answer (completedReply (ringReclaim s.ports.pid s).1)) := by
  obtain ⟨rfl, hready⟩ | ⟨rfl, hbound⟩ := hop
  · rw [exec, execTxringReclaim, State.command_of_checks, conclude]
    simp [State.liveCheck, State.readyCheck, State.ready, firstRefusal, hrunning, hready]
  · rw [exec, execEngTxReclaim, State.command_of_checks, conclude]
    simp [State.liveCheck, State.boundCheck, firstRefusal, hrunning, hbound]

/-- The busy flag set in metadata just stored (R44). -/
theorem State.setBusy_setTxMeta {s : State} {j : Nat} (hj : j < s.txMeta.length) (m : TxMeta) (b : Bool) :
    (s.setTxMeta j m).setBusy j b = s.setTxMeta j { m with busy := b } := by
  rw [State.setBusy, s.txMetaAt_setTxMeta j j m hj, if_pos rfl]
  simp only [State.setTxMeta, List.set_set]

/-- A slot that is not busy has nothing to reclaim (R213). -/
theorem ringReclaim_of_not_busy {s : State} (hbusy : s.busy s.txReclaim = false) (q : Option PacketId) :
    ringReclaim q s = (.error .wouldBlock, s) := by
  simp [ringReclaim, hbusy]

section
variable {s : State} {q : Option PacketId} (hbusy : s.busy s.txReclaim = true)
include hbusy

/-- A busy slot that the hardware still owns keeps its place (R213). -/
theorem ringReclaim_of_blocked (htake : takeCompleted s.txReclaim q s = (.error .wouldBlock, s)) :
    ringReclaim q s = (.error .wouldBlock, s) := by
  simp [ringReclaim, hbusy, htake]

/-- A busy slot that the hardware has released is freed, whatever became of its frame (R213). -/
theorem ringReclaim_of_completed {r : Except TxError (Option Timestamp)} {m : TxMeta}
    (hj : s.txReclaim < s.txMeta.length) (htake : takeCompleted s.txReclaim q s = (r, s.setTxMeta s.txReclaim m))
    (hr : r ≠ .error .wouldBlock) :
    ringReclaim q s = (r, { s.setTxMeta s.txReclaim { m with busy := false } with
      txReclaim := nextSlot s.params.nTx s.txReclaim }) := by
  simp only [ringReclaim, hbusy, htake, State.setBusy_setTxMeta hj, Bool.not_true, Bool.false_eq_true, if_false]

end

/-- Settles O36: the branches of TXD.TAKE_COMPLETED at the reclaim cursor. -/
theorem reclaimAnswersAndFreesTheSlot : Obligations.ReclaimAnswersAndFreesTheSlot := by
  unfold Obligations.ReclaimAnswersAndFreesTheSlot
  intro s op hs hcursors hop
  have hslot : s.txReclaim < s.txMeta.length := hs.sized.txMeta ▸ hcursors.txReclaim
  have htake := takeCompleted_quiet s hs.quiet s.txReclaim hslot s.ports.pid
  rw [exec_reclaim hs.running hop]
  refine ⟨fun hblocked => ?_, fun hbusy howned herror => ?_, fun hbusy howned herror => ?_⟩
  · have hrun : ringReclaim s.ports.pid s = (.error .wouldBlock, s) := by
      cases hbusy : s.busy s.txReclaim with
      | false => exact ringReclaim_of_not_busy hbusy _
      | true =>
        rw [if_pos (hblocked.resolve_left (by simp [hbusy]))] at htake
        exact ringReclaim_of_blocked hbusy htake
    rw [hrun]
    rfl
  · rw [if_neg (Bool.eq_false_iff.mp howned), if_pos herror] at htake
    rw [ringReclaim_of_completed hbusy hslot htake nofun]
    rfl
  · rw [if_neg (Bool.eq_false_iff.mp howned), if_neg (Bool.eq_false_iff.mp herror)] at htake
    rw [ringReclaim_of_completed hbusy hslot htake nofun]
    rfl

end Sys2Proof.Machine
end

section
/-! SUPPORT. Operations run inside another one: what they take from the operand ports is given to them, and no result
port is written (spec/30_encoding.md rule R112). The states RXD.SETUP and TXD.SEND end in serve there too. -/

namespace Sys2Proof.Machine

/-- The state with other operands on the ports (R112). -/
def State.onPorts (s : State) (c : Ports) : State := { s with ports := c }

/-- The state an operation that ran inside another one leaves: the operand ports and the result port are still those of
the outer one, begun in `s`. -/
def State.nestedIn (t s : State) : State := { t with ports := s.ports, reply := s.reply }

/-- The ports are no part of shared memory. -/
@[simp] theorem State.word_nestedIn (t s : State) (d : Dir) (i k : Nat) :
    (t.nestedIn s).word d i k = t.word d i k := by
  cases d <;> rfl

@[simp] theorem State.byteAt_nestedIn (t s : State) (a : Nat) : (t.nestedIn s).byteAt a = t.byteAt a := by
  rw [State.byteAt, State.byteAt, show (t.nestedIn s).params = t.params from rfl]
  split
  · next d _ _ _ => cases d <;> rfl
  · rfl

@[simp] theorem State.flush_onPorts (s : State) (c : Ports) : (s.onPorts c).flush = s.flush.onPorts c :=
  AwayFromMemory.flush (f := fun t => t.onPorts c) ⟨fun _ => rfl, fun _ _ _ _ _ => rfl⟩ s

theorem State.Sized.onPorts {s : State} (hs : s.Sized) (c : Ports) : (s.onPorts c).Sized := { hs with }

theorem SameControl.refl (s : State) : SameControl s s := by constructor <;> rfl

theorem SameControl.trans {s t u : State} (h : SameControl s t) (g : SameControl t u) : SameControl s u where
  params := g.params.trans h.params
  intEnable := g.intEnable.trans h.intEnable
  ri := g.ri.trans h.ri
  ti := g.ti.trans h.ti
  halted := g.halted.trans h.halted
  readyRx := g.readyRx.trans h.readyRx
  readyTx := g.readyTx.trans h.readyTx
  bound := g.bound.trans h.bound
  dmaPosRx := g.dmaPosRx.trans h.dmaPosRx
  dmaPosTx := g.dmaPosTx.trans h.dmaPosTx
  inbox := g.inbox.trans h.inbox
  ports := g.ports.trans h.ports
  schedule := g.schedule.trans h.schedule
  sent := g.sent.trans h.sent

/-- The block still runs after a change that leaves its registers alone. -/
theorem State.Undisturbed.of_frame {rx tx : Bool} {s t : State} (hs : s.Undisturbed) (hframe : Frame rx tx s t)
    (hcontrol : SameControl s t) : t.Undisturbed :=
  ⟨hframe.params ▸ hs.instanceWf, hframe.sized hs.sized, hcontrol.halted.trans hs.running,
    hcontrol.schedule.trans hs.quiet⟩

/-- What an operation leaves alone on other operands it leaves alone nested. -/
theorem SameControl.nestedIn {s t : State} {c : Ports} (h : SameControl (s.onPorts c) t) :
    SameControl s (t.nestedIn s) := { h with ports := rfl }

end Sys2Proof.Machine
end

section
/-! SUPPORT. Receive slots armed again with their own buffers (spec/44_rings.md rules R203, R205, R209): the state one
nested RXD.SETUP leaves, and what any number of them comes to. -/

namespace Sys2Proof.Machine

/-- The slot armed with its own buffer, inside another operation (R205). -/
def State.rearmed (s : State) (slot : Nat) : State :=
  ((s.onPorts { s.ports with arg0 := s.params.rxBuf slot }).rxArmed slot).nestedIn s

theorem rxSetup_ownBuffer {s : State} (hs : s.Undisturbed) {slot : Nat} (hslot : slot < s.params.nRx) :
    rxSetup slot (s.params.rxBuf slot) s = .done () (s.rearmed slot) := by
  have hports : s.flush.ports = s.ports := s.flush_ports
  have hreply : s.flush.reply = s.reply := s.flush_reply
  rw [rxSetup_quiet s hs.quiet hs.instanceWf hs.sized slot hslot, State.rearmed, State.rxArmed, State.flush_onPorts,
    State.nestedIn, ← hports, ← hreply]
  rfl

/-- Arming a slot again changes metadata of the receive ring alone, and no register (R161). -/
theorem State.rearmed_frame {s : State} (hs : s.Undisturbed) {slot : Nat} (hslot : slot < s.params.nRx) :
    Frame true false s (s.rearmed slot) := by
  have h := Frame.rxSetup false slot (s.params.rxBuf slot) s
  rwa [rxSetup_ownBuffer hs hslot] at h

theorem State.rxArmed_control (s : State) (slot : Nat) : SameControl s (s.rxArmed slot) :=
  ((((SameRegisters.flush s).setWord ..).setWord ..).setRxMeta ..).handedOver.control

theorem State.rearmed_control (s : State) (slot : Nat) : SameControl s (s.rearmed slot) :=
  (State.rxArmed_control _ slot).nestedIn

/-- The slots of a set stand in `t` as RXD.SETUP leaves them in `s`, each with its own buffer; every other word, and
buffer memory, is as the barrier leaves it, every other slot keeps its metadata, and no register has moved (R161, R203,
R205). -/
structure Rearmed (slots : Nat → Prop) (s t : State) : Prop where
  wb : t.wb = []
  handover : t.handover = none
  mem : t.mem = s.flush.mem
  buf1ap : ∀ i, slots i → t.word .rx i s.params.rxLayout.buf1ap.word = s.params.rxBuf i
  ownWord : ∀ i, slots i → t.word .rx i (s.params.ownWord .rx) =
    s.params.rxSetupWord (s.swOwnWord .rx i) ||| s.params.handoverMask .rx
  otherWord : ∀ d i k, k < 4 →
    ¬ (d = .rx ∧ slots i ∧ (k = s.params.ownWord .rx ∨ k = s.params.rxLayout.buf1ap.word)) →
    t.word d i k = s.flush.word d i k
  cleared : ∀ i, slots i → t.rxMetaAt i = ⟨none, none⟩
  kept : ∀ i, ¬ slots i → t.rxMetaAt i = s.rxMetaAt i
  frame : Frame true false s t
  control : SameControl s t

/-- Armed again, a slot is hardware-owned (R145). -/
theorem Rearmed.owned {slots : Nat → Prop} {s t : State} (h : Rearmed slots s t) (hp : s.params.wf = true) (i : Nat)
    (hi : slots i) : s.params.ownedByHw .rx (t.word .rx i (s.params.ownWord .rx)) = true := by
  rw [h.ownWord i hi]
  exact s.params.ownedByHw_or_handoverMask hp .rx _

theorem State.rearmed_rearmed {s : State} (hs : s.Undisturbed) {slot : Nat} (hslot : slot < s.params.nRx) :
    Rearmed (· = slot) s (s.rearmed slot) := by
  have hp := hs.instanceWf
  let c : Ports := { s.ports with arg0 := s.params.rxBuf slot }
  have hsc : (s.onPorts c).Sized := hs.sized.onPorts c
  have hmeta (i : Nat) : (s.rearmed slot).rxMetaAt i = if i = slot then ⟨none, none⟩ else s.rxMetaAt i := by
    have hset : (s.rearmed slot).rxMeta = (s.onPorts c).flush.rxMeta.set slot ⟨none, none⟩ := rfl
    rw [State.rxMetaAt, hset, State.flush_rxMeta]
    exact s.rxMetaAt_setRxMeta slot i _ (hs.sized.rxMeta ▸ hslot)
  refine ⟨rfl, rfl, ?_, ?_, ?_, fun d i k hk hne => ?_, ?_, fun i hi => ?_, State.rearmed_frame hs hslot,
    s.rearmed_control slot⟩
  · have hmem := congrArg State.mem (s.flush_onPorts c)
    exact hmem
  · rintro i rfl
    rw [State.rearmed, State.word_nestedIn]
    exact State.rxArmed_buf1ap (s := s.onPorts c) hp hsc hslot
  · rintro i rfl
    rw [State.rearmed, State.word_nestedIn]
    exact State.rxArmed_ownWord (s := s.onPorts c) hp hsc hslot
  · have hword := State.rxArmed_word_ne (s := s.onPorts c) hp hk hne
    rw [State.flush_onPorts] at hword
    rw [State.rearmed, State.word_nestedIn, hword]
    cases d <;> rfl
  · rintro i rfl
    rw [hmeta, if_pos rfl]
  · rw [hmeta, if_neg hi]

/-- One more slot: where the write buffer could be made by SW, the first barrier leaves in MEM what SW saw (R66). -/
theorem Rearmed.trans {slots : Nat → Prop} {s r t : State} {h : Nat} (hr : Rearmed slots s r)
    (ht : Rearmed (· = h) r t) (hs : s.Undisturbed) (hsound : s.WbSound) (hh : h < s.params.nRx)
    (hnew : ¬ slots h) : Rearmed (fun i => slots i ∨ i = h) s t := by
  have hp := hs.instanceWf
  have hparams : r.params = s.params := hr.frame.params
  have hflush : r.flush = r := r.flush_of_empty hr.wb
  obtain ⟨hbuf, hne⟩ := s.params.wf_rxRead hp
  have hown := (s.params.wf_own hp .rx).2.2
  have hview : r.swOwnWord .rx h = s.swOwnWord .rx h := by
    rw [State.swOwnWord, State.swOwnWord, hparams, r.swWord_of_empty hr.wb,
      hr.otherWord .rx h _ hown fun e => hnew e.2.1, s.flush_word hsound hs.sized .rx h _ hh hown]
  have hother (i k : Nat) (hk : k < 4) (hi : slots i) : t.word .rx i k = r.word .rx i k := by
    have hih : i ≠ h := fun e => hnew (e ▸ hi)
    rw [ht.otherWord .rx i k hk fun e => hih e.2.1, hflush]
  have htbuf := ht.buf1ap h rfl
  have htown := ht.ownWord h rfl
  rw [hparams] at htbuf htown
  rw [hview] at htown
  refine ⟨ht.wb, ht.handover, ?_, fun i hi => ?_, fun i hi => ?_, fun d i k hk hi => ?_, fun i hi => ?_,
    fun i hi => ?_, hr.frame.trans ht.frame, ?_⟩
  · rw [ht.mem, hflush, hr.mem]
  · obtain hi | rfl := hi
    · rw [hother i _ hbuf hi, hr.buf1ap i hi]
    · exact htbuf
  · obtain hi | rfl := hi
    · rw [hother i _ hown hi, hr.ownWord i hi]
    · exact htown
  · rw [ht.otherWord d i k hk, hflush, hr.otherWord d i k hk]
    · exact fun e => hi ⟨e.1, .inl e.2.1, e.2.2⟩
    · rw [hparams]
      exact fun e => hi ⟨e.1, .inr e.2.1, e.2.2⟩
  · by_cases hih : i = h
    · exact ht.cleared i hih
    · rw [ht.kept i hih, hr.cleared i (hi.resolve_right hih)]
  · rw [ht.kept i fun e => hi (.inr e), hr.kept i fun e => hi (.inl e)]
  · exact hr.control.trans ht.control

end Sys2Proof.Machine
end

section
/-! SUPPORT. RXRING.RECV_NEXT and ENG.RECV_NEXT (spec/44_rings.md rules R203 to R209, spec/45_engine.md rule R232): past
the tests, the four ends of the nested operation, undisturbed. -/

namespace Sys2Proof

/-- In a ring of two slots or more the cursor moves off its slot (R8, R30). -/
theorem nextSlot_ne {n c : Nat} (hn : 2 ≤ n) (hc : c < n) : nextSlot n c ≠ c := by
  rw [nextSlot_eq n c hc]
  split <;> omega

theorem Params.wf_nRx (p : Params) (h : p.wf = true) : 2 ≤ p.nRx := by
  simp only [Params.wf_tests, Bool.and_eq_true, decide_eq_true_eq] at h
  tauto

namespace Machine

/-- The two receive calls differ in their tests alone (R232). -/
theorem exec_recvNext {s : State} {op : Instr} (hrunning : s.halted = false)
    (hop : op = .rxringRecvNext ∧ s.readyRx = true ∨ op = .engRecvNext ∧ s.bound = true) :
    exec op s = conclude ((recvNext s.ports.pid s).andThen fun r t => .done (frameReply r) t) := by
  obtain ⟨rfl, hready⟩ | ⟨rfl, hbound⟩ := hop
  · rw [exec, execRxringRecvNext, State.command_of_checks]
    simp [State.liveCheck, State.readyCheck, State.ready, firstRefusal, hrunning, hready]
  · rw [exec, execEngRecvNext, State.command_of_checks]
    simp [State.liveCheck, State.boundCheck, firstRefusal, hrunning, hbound]

/-! ### The held slot -/

/-- The held slot, if any, armed again; the register that names it still stands (R203, R205). -/
def State.heldRearmed (s : State) : State :=
  match s.rxHeld with
  | none => s
  | some h => s.rearmed h

theorem State.heldRearmed_of_none {s : State} (h : s.rxHeld = none) : s.heldRearmed = s := by
  rw [State.heldRearmed, h]

theorem State.heldRearmed_of_some {s : State} {slot : Nat} (h : s.rxHeld = some slot) :
    s.heldRearmed = s.rearmed slot := by
  rw [State.heldRearmed, h]

section
variable {s : State} (hheld : s.HeldBehindCursor)
include hheld

theorem State.HeldBehindCursor.lt {h : Nat} (hh : s.rxHeld = some h) : h < s.params.nRx := (hheld h hh).1

/-- The slot behind the cursor is not the one at the cursor (R31). -/
theorem State.HeldBehindCursor.ne (hp : s.params.wf = true) {h : Nat} (hh : s.rxHeld = some h) : h ≠ s.rxNext := by
  obtain ⟨hlt, hnext⟩ := hheld h hh
  rw [hnext]
  exact (nextSlot_ne (s.params.wf_nRx hp) hlt).symm

theorem State.HeldBehindCursor.of_frame {rx tx : Bool} {t : State} (hframe : Frame rx tx s t) :
    t.HeldBehindCursor := by
  rw [State.HeldBehindCursor, hframe.rxHeld, hframe.params, hframe.rxNext]
  exact hheld

variable (hs : s.Undisturbed)
include hs

theorem State.heldRearmed_frame : Frame true false s s.heldRearmed ∧ SameControl s s.heldRearmed := by
  cases hh : s.rxHeld with
  | none =>
    rw [State.heldRearmed_of_none hh]
    exact ⟨.refl true false s, .refl s⟩
  | some h =>
    rw [State.heldRearmed_of_some hh]
    exact ⟨State.rearmed_frame hs (hheld.lt hh), s.rearmed_control h⟩

/-- The held slot stands armed; no other has changed its metadata. -/
theorem State.heldRearmed_rearmed {h : Nat} (hh : s.rxHeld = some h) : Rearmed (· = h) s s.heldRearmed := by
  rw [State.heldRearmed_of_some hh]
  exact State.rearmed_rearmed hs (hheld.lt hh)

theorem State.heldRearmed_rxMetaAt {i : Nat} (hi : s.rxHeld ≠ some i) : s.heldRearmed.rxMetaAt i = s.rxMetaAt i := by
  cases hh : s.rxHeld with
  | none => rw [State.heldRearmed_of_none hh]
  | some h => exact (State.heldRearmed_rearmed hheld hs hh).kept i fun e => hi (e ▸ hh)

theorem rearmHeld_eq : rearmHeld s = .done () { s.heldRearmed with rxHeld := none } := by
  unfold rearmHeld State.heldRearmed
  cases hh : s.rxHeld with
  | none =>
    dsimp only
    rw [← hh]
  | some h =>
    dsimp only
    rw [rxSetup_ownBuffer hs (hheld.lt hh)]
    rfl

end

/-! ### The slot at the cursor -/

/-- The slot is still the hardware's (R203, R208). -/
theorem recvNext_blocked {s : State} (hq : s.Quiet) (howned : s.swOwned .rx s.rxNext = true) (p : Option PacketId) :
    recvNext p s = .done (.error .wouldBlock) s := by
  simp only [recvNext, takeReceived_quiet s hq, howned, if_true, Run.andThen]

/-- The slot holds no whole frame: it is armed again, and then the held slot is (R203, R209). -/
theorem recvNext_truncated {s : State} (hs : s.Undisturbed) (hslot : s.rxNext < s.params.nRx)
    (hheld : s.HeldBehindCursor) (howned : s.swOwned .rx s.rxNext = false)
    (hpart : s.params.rxWholeFrame (s.swOwnWord .rx s.rxNext) = false) (p : Option PacketId) :
    recvNext p s = .done (.error .truncated)
      { (s.rearmed s.rxNext).heldRearmed with rxHeld := none, rxNext := nextSlot s.params.nRx s.rxNext } := by
  have hframe := State.rearmed_frame hs hslot
  have hrearm := rearmHeld_eq (hheld.of_frame hframe) (hs.of_frame hframe (s.rearmed_control _))
  simp only [recvNext, takeReceived_quiet s hs.quiet, howned, hpart, Bool.false_eq_true, if_false,
    rxSetup_ownBuffer hs hslot, Run.andThen, hrearm]

/-- The caller's identifier and the frame's timestamp stored at the cursor (R168, R203). -/
def State.tagged (s : State) (p : Option PacketId) : State := s.setRxMeta s.rxNext ⟨p, s.rxTimestamp s.rxNext⟩

/-- The frame at the cursor as SW reads it, and the state after its bytes have been read (R207). -/
def State.frameRead (s : State) : List Byte × State :=
  s.fetchBytes s.swByte (s.params.rxBuf s.rxNext) (s.params.rxLen (s.swOwnWord .rx s.rxNext))

/-- The state in which the frame has been tagged and read, and nothing else has changed. -/
def State.frameTaken (s : State) (p : Option PacketId) : State := (s.tagged p).frameRead.2

theorem State.Undisturbed.frameTaken {s : State} (hs : s.Undisturbed) (p : Option PacketId) :
    (s.frameTaken p).Undisturbed :=
  { hs with sized := { hs.sized with rxMeta := List.length_set.trans hs.sized.rxMeta } }

theorem State.frameTaken_control (s : State) (p : Option PacketId) : SameControl s (s.frameTaken p) := by
  constructor <;> rfl

/-- Shared memory has no part in it: the barrier comes to the same. -/
theorem State.flush_frameTaken (s : State) (p : Option PacketId) :
    (s.frameTaken p).flush.mem = s.flush.mem ∧
    ∀ d i k, (s.frameTaken p).flush.word d i k = s.flush.word d i k := by
  have haway : AwayFromMemory fun t => { t.setRxMeta s.rxNext ⟨p, s.rxTimestamp s.rxNext⟩ with
    draws := (s.frameTaken p).draws } := ⟨fun _ => rfl, fun _ _ _ _ _ => rfl⟩
  have hflush : (s.frameTaken p).flush = _ := haway.flush s
  rw [hflush]
  exact ⟨rfl, fun d i k => by cases d <;> rfl⟩

theorem State.frameTaken_rxMetaAt {s : State} (hs : s.Sized) (hslot : s.rxNext < s.params.nRx) (p : Option PacketId)
    (i : Nat) : (s.frameTaken p).rxMetaAt i = if i = s.rxNext then ⟨p, s.rxTimestamp s.rxNext⟩ else s.rxMetaAt i :=
  s.rxMetaAt_setRxMeta s.rxNext i _ (hs.rxMeta ▸ hslot)

section
variable {s : State} (hs : s.Undisturbed) (howned : s.swOwned .rx s.rxNext = false)
  (hwhole : s.params.rxWholeFrame (s.swOwnWord .rx s.rxNext) = true) (p : Option PacketId)
include hs howned

/-- Tagging a slot leaves the length SW reads in it. -/
theorem frameLength_tagged :
    frameLength s.rxNext (s.tagged p) = (s.params.rxLen (s.swOwnWord .rx s.rxNext), s.tagged p) := by
  rw [frameLength_quiet (s.tagged p) hs.quiet]
  exact congrArg (·, s.tagged p) (if_neg (Bool.eq_false_iff.mp howned))

include hwhole

/-- A whole frame that its buffer cannot hold (R206). -/
theorem recvNext_overlong (hlong : s.params.rxBufSize < s.params.rxLen (s.swOwnWord .rx s.rxNext)) :
    recvNext p s =
      .fatal (.lengthExceedsBuffer s.rxNext (s.params.rxLen (s.swOwnWord .rx s.rxNext))) (s.tagged p) := by
  have hlength := frameLength_tagged hs howned p
  simp only [State.tagged] at hlength
  simp only [recvNext, takeReceived_quiet s hs.quiet, howned, hwhole, Bool.false_eq_true, if_false, if_true,
    Run.andThen, hlength, State.setRxMeta_params, hlong, State.tagged]

/-- A whole frame that fits: it is read, and only then is the held slot armed again (R203, R207). -/
theorem recvNext_whole (hfits : s.params.rxLen (s.swOwnWord .rx s.rxNext) ≤ s.params.rxBufSize)
    (hheld : s.HeldBehindCursor) :
    recvNext p s = .done (.ok ⟨s.rxNext, s.params.rxLen (s.swOwnWord .rx s.rxNext), s.frameRead.1⟩)
      { (s.frameTaken p).heldRearmed with
        rxHeld := some s.rxNext, rxNext := nextSlot s.params.nRx s.rxNext } := by
  have hlength := frameLength_tagged hs howned p
  have hread : memRead (s.params.rxBuf s.rxNext) (s.params.rxLen (s.swOwnWord .rx s.rxNext)) (s.tagged p) =
    (s.tagged p).frameRead := memRead_quiet (s.tagged p) hs.quiet _ _
  have hrearm := rearmHeld_eq (s := s.frameTaken p) hheld (hs.frameTaken p)
  have hfits' := Nat.not_lt.mpr hfits
  simp only [State.frameTaken, State.tagged] at hlength hread hrearm
  simp only [recvNext, takeReceived_quiet s hs.quiet, howned, hwhole, Bool.false_eq_true, if_false, if_true,
    Run.andThen, hlength, State.setRxMeta_params, hfits', hread, hrearm, State.frameTaken, State.tagged]
  rfl

end

/-! ### The statements -/

/-- Settles O30: the answer is no part of what the call reads. -/
theorem recvNextIsIdempotentWhileBlocked : Obligations.RecvNextIsIdempotentWhileBlocked := by
  unfold Obligations.RecvNextIsIdempotentWhileBlocked
  intro s hs howned
  have hcall {u : State} {op : Instr} (hrunning : u.halted = false) (hq : u.Quiet)
      (howned : u.swOwned .rx u.rxNext = true)
      (hop : op = .rxringRecvNext ∧ u.readyRx = true ∨ op = .engRecvNext ∧ u.bound = true) :
      exec op u = .next (u.answer (.rxErr .wouldBlock)) := by
    rw [exec_recvNext hrunning hop, recvNext_blocked hq howned]
    rfl
  have htwice {op : Instr} (hop : op = .rxringRecvNext ∧ s.readyRx = true ∨ op = .engRecvNext ∧ s.bound = true) :=
    And.intro (hcall hs.running hs.quiet howned hop)
      (hcall (u := s.answer (.rxErr .wouldBlock)) hs.running hs.quiet howned hop)
  exact ⟨fun hready => htwice (.inl ⟨rfl, hready⟩), fun hbound => htwice (.inr ⟨rfl, hbound⟩)⟩

/-- Settles O33: the slot has been tagged when its length is read. -/
theorem overlongFrameHalts : Obligations.OverlongFrameHalts := by
  unfold Obligations.OverlongFrameHalts
  intro s op hs hop howned hwhole hlong
  rw [exec_recvNext hs.running hop, recvNext_overlong hs howned hwhole _ hlong]
  rfl

/-- Settles O32: the slot at the cursor and the held slot, one after the other. -/
theorem recvNextTruncatedRearms : Obligations.RecvNextTruncatedRearms := by
  unfold Obligations.RecvNextTruncatedRearms
  intro s op hs hcursors hheld hsound hop howned hpart
  have hp := hs.instanceWf
  have hslot := hcursors.rxNext
  have hfirst := State.rearmed_rearmed hs hslot
  have hrearmed : Rearmed (fun i => i = s.rxNext ∨ s.rxHeld = some i) s (s.rearmed s.rxNext).heldRearmed := by
    cases hh : s.rxHeld with
    | none =>
      rw [State.heldRearmed_of_none (hfirst.frame.rxHeld.trans hh)]
      simpa using hfirst
    | some h =>
      have hsecond := State.heldRearmed_rearmed (hheld.of_frame hfirst.frame)
        (hs.of_frame hfirst.frame hfirst.control) (hfirst.frame.rxHeld.trans hh)
      simpa [eq_comm] using hfirst.trans hsecond hs hsound (hheld.lt hh) (hheld.ne hp hh)
  have hexec := exec_recvNext hs.running hop
  rw [recvNext_truncated hs hslot hheld howned hpart] at hexec
  refine ⟨_, hexec, rfl, hrearmed.wb, hrearmed.handover, rfl, rfl, hrearmed.mem,
    fun i hi => ⟨hrearmed.buf1ap i hi, hrearmed.ownWord i hi, hrearmed.owned hp i hi, hrearmed.cleared i hi⟩,
    fun d i k hk hne => ?_, fun i hi hne => hrearmed.kept i (not_or.mpr ⟨hi, hne⟩), hrearmed.frame.txNext,
    hrearmed.frame.txReclaim, hrearmed.frame.txMeta rfl, { hrearmed.control with }⟩
  have hword := hrearmed.otherWord d i k hk hne
  cases d <;> exact hword

/-- Settles O31: the held slot is armed again in the state in which the slot at the cursor has been tagged and read. -/
theorem recvNextDeliversTheFrame : Obligations.RecvNextDeliversTheFrame := by
  unfold Obligations.RecvNextDeliversTheFrame
  intro s op hs hcursors hheld hop howned hwhole hfits i len
  let u := s.frameTaken s.ports.pid
  have hexec := exec_recvNext hs.running hop
  rw [recvNext_whole hs howned hwhole _ hfits hheld] at hexec
  have hu : u.Undisturbed := hs.frameTaken _
  have hheldu : u.HeldBehindCursor := hheld
  have hmeta : ∀ h, u.rxMetaAt h = _ := State.frameTaken_rxMetaAt hs.sized hcursors.rxNext s.ports.pid
  obtain ⟨hmem, hwords⟩ := s.flush_frameTaken s.ports.pid
  obtain ⟨hframe, hcontrol⟩ := State.heldRearmed_frame hheldu hu
  have htagged := (State.heldRearmed_rxMetaAt hheldu hu fun hh => hheldu.ne hu.instanceWf hh rfl).trans
    ((hmeta i).trans (if_pos rfl))
  refine ⟨_, ⟨i, len, s.frameRead.1⟩, hexec, rfl, rfl, rfl, s.length_fetchBytes .., fun k b => ?_, rfl, rfl, htagged,
    hframe.txNext, hframe.txReclaim, hframe.txMeta rfl, { (s.frameTaken_control s.ports.pid).trans hcontrol with },
    fun hh => ?_, fun h hh => ?_⟩
  · exact s.fetchBytes_get s.swByte _ _ k b
  · rw [State.heldRearmed_of_none (s := s.frameTaken _) hh]
    exact ⟨rfl, rfl, rfl, rfl, rfl, fun h hne => (hmeta h).trans (if_neg hne)⟩
  · have harmed := State.heldRearmed_rearmed hheldu hu hh
    refine ⟨harmed.wb, harmed.handover, harmed.mem.trans hmem, harmed.buf1ap h rfl,
      harmed.ownWord h rfl, fun d i' k hk hne => ?_, harmed.cleared h rfl, fun h' hne hne' => ?_⟩
    · have hword := (harmed.otherWord d i' k hk hne).trans (hwords d i' k)
      cases d <;> exact hword
    · exact (harmed.kept h' hne').trans ((hmeta h').trans (if_neg hne))

end Machine

end Sys2Proof
end

section
/-! SUPPORT. TXRING.SEND and ENG.SEND (spec/44_rings.md rules R211, R212, R214, spec/45_engine.md rule R231): past the
tests, the state after the buffer has been filled, then the nested TXD.SEND, undisturbed. -/

namespace Sys2Proof.Machine

/-- The two send calls differ in their tests alone (R231). -/
theorem exec_send {s : State} {op : Instr} (hrunning : s.halted = false)
    (hop : op = .txringSend ∧ s.readyTx = true ∨ op = .engSend ∧ s.bound = true)
    (hfits : s.ports.arg0.toNat ≤ s.params.txBufSize) :
    exec op s = conclude
      ((ringSend s.ports.arg0 s.ports.pid s.ports.fill s).andThen fun r t => .done (sendReply r) t) := by
  obtain ⟨rfl, hready⟩ | ⟨rfl, hbound⟩ := hop
  · rw [exec, execTxringSend, State.command_of_checks]
    simp [State.liveCheck, State.readyCheck, State.ready, State.capacityCheck, firstRefusal, hrunning, hready, hfits]
  · rw [exec, execEngSend, State.command_of_checks]
    simp [State.liveCheck, State.boundCheck, State.capacityCheck, firstRefusal, hrunning, hbound, hfits]

/-- The slot is still the hardware's (R211, R214). -/
theorem ringSend_blocked {s : State} (hq : s.Quiet) (howned : s.swOwned .tx s.txNext = true) (len : Word)
    (p : Option PacketId) (g : FillFn) : ringSend len p g s = .done (.error .wouldBlock) s := by
  simp only [State.swOwned, State.swOwnWord] at howned
  simp only [ringSend, isOwned_quiet s hq, howned, if_true]

/-- Settles O34: the one read takes the OWN word SW sees. -/
theorem sendWouldBlockChangesNothing : Obligations.SendWouldBlockChangesNothing := by
  unfold Obligations.SendWouldBlockChangesNothing
  intro s hs howned hfits
  have hcall {op : Instr} (hop : op = .txringSend ∧ s.readyTx = true ∨ op = .engSend ∧ s.bound = true) :
      exec op s = .next (s.answer (.txErr .wouldBlock)) := by
    rw [exec_send hs.running hop hfits, ringSend_blocked hs.quiet howned]
    rfl
  exact ⟨fun hready => hcall (.inl ⟨rfl, hready⟩), fun hbound => hcall (.inr ⟨rfl, hbound⟩)⟩

/-! ### The buffer filled -/

/-- The buffer's bytes as SW reads them, and the draw counter after the reads (R211). -/
def State.bufferRead (s : State) (len : Word) : List Byte × Nat :=
  readCells s.swByte (s.params.txBuf s.txNext) len.toNat 0 s.draws

/-- The state after SW has read the buffer at the submit cursor, a completion in that slot dropped (R211, R212). -/
def State.lapDropped (s : State) (len : Word) : State :=
  { s with txReclaim := s.reclaimPastLap, draws := (s.bufferRead len).2 }

/-- The state in which the bytes that `FILL` made of the buffer are pending there (R211). -/
def State.filled (s : State) (len : Word) (g : FillFn) : State :=
  { s.lapDropped len with
    wb := s.wb ++ byteEntries (s.params.txBuf s.txNext) 0 (g.eval (s.bufferRead len).1) }

theorem State.Undisturbed.filled {s : State} (hs : s.Undisturbed) (len : Word) (g : FillFn) :
    (s.filled len g).Undisturbed := { hs with sized := { hs.sized with } }

theorem State.filled_control (s : State) (len : Word) (g : FillFn) : SameControl s (s.filled len g) := by
  constructor <;> rfl

/-- Pending bytes are no words: SW reads the descriptors as before (R66). -/
theorem State.filled_swWord (s : State) (len : Word) (g : FillFn) (d : Dir) (i k : Nat) :
    (s.filled len g).swWord d i k = s.swWord d i k := by
  rw [State.swWord, State.filled, pendingWord_append_bytes _ _ _ _ _ (byteEntries_not_word _ _ 0)]
  cases d <;> rfl

theorem State.filled_sizedOwnWord (s : State) (len : Word) (g : FillFn) (slot : Nat) (l : Word) :
    (s.filled len g).sizedWord slot l = s.sizedWord slot l ∧
    (s.filled len g).sizedOwnWord slot l = s.sizedOwnWord slot l := by
  have hsized : (s.filled len g).sizedWord slot l = s.sizedWord slot l := by
    rw [State.sizedWord, State.filled_swWord]
    rfl
  refine ⟨hsized, ?_⟩
  rw [State.sizedOwnWord, hsized, State.swOwnWord, State.filled_swWord]
  rfl

/-- The barrier puts the bytes into the slot's own buffer, which lies outside the descriptor arrays (R141, R311). -/
theorem State.filled_flush {s : State} (hp : s.params.wf = true) (hslot : s.txNext < s.params.nTx) {len : Word}
    (hfits : len.toNat ≤ s.params.txBufSize) (g : FillFn) :
    (∀ k, k < len.toNat → (s.filled len g).flush.byteAt (addrAt (s.params.txBuf s.txNext) k) =
      (g.eval (s.bufferRead len).1)[k]?) ∧
    SameBytesOutside (fun a => ∃ k, k < len.toNat ∧ a = addrAt (s.params.txBuf s.txNext) k) s.flush
      (s.filled len g).flush := by
  have haway : AwayFromMemory fun t => { t with txReclaim := s.reclaimPastLap, draws := (s.bufferRead len).2 } :=
    ⟨fun _ => rfl, fun _ _ _ _ _ => rfl⟩
  have hlength : (g.eval (s.bufferRead len).1).length = len.toNat := by simp [State.bufferRead]
  have hflush : (s.filled len g).flush =
      (s.lapDropped len).flush.putBytes (s.params.txBuf s.txNext) 0 (g.eval (s.bufferRead len).1) :=
    ((s.lapDropped len).flush_append _).trans (State.applyAll_byteEntries _ _ 0 _)
  have hbefore (a : Nat) : (s.lapDropped len).flush.byteAt a = s.flush.byteAt a := by
    have hdropped := congrArg (State.byteAt · a) (haway.flush s)
    exact hdropped
  have hapart (k : Nat) (hk : k < len.toNat) :
      (s.lapDropped len).flush.params.descriptorByte (addrAt (s.params.txBuf s.txNext) (0 + k)) = none := by
    rw [State.flush_params, Nat.zero_add]
    exact s.params.txBuf_apart hp s.txNext k hslot (by omega)
  obtain ⟨m, hput, hwritten, hkept⟩ := State.putBytes_apart _ _ 0 _ (hlength ▸ hapart) (by omega)
  rw [hflush, hput]
  simp only [hlength, Nat.zero_add] at hwritten hkept
  exact ⟨hwritten, fun a ha => (hkept a fun k hk e => ha ⟨k, hk, e⟩).trans (hbefore a)⟩

/-! ### The slot submitted -/

/-- The bytes of the three words that TXD.SEND stores to (R132, R181). -/
def txStored (p : Params) (slot a : Nat) : Prop :=
  p.holdsWord .tx slot (p.ownWord .tx) a ∨ p.holdsWord .tx slot p.txLayout.b1l.word a ∨
    p.holdsWord .tx slot p.txLayout.buf1ap.word a

theorem State.txSubmitted_bytes (s : State) (slot : Nat) :
    SameBytesOutside (txStored s.params slot) s.flush (s.txSubmitted slot) := by
  have hflush : SameBytesOutside (txStored s.params slot) s.flush s.flush := fun _ _ => rfl
  have hbuf := hflush.setWord (d := .tx) (i := slot) (k := s.params.txLayout.buf1ap.word)
    (by simp +contextual [txStored]) s.ports.arg0
  have hlen := hbuf.setWord (d := .tx) (i := slot) (k := s.params.txLayout.b1l.word)
    (by simp +contextual [txStored]) (s.sizedWord slot s.ports.arg1)
  exact (hlen.setWord (d := .tx) (i := slot) (k := s.params.ownWord .tx) (by simp +contextual [txStored])
    (s.params.txSendWord (s.sizedOwnWord slot s.ports.arg1) ||| s.params.handoverMask .tx)).handedOver

theorem State.txSubmitted_control (s : State) (slot : Nat) : SameControl s (s.txSubmitted slot) :=
  (((((SameRegisters.flush s).setWord ..).setWord ..).setWord ..).setTxMeta ..).handedOver.control

/-- The operands that another operation gives to TXD.SEND (R181). -/
def State.sendPorts (s : State) (ptr len : Word) (p : Option PacketId) : Ports :=
  { s.ports with arg0 := ptr, arg1 := len, pid := p }

/-- The slot submitted inside another operation (R181). -/
def State.submitted (s : State) (slot : Nat) (ptr len : Word) (p : Option PacketId) : State :=
  ((s.onPorts (s.sendPorts ptr len p)).txSubmitted slot).nestedIn s

/-- The slot stands in `t` as TXD.SEND leaves it in `s`, with the operands `ptr`, `len` and `p`; every byte outside its
three words is as the barrier leaves it, every other slot keeps its metadata, and no register has moved (R181). -/
structure Submitted (slot : Nat) (ptr len : Word) (p : Option PacketId) (s t : State) : Prop where
  wb : t.wb = []
  handover : t.handover = none
  buf1ap : t.word .tx slot s.params.txLayout.buf1ap.word = ptr
  b1l : s.params.txLayout.b1l.word ≠ s.params.ownWord .tx →
    t.word .tx slot s.params.txLayout.b1l.word = s.sizedWord slot len
  ownWord : t.word .tx slot (s.params.ownWord .tx) =
    s.params.txSendWord (s.sizedOwnWord slot len) ||| s.params.handoverMask .tx
  bytes : SameBytesOutside (txStored s.params slot) s.flush t
  txMetaAt : ∀ i, t.txMetaAt i = if i = slot then ⟨p, none, s.busy slot⟩ else s.txMetaAt i
  frame : Frame false true s t
  control : SameControl s t

section
variable {s : State} (hs : s.Undisturbed) {slot : Nat} (hslot : slot < s.params.nTx) (ptr len : Word)
  (p : Option PacketId)
include hs hslot

theorem txSend_eq_submitted : txSend slot ptr len p s = .done () (s.submitted slot ptr len p) := by
  have hports : s.flush.ports = s.ports := s.flush_ports
  have hreply : s.flush.reply = s.reply := s.flush_reply
  rw [txSend_quiet s hs.quiet hs.instanceWf hs.sized slot hslot, State.submitted, State.txSubmitted,
    State.flush_onPorts, State.nestedIn, ← hports, ← hreply]
  rfl

theorem State.submitted_submitted : Submitted slot ptr len p s (s.submitted slot ptr len p) := by
  have hp := hs.instanceWf
  let u := s.onPorts (s.sendPorts ptr len p)
  have hsu : u.Sized := hs.sized.onPorts _
  have hword (k : Nat) : (s.submitted slot ptr len p).word .tx slot k = (u.txSubmitted slot).word .tx slot k :=
    State.word_nestedIn ..
  have hbytes (a : Nat) : (s.submitted slot ptr len p).byteAt a = (u.txSubmitted slot).byteAt a :=
    State.byteAt_nestedIn ..
  refine ⟨rfl, rfl, ?_, fun hne => ?_, ?_, fun a ha => ?_, fun i => ?_, ?_, ?_⟩
  · exact (hword _).trans (State.txSubmitted_buf1ap (s := u) hp hsu hslot)
  · exact (hword _).trans (State.txSubmitted_b1l (s := u) hp hsu hslot hne)
  · exact (hword _).trans (State.txSubmitted_ownWord (s := u) hp hsu hslot)
  · rw [hbytes, u.txSubmitted_bytes slot a ha, State.flush_onPorts]
    rfl
  · have hmeta : (s.submitted slot ptr len p).txMeta = u.flush.txMeta.set slot ⟨p, none, s.busy slot⟩ := rfl
    rw [State.txMetaAt, hmeta, State.flush_txMeta]
    exact s.txMetaAt_setTxMeta slot i _ (hs.sized.txMeta ▸ hslot)
  · have hframe := Frame.txSend false slot ptr len p s
    rwa [txSend_eq_submitted hs hslot] at hframe
  · exact (u.txSubmitted_control slot).nestedIn

end

/-- A slot that SW owns: its buffer is filled, then it is submitted (R211, R212). -/
theorem ringSend_sent {s : State} (hs : s.Undisturbed) (hslot : s.txNext < s.params.nTx)
    (howned : s.swOwned .tx s.txNext = false) (len : Word) (p : Option PacketId) (g : FillFn) :
    ∃ t, Submitted s.txNext (s.params.txBuf s.txNext) len p (s.filled len g) t ∧
      ringSend len p g s =
        .done (.ok ()) { t.setBusy s.txNext true with txNext := nextSlot s.params.nTx s.txNext } := by
  refine ⟨_, State.submitted_submitted (hs.filled len g) hslot (s.params.txBuf s.txNext) len p, ?_⟩
  have hread : memRead (s.params.txBuf s.txNext) len.toNat { s with txReclaim := s.reclaimPastLap } =
      ((s.bufferRead len).1, s.lapDropped len) :=
    memRead_quiet { s with txReclaim := s.reclaimPastLap } hs.quiet _ _
  have hwrite : memWrite (s.params.txBuf s.txNext) (g.eval (s.bufferRead len).1) (s.lapDropped len) = s.filled len g :=
    memWrite_quiet (s.lapDropped len) hs.quiet _ _
  have hsend := txSend_eq_submitted (hs.filled len g) hslot (s.params.txBuf s.txNext) len p
  simp only [State.swOwned, State.swOwnWord] at howned
  simp only [ringSend, isOwned_quiet s hs.quiet, howned, Bool.false_eq_true, if_false,
    dropLapped_of_frame (Frame.refl true true s), hread, hwrite, hsend, Run.andThen]

/-! ### The statement -/

theorem State.txMetaAt_setBusy {s : State} {j : Nat} (hj : j < s.txMeta.length) (b : Bool) (i : Nat) :
    (s.setBusy j b).txMetaAt i = if i = j then { s.txMetaAt j with busy := b } else s.txMetaAt i :=
  s.txMetaAt_setTxMeta j i _ hj

/-- Settles O35: the slot is submitted in the state in which its buffer has been filled. -/
theorem sendSubmitsTheFrame : Obligations.SendSubmitsTheFrame := by
  unfold Obligations.SendSubmitsTheFrame
  intro s op hs hcursors _ hop howned hfits j l len old sized start
  have hp := hs.instanceWf
  have hslot := hcursors.txNext
  obtain ⟨v, hv, hrun⟩ := ringSend_sent hs hslot howned s.ports.arg0 s.ports.pid s.ports.fill
  obtain ⟨hwritten, hkept⟩ := State.filled_flush hp hslot hfits s.ports.fill
  obtain ⟨hsized, hstart⟩ := s.filled_sizedOwnWord s.ports.arg0 s.ports.fill j s.ports.arg0
  have hexec := exec_send hs.running hop hfits
  rw [hrun] at hexec
  have hown := hv.ownWord
  rw [hstart] at hown
  have hmeta (i : Nat) : (v.setBusy j true).txMetaAt i = if i = j then ⟨s.ports.pid, none, true⟩ else s.txMetaAt i := by
    have hinside : j < v.txMeta.length := by
      rw [hv.frame.txMetaLength]
      exact hs.sized.txMeta ▸ hslot
    rw [State.txMetaAt_setBusy hinside, hv.txMetaAt, hv.txMetaAt, if_pos rfl]
    split <;> rfl
  have hbuffer (k : Nat) (hk : k < len) : ¬ txStored s.params j (addrAt (s.params.txBuf j) k) := by
    have hapart := s.params.txBuf_apart hp j k hslot (by omega)
    simp [txStored, Params.holdsWord, hapart]
  refine ⟨_, hexec, rfl, hv.wb, hv.handover, rfl, hv.frame.txReclaim, (hmeta j).trans (if_pos rfl),
    fun i hi => (hmeta i).trans (if_neg hi), fun k hk => (hv.bytes _ (hbuffer k hk)).trans (hwritten k hk), hv.buf1ap,
    fun hne => (hv.b1l hne).trans hsized, hown, ?_, fun a ha => ?_, hv.frame.rxNext, hv.frame.rxHeld,
    hv.frame.rxMeta rfl, { hv.control with }⟩
  · exact (congrArg (s.params.ownedByHw .tx) hown).trans (s.params.ownedByHw_or_handoverMask hp .tx _)
  · obtain ⟨hout, hstored⟩ := not_or.mp ha
    exact (hv.bytes a hstored).trans (hkept a hout)

end Sys2Proof.Machine
end

section
/-! SUPPORT. The engine operations of one step (spec/45_engine.md rules R230, R233 to R236): past the tests, whatever the
schedule, each sets the interrupt bits it names, and ENG.NEW the binding; ENG.TX_STATE counts, undisturbed in the closed
form of Laws/Rings.lean. -/

namespace Sys2Proof.Machine

/-! ### The tests of an engine operation -/

/-- A block that runs and is bound refuses none of the operations these two tests stand before (R277, R280). -/
theorem State.firstRefusal_boundChecks {s : State} (hrunning : s.halted = false) (hbound : s.bound = true) :
    firstRefusal [s.liveCheck, s.boundCheck] = none := by
  simp [State.liveCheck, State.boundCheck, firstRefusal, hrunning, hbound]

/-- A halted block refuses an operation whose first test is that it runs (R276, R280). -/
theorem State.command_of_halted {s : State} (hhalted : s.halted = true) (checks : List Check)
    (run : State → Run Reply) : s.command (s.liveCheck :: checks) run = .next (s.answer .refusedHalted) := by
  simp [State.command, State.liveCheck, firstRefusal, hhalted]

/-- A block that runs and is not bound refuses an engine operation (R277, R280). -/
theorem State.command_of_unbound {s : State} (hrunning : s.halted = false) (hunbound : s.bound = false)
    (checks : List Check) (run : State → Run Reply) :
    s.command (s.liveCheck :: s.boundCheck :: checks) run = .next (s.answer (.contract .notBound)) := by
  simp [State.command, State.liveCheck, State.boundCheck, firstRefusal, hrunning, hunbound]

/-! ### The binding -/

/-- ENG.NEW with both rings constructed and a configuration that INIT_OK accepts is the binding (R230). -/
theorem exec_engNew {s : State} (hrunning : s.halted = false) (hunbound : s.bound = false)
    (hrx : s.readyRx = true) (htx : s.readyTx = true) (hcfg : s.params.initOk.holds s.ports.cfg = true) :
    exec .engNew s = .next ((bindEngine s).answer .ok) := by
  rw [exec, execEngNew, State.command_of_checks, conclude]
  refine (firstRefusal_append (State.firstRefusal_newChecks hrunning hunbound)).trans ?_
  simp [State.bothReadyCheck, State.initCheck, firstRefusal, hrx, htx, hcfg]

/-- Settles O37: past the four tests, the binding. -/
theorem engNewBindsTheEngine : Obligations.EngNewBindsTheEngine := by
  unfold Obligations.EngNewBindsTheEngine
  intro s hrunning hunbound hrx htx hcfg
  exact exec_engNew hrunning hunbound hrx htx hcfg

/-! ### The operations on a bound block that runs -/

section
variable {s : State} (hrunning : s.halted = false) (hbound : s.bound = true)
include hrunning hbound

theorem exec_engEnableInterrupt : exec .engEnableInterrupt s = .next (State.answer { s with intEnable := true } .ok) := by
  rw [exec, execEngEnableInterrupt, State.command_of_checks (State.firstRefusal_boundChecks hrunning hbound), conclude]

theorem exec_engDisableInterrupt :
    exec .engDisableInterrupt s = .next (State.answer { s with intEnable := false } .ok) := by
  rw [exec, execEngDisableInterrupt, State.command_of_checks (State.firstRefusal_boundChecks hrunning hbound), conclude]

theorem exec_engInterruptAck :
    exec .engInterruptAck s = .next (State.answer { s with ri := false, ti := false } .ok) := by
  rw [exec, execEngInterruptAck, State.command_of_checks (State.firstRefusal_boundChecks hrunning hbound), conclude]

/-- The acknowledgement of the interrupt agent, where the line is high (R235). -/
theorem State.handlerAck_of_irq (hirq : s.irq = true) : s.handlerAck = { s with ri := false, ti := false } := by
  rw [State.handlerAck, hirq, hrunning, hbound]
  rfl

/-- ENG.TX_STATE, undisturbed, reads the OWN word SW sees of every transmit slot (R236). -/
theorem exec_engTxState (hq : s.Quiet) :
    exec .engTxState s = .next (s.answer (.txState
      ⟨s.txNext, s.txReclaim, s.outstanding, (List.range s.params.nTx).countP (fun j => s.swOwned .tx j)⟩)) := by
  rw [exec, execEngTxState, State.command_of_checks (State.firstRefusal_boundChecks hrunning hbound),
    countOwned_quiet _ 0 s hq, ← List.range_eq_range', conclude]

end

/-! ### The interrupt flags under the steps of the DMA agent -/

/-- A step on from a slot leaves the interrupt flags alone (R255). -/
theorem State.advanceDmaPos_flags (s : State) (d : Dir) :
    (s.advanceDmaPos d).ri = s.ri ∧ (s.advanceDmaPos d).ti = s.ti := by
  unfold State.advanceDmaPos
  split
  · cases d <;> exact ⟨rfl, rfl⟩
  · exact ⟨rfl, rfl⟩

/-- A transmit write-back that signals its completion sets `ti`, whatever the enable is (R254). -/
theorem State.txWriteback_ti {s : State} {j : Nat} (henabled : s.dmaEnabled .tx j = true) (v : Words4) :
    (s.txWriteback j v true).ti = true := by
  rw [State.txWriteback, if_pos henabled]
  exact (State.advanceDmaPos_flags _ .tx).2.trans (Bool.or_true _)

/-- A receive write-back of a descriptor that asks for an interrupt sets `ri`, whatever the enable is (R252). -/
theorem State.rxWriteback_ri {s : State} {i : Nat} {bytes : List Byte} {v : Words4}
    (henabled : s.dmaEnabled .rx i = true) (hlegal : s.rxDrawsLegal i bytes v = true)
    (hioc : s.params.rxLayout.ioc.isSet (s.ownWordOf .rx i) = true) : (s.rxWriteback i bytes v).ri = true := by
  rw [State.rxWriteback, if_pos (Bool.and_eq_true_iff.mpr ⟨henabled, hlegal⟩), hioc]
  exact (State.advanceDmaPos_flags _ .rx).1.trans (Bool.or_true _)

/-! ### The statements -/

/-- Settles O42: the count of the busy slots reads no word, the other is the closed form of the reads. -/
theorem txStateCountsTheRing : Obligations.TxStateCountsTheRing := by
  unfold Obligations.TxStateCountsTheRing
  intro s hs hbound
  exact exec_engTxState hs.running hbound hs.quiet

/-- Settles O39: with the enable set the line is the flags, and the enable set again is the same state. -/
theorem enableInterruptRaisesThePendingLine : Obligations.EnableInterruptRaisesThePendingLine := by
  unfold Obligations.EnableInterruptRaisesThePendingLine
  refine ⟨(decode_eq_ok_iff _ _).mpr (by decide), fun s => ⟨fun hrunning hbound => ?_, fun hrunning hunbound => ?_,
    fun hhalted => ?_⟩⟩
  · exact ⟨exec_engEnableInterrupt hrunning hbound, Bool.true_and _, rfl, rfl,
      exec_engEnableInterrupt (s := State.answer { s with intEnable := true } .ok) hrunning hbound⟩
  · rw [exec, execEngEnableInterrupt, State.command_of_unbound hrunning hunbound]
  · rw [exec, execEngEnableInterrupt, State.command_of_halted hhalted]

/-- Settles O40: with the enable clear the line is low, and no write-back of the DMA agent reads the enable. -/
theorem disableInterruptMasksTheLine : Obligations.DisableInterruptMasksTheLine := by
  unfold Obligations.DisableInterruptMasksTheLine
  intro s hrunning hbound
  exact ⟨exec_engDisableInterrupt hrunning hbound, Bool.false_and _, rfl, rfl,
    fun _ v henabled => State.txWriteback_ti henabled v,
    fun _ _ _ henabled hlegal hioc => State.rxWriteback_ri henabled hlegal hioc⟩

/-- Settles O41: the command and the agent's step clear the same two flags, and the line is low without them. -/
theorem interruptAckClearsBothFlags : Obligations.InterruptAckClearsBothFlags := by
  unfold Obligations.InterruptAckClearsBothFlags
  intro s hrunning hbound
  exact ⟨exec_engInterruptAck hrunning hbound, Bool.and_false _, State.handlerAck_of_irq hrunning hbound⟩

end Sys2Proof.Machine
end

section
/-! SUPPORT. The DMA agent (spec/46_dma_agent.md rules R250 to R255): what keeps it from a slot, and what a write-back
that is enabled leaves. On both rings the slot is released by the one update `State.completed`, after accesses to buffer
memory: the frame put there on receive, taken from there on transmit. -/

namespace Sys2Proof.Machine

/-! ### The slots the agent may not step on -/

/-- Each reason that keeps the agent from a slot, on either ring (R250, R251, R255). -/
theorem State.dmaEnabled_eq_false {s : State} {d : Dir} {slot : Nat}
    (h : s.bound = false ∨ s.params.ownedByHw d (s.ownWordOf d slot) = false ∨
      (s.params.handoverAtomic = true ∧ s.handover = some (d, slot)) ∨
      (s.params.dmaInOrder = true ∧ slot ≠ s.dmaPos d)) : s.dmaEnabled d slot = false := by
  unfold State.dmaEnabled
  obtain hunbound | hsoftware | ⟨hatomic, hwindow⟩ | ⟨horder, hpos⟩ := h
  · simp [hunbound]
  · simp [hsoftware]
  · simp [hatomic, hwindow]
  · simp [horder, hpos.symm]

/-- Settles O48: the agent is not enabled, and a write-back that is not enabled is no step. -/
theorem agentStepsOnlyOnItsSlots : Obligations.AgentStepsOnlyOnItsSlots := by
  unfold Obligations.AgentStepsOnlyOnItsSlots
  intro s slot bytes v t
  refine ⟨fun h => ?_, fun h => ?_⟩
  · have hoff : s.dmaEnabled .rx slot = false := State.dmaEnabled_eq_false h
    simp [State.envStep, State.rxWriteback, hoff]
  · have hoff : s.dmaEnabled .tx slot = false := State.dmaEnabled_eq_false h
    simp [State.envStep, State.txWriteback, hoff]

/-! ### The end of a write-back -/

/-- The interrupt flag of a ring, raised or left as it is (R252, R254). -/
def State.raiseFlag (s : State) (raise : Bool) : Dir → State
  | .rx => { s with ri := s.ri || raise }
  | .tx => { s with ti := s.ti || raise }

/-- How a write-back ends on either ring: the drawn words with OWN clear, the interrupt flag, the agent's position
(R252, R254, R255). -/
def State.completed (s : State) (d : Dir) (i : Nat) (v : Words4) (raise : Bool) : State :=
  ((s.writeBack d i v).raiseFlag raise d).advanceDmaPos d

/-- The agent's position moves on from a slot with DMA_IN_ORDER alone (R255). -/
theorem State.dmaPos_advanceDmaPos (s : State) (d : Dir) : (s.advanceDmaPos d).dmaPos d =
    if s.params.dmaInOrder then nextSlot (s.params.capacity d) (s.dmaPos d) else s.dmaPos d := by
  unfold State.advanceDmaPos
  split
  · cases d <;> rfl
  · rfl

/-- A step on from a slot leaves buffer memory and the events alone (R255). -/
theorem State.advanceDmaPos_memory (s : State) (d : Dir) :
    (s.advanceDmaPos d).mem = s.mem ∧ (s.advanceDmaPos d).sent = s.sent := by
  unfold State.advanceDmaPos
  split
  · cases d <;> exact ⟨rfl, rfl⟩
  · exact ⟨rfl, rfl⟩

/-- Slot `i` of ring `d` stands in `t` as the end of a write-back leaves it in `s`; every other word of the descriptors,
buffer memory, the write buffer and the events have stayed (R252, R254, R255). -/
structure Completed (d : Dir) (i : Nat) (v : Words4) (raise : Bool) (s t : State) : Prop where
  params : t.params = s.params
  drawn : ∀ k, k < 4 → k ≠ s.params.ownWord d → t.word d i k = v.at k
  ownWord : t.ownWordOf d i = s.params.releasedWord d v
  released : s.params.ownedByHw d (t.ownWordOf d i) = false
  others : ∀ d' i' k, k < 4 → ¬ (d' = d ∧ i' = i) → t.word d' i' k = s.word d' i' k
  mem : t.mem = s.mem
  wb : t.wb = s.wb
  sent : t.sent = s.sent
  ri : t.ri = (s.raiseFlag raise d).ri
  ti : t.ti = (s.raiseFlag raise d).ti
  dmaPos : t.dmaPos d =
    if s.params.dmaInOrder then nextSlot (s.params.capacity d) (s.dmaPos d) else s.dmaPos d

/-- The flag is raised the same before the words are written and after. -/
theorem State.raiseFlag_setWords (s : State) (raise : Bool) (d : Dir) (ws : List Word) :
    (s.setWords d ws).raiseFlag raise d = (s.raiseFlag raise d).setWords d ws := by
  cases d <;> rfl

theorem State.raiseFlag_rest (s : State) (raise : Bool) (d : Dir) :
    (s.raiseFlag raise d).params = s.params ∧ (s.raiseFlag raise d).mem = s.mem ∧
    (s.raiseFlag raise d).wb = s.wb ∧ (s.raiseFlag raise d).sent = s.sent ∧
    (s.raiseFlag raise d).dmaPos d = s.dmaPos d := by
  cases d <;> exact ⟨rfl, rfl, rfl, rfl, rfl⟩

@[simp] theorem State.dmaPos_setWords (s : State) (d d' : Dir) (ws : List Word) :
    (s.setWords d ws).dmaPos d' = s.dmaPos d' := by
  cases d <;> cases d' <;> rfl

/-- The words come from the write-back; the rest is the state with the flag raised, its words and the agent's position
replaced. -/
theorem State.completed_completed {s : State} {d : Dir} {i : Nat} (hp : s.params.wf = true) (hs : s.Sized)
    (hi : i < s.params.capacity d) (v : Words4) (raise : Bool) : Completed d i v raise s (s.completed d i v raise) := by
  obtain ⟨⟨ws, hws, -⟩, hdrawn, hown, hothers⟩ := s.writeBack_words d i v hp hs hi
  have hword (d' : Dir) (i' k : Nat) : (s.completed d i v raise).word d' i' k = (s.writeBack d i v).word d' i' k :=
    (State.word_advanceDmaPos _ d d' i' k).trans (by cases d <;> cases d' <;> rfl)
  let u := (s.raiseFlag raise d).setWords d ws
  have hu : s.completed d i v raise = u.advanceDmaPos d := by
    rw [State.completed, hws, State.raiseFlag_setWords]
  obtain ⟨hparams, hmem, hwb, hsent, hpos⟩ := s.raiseFlag_rest raise d
  obtain ⟨hmem', hsent'⟩ := u.advanceDmaPos_memory d
  obtain ⟨hri, hti⟩ := u.advanceDmaPos_flags d
  have hsame : (s.completed d i v raise).params = s.params := by
    rw [hu, (SharedStep.advanceDmaPos u d).soft.params, State.setWords_params, hparams]
  have hreleased : (s.completed d i v raise).ownWordOf d i = s.params.releasedWord d v := by
    rw [State.ownWordOf, hsame, hword, hown, Params.releasedWord]
  exact
    { params := hsame
      drawn := fun k hk hne => (hword d i k).trans (hdrawn k hk hne)
      ownWord := hreleased
      released := by
        rw [hreleased]
        exact (s.params.own d).isSet_andNot_mask (s.params.wf_own hp d).1 _
      others := fun d' i' k hk hne => (hword d' i' k).trans (hothers d' i' k hk hne)
      mem := by rw [hu, hmem', State.setWords_mem, hmem]
      wb := by rw [hu, (u.advanceDmaPos_rest d).2, State.setWords_wb, hwb]
      sent := by rw [hu, hsent', State.setWords_sent, hsent]
      ri := by rw [hu, hri, State.setWords_ri]
      ti := by rw [hu, hti, State.setWords_ti]
      dmaPos := by
        rw [hu, u.dmaPos_advanceDmaPos, State.setWords_params, State.dmaPos_setWords, hparams, hpos] }

/-- Outside the descriptor arrays an address holds a byte of buffer memory (R45). -/
theorem State.byteAt_of_apart {s : State} {a : Nat} (h : s.params.descriptorByte a = none) :
    s.byteAt a = s.mem.read a := by
  rw [State.byteAt, h]

theorem Completed.byteAt {d : Dir} {i : Nat} {v : Words4} {raise : Bool} {s t : State} (h : Completed d i v raise s t)
    {a : Nat} (ha : s.params.descriptorByte a = none) : t.byteAt a = s.byteAt a := by
  rw [State.byteAt_of_apart ha, State.byteAt_of_apart (by rwa [h.params]), h.mem]

/-! ### Receive -/

/-- The state in which the agent has put a frame into memory, at the address the descriptor holds (R252). -/
def State.frameReceived (s : State) (i : Nat) (bytes : List Byte) : State :=
  s.putBytes (s.word .rx i s.params.rxLayout.buf1ap.word) 0 bytes

theorem State.rxWriteback_of_enabled {s : State} {i : Nat} {bytes : List Byte} {v : Words4}
    (henabled : s.dmaEnabled .rx i = true) (hlegal : s.rxDrawsLegal i bytes v = true) :
    s.rxWriteback i bytes v =
      (s.frameReceived i bytes).completed .rx i v (s.params.rxLayout.ioc.isSet (s.ownWordOf .rx i)) := by
  rw [State.rxWriteback, if_pos (Bool.and_eq_true_iff.mpr ⟨henabled, hlegal⟩)]
  rfl

/-- Settles O49: the slot is completed in the state that holds the frame, and that state differs from the first in
buffer memory alone. -/
theorem rxWritebackEffect : Obligations.RxWritebackEffect := by
  unfold Obligations.RxWritebackEffect
  intro s i bytes v hp hs henabled hlegal a hapart t
  have hsize := s.params.wf_rxBufSize hp
  have hfits := State.length_le_of_rxDrawsLegal hlegal
  obtain ⟨m, hput, hinside, houtside⟩ :=
    State.putBytes_apart bytes a 0 s (by simpa only [Nat.zero_add] using hapart) (by omega)
  simp only [Nat.zero_add] at hinside houtside
  let u : State := { s with mem := m }
  let ioc := s.params.rxLayout.ioc.isSet (s.ownWordOf .rx i)
  have ht : t = u.completed .rx i v ioc :=
    (State.rxWriteback_of_enabled henabled hlegal).trans (congrArg (fun w => State.completed w .rx i v ioc) hput)
  have hdone : Completed .rx i v ioc u t :=
    ht ▸ State.completed_completed (s := u) hp { hs with } (State.dmaEnabled_slot henabled).1 v ioc
  exact ⟨fun k hk => (hdone.byteAt (hapart k hk)).trans (hinside k hk), hdone.drawn, hdone.ownWord, hdone.released,
    fun d i' k hk hne => (hdone.others d i' k hk hne).trans (by cases d <;> rfl),
    fun b hb hout => (hdone.byteAt hb).trans (houtside b hout),
    hdone.ri, hdone.ti, hdone.wb, hdone.sent, hdone.dmaPos⟩

/-! ### Transmit -/

/-- The state in which the agent has taken a frame from memory and sent it (R254). -/
def State.frameSent (s : State) (j : Nat) : State :=
  let l := s.params.txLayout
  let taken := s.fetchBytes s.byteAt (s.word .tx j l.buf1ap.word) (l.b1l.get (s.word .tx j l.b1l.word)).toNat
  { taken.2 with sent := s.sent ++ [⟨j, taken.1⟩] }

theorem State.txWriteback_of_enabled {s : State} {j : Nat} (henabled : s.dmaEnabled .tx j = true) (v : Words4)
    (raise : Bool) : s.txWriteback j v raise = (s.frameSent j).completed .tx j v raise := by
  rw [State.txWriteback, if_pos henabled]
  rfl

/-- Settles O50: the slot is completed in the state in which the frame has been sent. -/
theorem txWritebackEffect : Obligations.TxWritebackEffect := by
  unfold Obligations.TxWritebackEffect
  intro s j v raise hp hs henabled l a n t
  have ht : t = (s.frameSent j).completed .tx j v raise := State.txWriteback_of_enabled henabled v raise
  have hdone : Completed .tx j v raise (s.frameSent j) t :=
    ht ▸ State.completed_completed (s := s.frameSent j) hp { hs with } (State.dmaEnabled_slot henabled).1 v raise
  exact ⟨⟨(s.fetchBytes s.byteAt a n).1, hdone.sent, s.length_fetchBytes s.byteAt a n,
      fun k b hk hb => s.fetchBytes_get s.byteAt a n k b hk hb⟩,
    hdone.drawn, hdone.ownWord, hdone.released,
    fun d i k hk hne => (hdone.others d i k hk hne).trans (by cases d <;> rfl),
    hdone.mem, hdone.ti, hdone.ri, hdone.wb, hdone.dmaPos⟩

/-! ### A step without a command -/

/-- Settles O6: each case is one branch of the step. -/
theorem stepOtherwise : Obligations.StepOtherwise := by
  unfold Obligations.StepOtherwise
  intro s
  refine ⟨fun e rest hp hinbox => ?_, fun hp hinbox => ?_, fun hp => ?_⟩
  · simp only [step, hp, hinbox, if_true]
  · simp only [step, hp, hinbox, if_true]
  · simp [step, hp]

end Sys2Proof.Machine
end

section
/-! SUPPORT. Every operation is its tests, in the order of R280, and then its run (spec/60_exceptions.md): the two
tables, and what the tests alone decide (R276, R277, R279). -/

namespace Sys2Proof.Machine

/-! ### The two tables -/

/-- The tests that stand before an operation (R114, R181, R211, R230, R276, R277). -/
def State.tests (s : State) : Instr → List Check
  | .rawRead d slot _ | .rawModify d slot _ | .ownTransfer d slot => s.slotChecks d slot
  | .rxdIsOwned slot | .rxdSetup slot | .rxdTakeReceived slot | .rxdFrameLength slot | .rxdPacketId slot
  | .rxdTimestamp slot => s.slotChecks .rx slot
  | .txdIsOwned slot | .txdTakeCompleted slot => s.slotChecks .tx slot
  | .txdSend slot => s.slotChecks .tx slot ++ [s.fieldCheck]
  | .fenceWw | .barrierDsb | .fenceFull | .fenceRr => [s.liveCheck]
  | .rxringNew | .txringNew => [s.liveCheck, s.unboundCheck]
  | .rxringRecvNext => [s.liveCheck, s.readyCheck .rx]
  | .txringSend => [s.liveCheck, s.readyCheck .tx, s.capacityCheck]
  | .txringReclaim => [s.liveCheck, s.readyCheck .tx]
  | .engNew => [s.liveCheck, s.unboundCheck, s.bothReadyCheck, s.initCheck]
  | .engSend => [s.liveCheck, s.boundCheck, s.capacityCheck]
  | .engRecvNext | .engEnableInterrupt | .engDisableInterrupt | .engInterruptAck | .engTxState | .engTxReclaim =>
    [s.liveCheck, s.boundCheck]

/-- An operation past its tests (R110). -/
def perform : Instr → State → Run Reply
  | .rawRead d slot k, s => .done (.word (swRead d slot k s).1) (swRead d slot k s).2
  | .rawModify d slot k, s => .done .ok (swModify d slot k s.ports.fn.eval s)
  | .fenceWw, s => .done .ok (Machine.fenceWw s)
  | .barrierDsb, s => .done .ok (Machine.barrierDsb s)
  | .fenceFull, s => .done .ok (Machine.fenceFull s)
  | .fenceRr, s => .done .ok (Machine.fenceRr s)
  | .ownTransfer d slot, s => (Machine.ownTransfer d slot s).andThen fun _ t => .done .ok t
  | .rxdIsOwned slot, s => .done (.bool (isOwned .rx slot s).1) (isOwned .rx slot s).2
  | .rxdSetup slot, s => (rxSetup slot s.ports.arg0 s).andThen fun _ t => .done .ok t
  | .rxdTakeReceived slot, s =>
    (takeReceived slot s.ports.pid s.ports.arg0 s).andThen fun r t => .done (receivedReply r) t
  | .rxdFrameLength slot, s => .done (.length (frameLength slot s).1) (frameLength slot s).2
  | .rxdPacketId slot, s => .done (.packetId (s.rxMetaAt slot).pid) s
  | .rxdTimestamp slot, s => .done (.timestamp (s.rxMetaAt slot).ts) s
  | .txdIsOwned slot, s => .done (.bool (isOwned .tx slot s).1) (isOwned .tx slot s).2
  | .txdSend slot, s => (txSend slot s.ports.arg0 s.ports.arg1 s.ports.pid s).andThen fun _ t => .done .ok t
  | .txdTakeCompleted slot, s =>
    .done (completedReply (takeCompleted slot s.ports.pid s).1) (takeCompleted slot s.ports.pid s).2
  | .rxringNew, s => (Machine.rxringNew s).andThen fun _ t => .done .ok t
  | .txringNew, s => .done .ok (Machine.txringNew s)
  | .rxringRecvNext, s | .engRecvNext, s => (recvNext s.ports.pid s).andThen fun r t => .done (frameReply r) t
  | .txringSend, s | .engSend, s =>
    (ringSend s.ports.arg0 s.ports.pid s.ports.fill s).andThen fun r t => .done (sendReply r) t
  | .txringReclaim, s | .engTxReclaim, s =>
    .done (completedReply (ringReclaim s.ports.pid s).1) (ringReclaim s.ports.pid s).2
  | .engNew, s => .done .ok (bindEngine s)
  | .engEnableInterrupt, s => .done .ok { s with intEnable := true }
  | .engDisableInterrupt, s => .done .ok { s with intEnable := false }
  | .engInterruptAck, s => .done .ok { s with ri := false, ti := false }
  | .engTxState, s =>
    .done (.txState ⟨(countOwned s.params.nTx 0 s).2.txNext, (countOwned s.params.nTx 0 s).2.txReclaim,
      (countOwned s.params.nTx 0 s).2.outstanding, (countOwned s.params.nTx 0 s).1⟩) (countOwned s.params.nTx 0 s).2

theorem exec_eq_command (i : Instr) (s : State) : exec i s = s.command (s.tests i) (perform i) := by
  cases i <;> rfl

/-! ### What the tests decide -/

theorem exec_of_firstRefusal {i : Instr} {s : State} {r : Reply} (h : firstRefusal (s.tests i) = some r) :
    exec i s = .next (s.answer r) := by
  rw [exec_eq_command, State.command, h]

theorem exec_of_tests {i : Instr} {s : State} (h : firstRefusal (s.tests i) = none) :
    exec i s = conclude (perform i s) := by
  rw [exec_eq_command, State.command_of_checks h]

/-- The tests of an operation are that of the slot it names, if it names one, then that of `halted`, then the others
(R280). -/
theorem State.tests_eq (s : State) (i : Instr) :
    ∃ later, s.tests i = i.namedSlot.toList.map (fun n => s.slotCheck n.1 n.2) ++ s.liveCheck :: later := by
  cases i <;> exact ⟨_, rfl⟩

/-- A well-formed operation passes the test of its slot (R114). -/
theorem firstRefusal_namedSlot {i : Instr} {s : State} (h : i.wf s.params = true) :
    firstRefusal (i.namedSlot.toList.map (fun n => s.slotCheck n.1 n.2)) = none := by
  unfold Instr.wf at h
  cases hnamed : i.namedSlot with
  | none => rfl
  | some named =>
    rw [hnamed] at h
    simpa [firstRefusal, State.slotCheck] using h

theorem exec_of_halted {i : Instr} {s : State} (hhalted : s.halted = true) (hwf : i.wf s.params = true) :
    exec i s = .next (s.answer .refusedHalted) := by
  obtain ⟨later, htests⟩ := s.tests_eq i
  apply exec_of_firstRefusal
  rw [htests, firstRefusal_append (firstRefusal_namedSlot hwf)]
  simp [firstRefusal, State.liveCheck, hhalted]

/-! ### The statements -/

/-- Settles O44: each row of the table names the first test that fails; a fence has no test but that of `halted`. -/
theorem constructionOrderIsEnforced : Obligations.ConstructionOrderIsEnforced := by
  unfold Obligations.ConstructionOrderIsEnforced
  intro s hrunning
  have hlive : s.liveCheck = (true, .refusedHalted) := by rw [State.liveCheck, hrunning]; rfl
  have hinside {d : Dir} {slot : Nat} (hslot : slot < s.params.capacity d) :
      s.slotCheck d slot = (true, .contract .badCommand) := by rw [State.slotCheck, decide_eq_true hslot]
  have hmissing {d : Dir} (hready : s.ready d = false) :
      s.readyCheck d = (false, .contract .ringNotConstructed) := by rw [State.readyCheck, hready]
  refine ⟨fun hbound i hi => exec_of_firstRefusal ?_, fun hunbound hready => exec_of_firstRefusal ?_,
    fun d slot k hready hslot i hi => exec_of_firstRefusal ?_, fun slot hready hslot i hi => exec_of_firstRefusal ?_,
    fun slot hready hslot i hi => exec_of_firstRefusal ?_, fun hunbound i hi => exec_of_firstRefusal ?_,
    fun i hi => ?_⟩
  · fin_cases hi <;> simp [State.tests, firstRefusal, hlive, State.unboundCheck, hbound]
  · simp [State.tests, firstRefusal, hlive, State.unboundCheck, State.bothReadyCheck, hunbound, hready]
  · fin_cases hi <;> simp [State.tests, State.slotChecks, firstRefusal, hlive, hinside hslot, hmissing hready]
  · have hslot := hinside (d := .rx) hslot
    have hready := hmissing (d := .rx) hready
    fin_cases hi <;> simp [State.tests, State.slotChecks, firstRefusal, hlive, hslot, hready]
  · have hslot := hinside (d := .tx) hslot
    have hready := hmissing (d := .tx) hready
    fin_cases hi <;> simp [State.tests, State.slotChecks, firstRefusal, hlive, hslot, hready]
  · fin_cases hi <;> simp [State.tests, firstRefusal, hlive, State.boundCheck, hunbound]
  · have htests : firstRefusal (s.tests i) = none := by
      fin_cases hi <;> simp [State.tests, firstRefusal, hlive]
    rw [exec_of_tests htests]
    fin_cases hi <;> exact ⟨_, rfl, rfl⟩

/-- Settles O38: the test of the configuration stands last, and no refusal changes what the tests look at. -/
theorem initErrorExactlyOnRejection : Obligations.InitErrorExactlyOnRejection := by
  unfold Obligations.InitErrorExactlyOnRejection
  intro s hrunning hunbound hrx htx
  have hrejected (hcfg : s.params.initOk.holds s.ports.cfg = false) :
      exec .engNew s = .next (s.answer .initErr) := by
    apply exec_of_firstRefusal
    simp [State.tests, firstRefusal, State.liveCheck, State.unboundCheck, State.bothReadyCheck, State.initCheck,
      hrunning, hunbound, hrx, htx, hcfg]
  refine ⟨⟨?_, fun hcfg => ⟨_, hrejected hcfg, rfl⟩⟩, fun hcfg => ⟨hrejected hcfg, fun c hc => ?_⟩⟩
  · rintro ⟨t, hexec, hreply⟩
    by_contra hcfg
    rw [exec_engNew hrunning hunbound hrx htx (eq_true_of_ne_false hcfg)] at hexec
    cases hexec
    cases hreply
  · exact ⟨_, exec_engNew (s := { s.answer .initErr with ports := c }) hrunning hunbound hrx htx hc, rfl, rfl⟩

end Sys2Proof.Machine
end

section
/-! SUPPORT. How operations end, whatever the schedule (spec/60_exceptions.md rules R270 to R275): a test refuses, and
no state has changed, or the run answers and leaves `halted` as it is, or the run raises. -/

namespace Sys2Proof.Machine

/-! ### The classes of outcomes -/

/-- The classes of outcomes. -/
inductive Ending where
  /-- a result, or an error that says what the operation has done (R270, R272) -/
  | completed
  /-- WouldBlock (R273) -/
  | blocked
  /-- a broken contract, InitError or Refused (R275, R276, R279) -/
  | refused
  /-- Fatal (R274) -/
  | raised

def Reply.ending : Reply → Ending
  | .rxErr .wouldBlock | .txErr .wouldBlock => .blocked
  | .initErr | .contract _ | .refusedHalted => .refused
  | .fatal _ => .raised
  | _ => .completed

theorem Reply.ending_eq_refused_iff (r : Reply) :
    r.ending = .refused ↔ r = .refusedHalted ∨ r = .initErr ∨ ∃ k, r = .contract k := by
  unfold Reply.ending
  split <;> simp_all

theorem Reply.ending_eq_raised_iff (r : Reply) : r.ending = .raised ↔ ∃ f, r = .fatal f := by
  unfold Reply.ending
  split <;> simp_all

/-! ### The tests -/

/-- Whatever a test refuses with is a refusal (R275, R276, R279). -/
theorem State.tests_refuse (s : State) (i : Instr) : ∀ c ∈ s.tests i, c.2.ending = .refused := by
  cases i <;> simp [State.tests, State.slotChecks, State.slotCheck, State.liveCheck, State.readyCheck, State.boundCheck,
    State.unboundCheck, State.bothReadyCheck, State.initCheck, State.capacityCheck, State.fieldCheck, Reply.ending]

theorem firstRefusal_mem {checks : List Check} {r : Reply} (h : firstRefusal checks = some r) :
    ∃ c ∈ checks, c.2 = r := by
  induction checks with
  | nil => cases h
  | cons c cs ih =>
    obtain ⟨holds, r'⟩ := c
    cases holds with
    | false => exact ⟨_, .head _, Option.some.inj h⟩
    | true =>
      obtain ⟨c, hc, hr⟩ := ih h
      exact ⟨c, .tail _ hc, hr⟩

/-! ### The runs -/

/-- A run that raises, or one that answers: it leaves `halted` as it is, and where it would block and no other agent
steps, everything (R270, R273, R274). -/
def Run.Regular (s : State) : Run Reply → Prop
  | .done r t => t.halted = s.halted ∧ (r.ending = .completed ∨ r.ending = .blocked ∧ (s.Quiet → t = s))
  | .fatal _ _ => True

theorem Run.Regular.completed {s t : State} {r : Reply} (hr : r.ending = .completed) (ht : t.halted = s.halted) :
    Run.Regular s (.done r t) := ⟨ht, .inl hr⟩

/-- The end of a nested operation that cannot block. -/
theorem Run.Ends.regular {α : Type} {s : State} {r : Run α} (h : r.Ends (fun t => t.halted = s.halted)) :
    (r.andThen fun _ t => .done .ok t).Regular s := by
  cases r with
  | done v t => exact .completed rfl h
  | fatal f t => trivial

/-- The end of a nested operation that can block. -/
theorem Run.Ends.regular_reply {α : Type} {s : State} {r : Run α} {f : α → Reply}
    (h : r.Ends (fun t => t.halted = s.halted))
    (hf : ∀ v, (f v).ending = .completed ∨
      (f v).ending = .blocked ∧ (s.Quiet → ∀ t, r = .done v t → t = s)) :
    (r.andThen fun v t => .done (f v) t).Regular s := by
  cases r with
  | done v t => exact ⟨h, (hf v).imp_right fun ⟨hblocked, hstays⟩ => ⟨hblocked, fun hq => hstays hq t rfl⟩⟩
  | fatal f t => trivial

/-- The end of a reclaim on the transmit side, which cannot raise (R182, R213). -/
theorem Run.Regular.reclaimed {s : State} {r : Except TxError (Option Timestamp) × State}
    (h : r.2.halted = s.halted) (hstays : s.Quiet → r.1 = .error .wouldBlock → r.2 = s) :
    Run.Regular s (.done (completedReply r.1) r.2) := by
  refine ⟨h, ?_⟩
  rcases hr : r.1 with (_ | _) | _
  · exact .inr ⟨rfl, fun hq => hstays hq hr⟩
  · exact .inl rfl
  · exact .inl rfl

/-! ### A call that would block, undisturbed, has only read -/

theorem Run.andThen_eq_done {α β : Type} {r : Run α} {next : α → State → Run β} {v : β} {t : State}
    (h : r.andThen next = .done v t) : ∃ a u, r = .done a u ∧ next a u = .done v t := by
  cases r with
  | done a u => exact ⟨a, u, rfl, h⟩
  | fatal f u => cases h

theorem takeReceived_blocked_stays {s t : State} (hq : s.Quiet) {i : Nat} {p : Option PacketId} {fb : Word}
    (h : takeReceived i p fb s = .done (.error .wouldBlock) t) : t = s := by
  rw [takeReceived_quiet s hq] at h
  split at h
  · cases h
    rfl
  · split at h
    · cases h
    · obtain ⟨_, _, _, hend⟩ := Run.andThen_eq_done h
      cases hend

theorem recvNext_blocked_stays {s t : State} (hq : s.Quiet) {p : Option PacketId}
    (h : recvNext p s = .done (.error .wouldBlock) t) : t = s := by
  obtain ⟨r, u, htake, hend⟩ := Run.andThen_eq_done h
  rcases r with (_ | _) | _
  · cases hend
    exact takeReceived_blocked_stays hq htake
  · obtain ⟨_, _, _, hend⟩ := Run.andThen_eq_done hend
    cases hend
  · dsimp only at hend
    split at hend
    · cases hend
    · obtain ⟨_, _, _, hend⟩ := Run.andThen_eq_done hend
      cases hend

theorem ringSend_blocked_stays {s t : State} (hq : s.Quiet) {len : Word} {p : Option PacketId} {g : FillFn}
    (h : ringSend len p g s = .done (.error .wouldBlock) t) : t = s := by
  simp only [ringSend, isOwned_quiet s hq] at h
  split at h
  · cases h
    rfl
  · obtain ⟨_, _, _, hend⟩ := Run.andThen_eq_done h
    cases hend

theorem takeCompleted_blocked_stays {s : State} (hq : s.Quiet) {j : Nat} {q : Option PacketId}
    (h : (takeCompleted j q s).1 = .error .wouldBlock) : (takeCompleted j q s).2 = s := by
  simp only [takeCompleted, isOwned_quiet s hq] at h ⊢
  split at h
  · next howned => rw [if_pos howned]
  · split at h <;> cases h

theorem ringReclaim_blocked_stays {s : State} (hq : s.Quiet) {q : Option PacketId}
    (h : (ringReclaim q s).1 = .error .wouldBlock) : (ringReclaim q s).2 = s := by
  unfold ringReclaim at h ⊢
  dsimp only at h ⊢
  split at h
  · next hidle => rw [if_pos hidle]
  · next hbusy =>
    rw [if_neg hbusy]
    split at h
    · exact takeCompleted_blocked_stays hq h
    · next hother => exact absurd h hother

/-! ### Every operation -/

theorem Change.halted {i : Instr} {raised : Bool} {s t : State} (h : Change i s raised t) : t.halted = s.halted := by
  cases h with
  | framed hu => exact hu.halted
  | rxConstructed _ hu => exact hu.halted
  | received _ hu _ => exact hu.halted
  | txConstructed _ hu _ _ => exact hu.halted
  | lapped _ hu => exact hu.halted
  | sent _ hu => exact hu.halted
  | reclaimed _ _ hu => exact hu.halted
  | engineBound _ _ _ => rfl
  | interruptSwitched _ _ => rfl

theorem Run.Changes.halted {α : Type} {i : Instr} {s : State} {r : Run α} (h : r.Changes i s) :
    r.Ends (fun t => t.halted = s.halted) := by
  cases r with
  | done v t => exact Change.halted h
  | fatal f t => exact Change.halted h

theorem Run.Ends.halted {α : Type} {rx tx : Bool} {s : State} {r : Run α} (h : r.Ends (Frame rx tx s)) :
    r.Ends (fun t => t.halted = s.halted) := h.imp fun _ hu => hu.halted

theorem takeReceived_regular (i : Nat) (p : Option PacketId) (fb : Word) (s : State) :
    ((takeReceived i p fb s).andThen fun r t => .done (receivedReply r) t).Regular s := by
  refine (Frame.takeReceived true i p fb s).halted.regular_reply fun v => ?_
  rcases v with (_ | _) | _
  · exact .inr ⟨rfl, fun hq _ => takeReceived_blocked_stays hq⟩
  · exact .inl rfl
  · exact .inl rfl

theorem recvNext_regular (p : Option PacketId) (s : State) :
    ((recvNext p s).andThen fun r t => .done (frameReply r) t).Regular s := by
  refine (recvNext_changes (.inl rfl) p s).halted.regular_reply fun v => ?_
  rcases v with (_ | _) | _
  · exact .inr ⟨rfl, fun hq _ => recvNext_blocked_stays hq⟩
  · exact .inl rfl
  · exact .inl rfl

theorem ringSend_regular (len : Word) (p : Option PacketId) (g : FillFn) (s : State) :
    ((ringSend len p g s).andThen fun r t => .done (sendReply r) t).Regular s := by
  refine (ringSend_changes (.inl rfl) len p g s).halted.regular_reply fun v => ?_
  rcases v with (_ | _) | _
  · exact .inr ⟨rfl, fun hq _ => ringSend_blocked_stays hq⟩
  · exact .inl rfl
  · exact .inl rfl

theorem ringReclaim_regular (q : Option PacketId) (s : State) :
    Run.Regular s (.done (completedReply (ringReclaim q s).1) (ringReclaim q s).2) :=
  .reclaimed (ringReclaim_change (.inl rfl) q s).halted fun hq => ringReclaim_blocked_stays hq

theorem perform_regular (i : Instr) (s : State) : (perform i s).Regular s := by
  cases i with
  | rawRead d slot k => exact .completed rfl (Frame.swRead true true d slot k s).halted
  | rawModify d slot k => exact .completed rfl (Frame.swModify true true d slot k _ s).halted
  | fenceWw => exact .completed rfl (Frame.fenceWw true true s).halted
  | barrierDsb => exact .completed rfl (Frame.barrierDsb true true s).halted
  | fenceFull => exact .completed rfl (Frame.fenceFull true true s).halted
  | fenceRr => exact .completed rfl (Frame.fenceRr true true s).halted
  | ownTransfer d slot => exact (Frame.ownTransfer true true d slot s).halted.regular
  | rxdIsOwned slot => exact .completed rfl (Frame.isOwned true true .rx slot s).halted
  | rxdSetup slot => exact (Frame.rxSetup true slot _ s).halted.regular
  | rxdTakeReceived slot => exact takeReceived_regular slot _ _ s
  | rxdFrameLength slot => exact .completed rfl (Frame.frameLength true true slot s).halted
  | rxdPacketId slot => exact .completed rfl rfl
  | rxdTimestamp slot => exact .completed rfl rfl
  | txdIsOwned slot => exact .completed rfl (Frame.isOwned true true .tx slot s).halted
  | txdSend slot => exact (Frame.txSend true slot _ _ _ s).halted.regular
  | txdTakeCompleted slot =>
    exact .reclaimed (Frame.takeCompleted true slot _ s).halted fun hq => takeCompleted_blocked_stays hq
  | rxringNew => exact (rxringNew_changes s).halted.regular
  | rxringRecvNext | engRecvNext => exact recvNext_regular _ s
  | txringNew => exact .completed rfl (txringNew_change s).halted
  | txringSend | engSend => exact ringSend_regular _ _ _ s
  | txringReclaim | engTxReclaim => exact ringReclaim_regular _ s
  | engNew | engEnableInterrupt | engDisableInterrupt | engInterruptAck => exact .completed rfl rfl
  | engTxState => exact .completed rfl (Frame.countOwned true true _ 0 s).halted

/-- How an operation ends: refused by a test, answered by its run, or raised in it. -/
theorem exec_cases (i : Instr) (s : State) :
    (∃ r, exec i s = .next (s.answer r) ∧ r.ending = .refused) ∨
    (∃ r u, exec i s = .next (State.answer u r) ∧ u.halted = s.halted ∧
      (r.ending = .completed ∨ r.ending = .blocked ∧ (s.Quiet → u = s))) ∨
    (∃ f u, exec i s = .next (State.raiseFatal u f)) := by
  cases hc : firstRefusal (s.tests i) with
  | some r =>
    obtain ⟨c, hmem, rfl⟩ := firstRefusal_mem hc
    exact .inl ⟨c.2, exec_of_firstRefusal hc, s.tests_refuse i c hmem⟩
  | none =>
    have hregular := perform_regular i s
    have hexec := exec_of_tests hc
    cases hr : perform i s with
    | done r u =>
      rw [hr] at hregular hexec
      exact .inr (.inl ⟨r, u, hexec, hregular⟩)
    | fatal f u =>
      rw [hr] at hexec
      exact .inr (.inr ⟨f, u, hexec⟩)

/-! ### The statements -/

/-- Settles O45: a run answers with no refusal, so a test has refused the operation. -/
theorem refusedOperationChangesNothing : Obligations.RefusedOperationChangesNothing := by
  unfold Obligations.RefusedOperationChangesNothing
  intro s t i h hreply
  obtain ⟨r, hexec, _⟩ | ⟨r, u, hexec, _, hend⟩ | ⟨f, u, hexec⟩ := exec_cases i s
  · cases h.symm.trans hexec
    exact ⟨r, rfl⟩
  · cases h.symm.trans hexec
    have hrefused := r.ending_eq_refused_iff.mpr (by simpa using hreply)
    simp [hrefused] at hend
  · cases h.symm.trans hexec
    simp at hreply

/-- Settles O47: every operation ends, and a run that raises alone sets `halted`. -/
theorem everyOperationEndsWithAnOutcome : Obligations.EveryOperationEndsWithAnOutcome := by
  unfold Obligations.EveryOperationEndsWithAnOutcome
  intro s i
  have hanswer {u : State} {r : Reply} (hu : u.halted = s.halted) (hr : r.ending ≠ .raised) :
      (u.answer r).halted = true ↔ s.halted = true ∨ ∃ f, r = .fatal f := by
    rw [← r.ending_eq_raised_iff]
    simp [hu, hr]
  obtain ⟨r, hexec, hrefused⟩ | ⟨r, u, hexec, hu, hend⟩ | ⟨f, u, hexec⟩ := exec_cases i s
  · exact ⟨_, r, hexec, rfl, hanswer rfl (by simp [hrefused])⟩
  · exact ⟨_, r, hexec, rfl, hanswer hu (by rcases hend with hend | ⟨hend, _⟩ <;> simp [hend])⟩
  · exact ⟨_, .fatal f, hexec, rfl, by simp⟩

end Sys2Proof.Machine
end

section
/-! SUPPORT. The part of the state that the drain and the DMA agent do not look at, the interrupt flags, `halted`, the
result port and the schedule (spec/20_memory.md rule R69, spec/46_dma_agent.md rules R250 to R256); then what is left of
a halted block: their steps, and nothing else (spec/60_exceptions.md rules R275, R276). -/

namespace Sys2Proof.Machine

/-! ### What the drain and the DMA agent do not look at -/

/-- Values for that part of the state. -/
structure Aside where
  ri : Bool
  ti : Bool
  halted : Bool
  reply : Option Reply
  schedule : List (List EnvStep)

/-- The interrupt flags raised, or not (R252, R254). -/
def Aside.raise (a : Aside) (ri ti : Bool) : Aside := { a with ri := a.ri || ri, ti := a.ti || ti }

@[simp] theorem Aside.raise_false (a : Aside) : a.raise false false = a := by
  simp [Aside.raise]

/-- The state with other values there. -/
def State.aside (s : State) (a : Aside) : State :=
  { s with ri := a.ri, ti := a.ti, halted := a.halted, reply := a.reply, schedule := a.schedule }

theorem AwayFromMemory.aside (a : Aside) : AwayFromMemory fun s => s.aside a := ⟨fun _ => rfl, fun _ _ _ _ _ => rfl⟩

theorem AwayFromMemory.setWord {f : State → State} (hf : AwayFromMemory f) (s : State) (d : Dir) (i k : Nat)
    (v : Word) : (f s).setWord d i k v = f (s.setWord d i k v) := hf.apply (.word d i k v) s

theorem AwayFromMemory.putBytes {f : State → State} (hf : AwayFromMemory f) (s : State) (base : Word) (i : Nat)
    (bytes : List Byte) : (f s).putBytes base i bytes = f (s.putBytes base i bytes) := by
  rw [← State.applyAll_byteEntries, ← State.applyAll_byteEntries, hf.applyAll]

theorem AwayFromMemory.writeBack {f : State → State} (hf : AwayFromMemory f) (s : State) (d : Dir) (i : Nat)
    (v : Words4) : (f s).writeBack d i v = f (s.writeBack d i v) := by
  simp only [State.writeBack, hf.params]
  rw [List.foldl_hom f fun t k => hf.setWord t d i k (v.at k), hf.setWord]

theorem State.aside_advanceDmaPos (s : State) (d : Dir) (a : Aside) :
    (s.aside a).advanceDmaPos d = (s.advanceDmaPos d).aside a := by
  have hparams : (s.aside a).params = s.params := rfl
  simp only [State.advanceDmaPos, hparams]
  split
  · cases d <;> rfl
  · rfl

theorem State.aside_drain (s : State) (n : Nat) (a : Aside) : (s.aside a).drain n = (s.drain n).aside a := by
  have hwb : (s.aside a).wb = s.wb := rfl
  simp only [State.drain, hwb]
  split
  · rfl
  · split
    · split
      · exact (AwayFromMemory.aside a).apply _ { s with wb := s.wb.eraseIdx n }
      · rfl
    · rfl

/-- The end of a write-back raises the flag of its ring, or not. -/
theorem State.aside_completed (s : State) (d : Dir) (i : Nat) (v : Words4) (raise : Bool) (a : Aside) :
    (s.aside a).completed d i v raise =
      (s.completed d i v raise).aside (a.raise (d == .rx && raise) (d == .tx && raise)) := by
  have hflag (t : State) : (t.aside a).raiseFlag raise d =
      (t.raiseFlag raise d).aside (a.raise (d == .rx && raise) (d == .tx && raise)) := by
    cases d <;> simp [State.raiseFlag, State.aside, Aside.raise]
  rw [State.completed, (AwayFromMemory.aside a).writeBack s d i v, hflag, State.aside_advanceDmaPos]
  rfl

/-- The drain and the DMA agent do the same whatever stands there, raise the same flags, and change nothing else there.
-/
theorem State.aside_envStep (s : State) {e : EnvStep} (he : e ≠ .interruptAck) :
    ∃ ri ti, ∀ a, (s.aside a).envStep e = (s.envStep e).aside (a.raise ri ti) := by
  cases e with
  | drain n => exact ⟨false, false, fun a => (s.aside_drain n a).trans (by rw [a.raise_false]; rfl)⟩
  | rxWriteback i bytes v =>
    by_cases h : (s.dmaEnabled .rx i && s.rxDrawsLegal i bytes v) = true
    · obtain ⟨henabled, hlegal⟩ := Bool.and_eq_true_iff.mp h
      refine ⟨s.params.rxLayout.ioc.isSet (s.ownWordOf .rx i), false, fun a => ?_⟩
      rw [State.envStep, State.envStep, State.rxWriteback_of_enabled henabled hlegal,
        State.rxWriteback_of_enabled (s := s.aside a) henabled hlegal]
      refine Eq.trans ?_ (State.aside_completed (s.frameReceived i bytes) .rx i v _ a)
      exact congrArg (fun t => State.completed t .rx i v _) ((AwayFromMemory.aside a).putBytes s _ 0 bytes)
    · refine ⟨false, false, fun a => ?_⟩
      rw [State.envStep, State.envStep, State.rxWriteback, State.rxWriteback, if_neg h, a.raise_false]
      exact if_neg h
  | txWriteback j v t =>
    by_cases h : s.dmaEnabled .tx j = true
    · refine ⟨false, t, fun a => ?_⟩
      rw [State.envStep, State.envStep, State.txWriteback_of_enabled h,
        State.txWriteback_of_enabled (s := s.aside a) h]
      exact State.aside_completed (s.frameSent j) .tx j v t a
    · refine ⟨false, false, fun a => ?_⟩
      rw [State.envStep, State.envStep, State.txWriteback, State.txWriteback, if_neg h, a.raise_false]
      exact if_neg h
  | interruptAck => exact absurd rfl he

/-! ### A halted block -/

theorem State.handlerAck_of_halted {s : State} (hhalted : s.halted = true) : s.handlerAck = s := by
  simp [State.handlerAck, hhalted]

/-- Halting a block takes nothing from the steps of the drain and the DMA agent (R276). -/
theorem State.halted_envStep (s : State) {e : EnvStep} (he : e ≠ .interruptAck) :
    State.envStep { s with halted := true } e = { s.envStep e with halted := true } := by
  obtain ⟨ri, ti, h⟩ := s.aside_envStep he
  let now : Aside := ⟨s.ri, s.ti, s.halted, s.reply, s.schedule⟩
  have hrunning : s.envStep e = (s.envStep e).aside (now.raise ri ti) := h now
  rw [hrunning]
  exact h { now with halted := true }

/-- Settles O43: the test of `halted` stands before every operation, the interrupt agent makes it too, and the other
agents do not look at the flag. -/
theorem haltedBlockRefusesEveryOperation : Obligations.HaltedBlockRefusesEveryOperation := by
  unfold Obligations.HaltedBlockRefusesEveryOperation
  exact ⟨fun _ _ => exec_of_halted, fun _ => State.handlerAck_of_halted, fun s _ => s.halted_envStep⟩

/-- A halted block refuses every operation, the ill-formed ones as such (R114, R276). -/
theorem exec_refuses_of_halted {i : Instr} {s : State} (hhalted : s.halted = true) :
    ∃ r, exec i s = .next (s.answer r) := by
  cases hwf : i.wf s.params with
  | true => exact ⟨_, exec_of_halted hhalted hwf⟩
  | false => exact ⟨_, exec_of_not_wf hwf⟩

/-- Settles O60: on a halted block a command ends as a refusal, and no other agent touches the software-only state. -/
theorem haltedBlockIsFrozen : Obligations.HaltedBlockIsFrozen := by
  unfold Obligations.HaltedBlockIsFrozen
  intro s t hhalted h
  obtain ⟨_, rfl⟩ | ⟨e, rest, _, rfl⟩ | ⟨c, rest, i, _, _, hexec⟩ | ⟨c, rest, _, _, _, rfl⟩ := step_cases h
  · exact ⟨hhalted, ⟨rfl, rfl, rfl, rfl⟩, rfl, rfl, rfl, rfl, rfl, rfl, rfl⟩
  · have hsoft := (SharedStep.envStep { s with inbox := rest } e).soft
    exact ⟨hsoft.halted.trans hhalted, ⟨hsoft.rxNext, hsoft.txNext, hsoft.txReclaim, hsoft.rxHeld⟩, hsoft.rxMeta,
      hsoft.txMeta, hsoft.intEnable, hsoft.readyRx, hsoft.readyTx, hsoft.bound, hsoft.params⟩
  · obtain ⟨r, hr⟩ := exec_refuses_of_halted (i := i) (s := s.latch rest c) hhalted
    cases hexec.symm.trans hr
    exact ⟨hhalted, ⟨rfl, rfl, rfl, rfl⟩, rfl, rfl, rfl, rfl, rfl, rfl, rfl⟩
  · exact ⟨hhalted, ⟨rfl, rfl, rfl, rfl⟩, rfl, rfl, rfl, rfl, rfl, rfl, rfl⟩

end Sys2Proof.Machine
end

section
/-! SUPPORT. States that differ in the interrupt flags, the result port and the acknowledgements to come alone are
alike, and every operation answers the same on alike states and leaves them alike, whatever the schedule: only the
interrupt line and the interrupt agent look at the flags (spec/60_exceptions.md rules R281, R283). -/

namespace Sys2Proof.Machine

/-! ### Alike states -/

/-- The schedule with every acknowledgement of the interrupt agent taken out (R281). -/
def withoutAcks (schedule : List (List EnvStep)) : List (List EnvStep) :=
  schedule.map (fun es => es.filter (fun e => e != .interruptAck))

@[simp] theorem withoutAcks_withoutAcks (schedule : List (List EnvStep)) :
    withoutAcks (withoutAcks schedule) = withoutAcks schedule := by
  simp [withoutAcks, Function.comp_def]

/-- The state but for the interrupt flags, the result port and the acknowledgements to come. -/
def State.seen (s : State) : State := s.aside ⟨false, false, s.halted, none, withoutAcks s.schedule⟩

/-- Two states agree but for the interrupt flags, the result port and the acknowledgements to come. -/
def Alike (s u : State) : Prop := s.seen = u.seen

theorem Alike.refl (s : State) : Alike s s := rfl

theorem Alike.symm {s u : State} (h : Alike s u) : Alike u s := Eq.symm h

theorem Alike.trans {s t u : State} (h : Alike s t) (g : Alike t u) : Alike s u := Eq.trans h g

/-- Reads of alike states: the same value, and alike states after them. -/
structure ReadAlike {α : Type} (p q : α × State) : Prop where
  value : p.1 = q.1
  state : Alike p.2 q.2

/-- The end of a nested operation, its state as `State.seen` has it. -/
def Run.seen {α : Type} : Run α → Run α
  | .done v s => .done v s.seen
  | .fatal f s => .fatal f s.seen

/-- Nested operations that end alike. -/
def Run.Alike {α : Type} (r r' : Run α) : Prop := r.seen = r'.seen

theorem Run.Alike.done {α : Type} {v w : α} {s u : State} (hv : v = w) (h : Machine.Alike s u) :
    Run.Alike (.done v s) (.done w u) := congrArg₂ Run.done hv h

theorem Run.Alike.fatal {α : Type} {f g : FatalInfo} {s u : State} (hf : f = g) (h : Machine.Alike s u) :
    Run.Alike (α := α) (.fatal f s) (.fatal g u) := congrArg₂ Run.fatal hf h

theorem Run.Alike.andThen {α β : Type} {r r' : Run α} {next next' : α → State → Run β} (h : Run.Alike r r')
    (hnext : ∀ v t t', Machine.Alike t t' → Run.Alike (next v t) (next' v t')) :
    Run.Alike (r.andThen next) (r'.andThen next') := by
  cases r with
  | done v t =>
    cases r' with
    | done v' t' =>
      obtain ⟨rfl, ht⟩ := Run.done.inj h
      exact hnext v t t' ht
    | fatal f' t' => cases h
  | fatal f t =>
    cases r' with
    | done v' t' => cases h
    | fatal f' t' => exact .fatal (Run.fatal.inj h).1 (Run.fatal.inj h).2

theorem Run.Alike.ite {α : Type} {c c' : Prop} [Decidable c] [Decidable c'] {r r' q q' : Run α} (hc : c = c')
    (hr : Run.Alike r r') (hq : Run.Alike q q') : Run.Alike (if c then r else q) (if c' then r' else q') := by
  subst hc
  by_cases h : c
  · rwa [if_pos h, if_pos h]
  · rwa [if_neg h, if_neg h]

theorem ReadAlike.ite {α : Type} {c c' : Prop} [Decidable c] [Decidable c'] {p p' q q' : α × State} (hc : c = c')
    (hp : ReadAlike p p') (hq : ReadAlike q q') : ReadAlike (if c then p else q) (if c' then p' else q') := by
  subst hc
  by_cases h : c
  · rwa [if_pos h, if_pos h]
  · rwa [if_neg h, if_neg h]

section
variable {s u : State} (h : Alike s u)
include h

/-- An update that neither sets nor looks at what `State.seen` leaves out. -/
theorem Alike.map {f : State → State} (hf : ∀ t, (f t).seen = f t.seen) : Alike (f s) (f u) :=
  (hf s).trans ((congrArg f h).trans (hf u).symm)

/-- A value that does not depend on what `State.seen` leaves out. -/
theorem Alike.look {α : Type} {g : State → α} (hg : ∀ t, g t.seen = g t) : g s = g u :=
  (hg s).symm.trans ((congrArg g h).trans (hg u))

theorem Alike.params : s.params = u.params := h.look (g := State.params) fun _ => rfl

theorem Alike.setRxMeta (i : Nat) (m : RxMeta) : Alike (s.setRxMeta i m) (u.setRxMeta i m) :=
  h.map (f := fun t => t.setRxMeta i m) fun _ => rfl

theorem Alike.setTxMeta (j : Nat) {m m' : TxMeta} (hm : m = m') : Alike (s.setTxMeta j m) (u.setTxMeta j m') :=
  hm ▸ h.map (f := fun t => t.setTxMeta j m) fun _ => rfl

theorem Alike.txMetaAt (j : Nat) : s.txMetaAt j = u.txMetaAt j := h.look (g := fun t => t.txMetaAt j) fun _ => rfl

theorem Alike.busy (j : Nat) : s.busy j = u.busy j := congrArg TxMeta.busy (h.txMetaAt j)

theorem Alike.flush : Alike s.flush u.flush :=
  h.map fun t => by
    rw [State.seen, State.flush_halted, State.flush_schedule]
    exact ((AwayFromMemory.aside _).flush t).symm

end

/-! ### The steps of the other agents -/

/-- Other interrupt flags and another result port make no difference. -/
theorem Alike.aside {s : State} {a : Aside} (hhalted : a.halted = s.halted)
    (hschedule : withoutAcks a.schedule = withoutAcks s.schedule) : Alike s (s.aside a) := by
  show s.aside _ = s.aside ⟨false, false, a.halted, none, withoutAcks a.schedule⟩
  rw [hhalted, hschedule]

/-- An acknowledgement changes the interrupt flags alone (R235). -/
theorem Alike.handlerAck (s : State) : Alike s s.handlerAck := by
  unfold State.handlerAck
  split
  · exact Alike.aside (a := ⟨false, false, s.halted, s.reply, s.schedule⟩) rfl rfl
  · exact .refl s

theorem Alike.envStep_seen (s : State) {e : EnvStep} (he : e ≠ .interruptAck) :
    Alike (s.envStep e) (s.seen.envStep e) := by
  obtain ⟨ri, ti, hstep⟩ := s.aside_envStep he
  have hself : s.envStep e = _ := hstep ⟨s.ri, s.ti, s.halted, s.reply, s.schedule⟩
  have hhalted : (s.envStep e).halted = s.halted := (congrArg State.halted hself).trans rfl
  have hschedule : (s.envStep e).schedule = s.schedule := (congrArg State.schedule hself).trans rfl
  rw [State.seen, hstep]
  exact Alike.aside hhalted.symm ((withoutAcks_withoutAcks _).trans (congrArg withoutAcks hschedule.symm))

theorem Alike.envStep {s u : State} (h : Alike s u) {e : EnvStep} (he : e ≠ .interruptAck) :
    Alike (s.envStep e) (u.envStep e) := by
  have hseen := Alike.envStep_seen s he
  rw [show s.seen = u.seen from h] at hseen
  exact hseen.trans (Alike.envStep_seen u he).symm

/-- The agents' steps, and the same without the acknowledgements among them. -/
theorem Alike.envSteps (es : List EnvStep) : ∀ {s u : State}, Alike s u →
    Alike (s.envSteps es) (u.envSteps (es.filter (fun e => e != .interruptAck))) := by
  induction es with
  | nil => exact id
  | cons e es ih =>
    intro s u h
    by_cases he : e = .interruptAck
    · subst he
      exact ih ((Alike.handlerAck s).symm.trans h)
    · rw [List.filter_cons_of_pos (by simpa using he)]
      exact ih (h.envStep he)

theorem Alike.interleave_seen (s : State) : Alike s.interleave s.seen.interleave := by
  have hschedule : s.seen.schedule = withoutAcks s.schedule := rfl
  unfold State.interleave
  rw [hschedule]
  cases hs : s.schedule with
  | nil => exact Alike.aside rfl (by simp [hs, withoutAcks])
  | cons es rest =>
    exact Alike.envSteps es (Alike.aside (s := { s with schedule := rest })
      (a := ⟨false, false, s.halted, none, withoutAcks rest⟩) rfl (withoutAcks_withoutAcks rest))

theorem Alike.interleave {s u : State} (h : Alike s u) : Alike s.interleave u.interleave := by
  have hseen := Alike.interleave_seen s
  rw [show s.seen = u.seen from h] at hseen
  exact hseen.trans (Alike.interleave_seen u).symm

/-! ### The micro-steps of SW -/

section
variable {s u : State} (h : Alike s u)
include h

theorem Alike.swRead (d : Dir) (i k : Nat) : ReadAlike (swRead d i k s) (swRead d i k u) :=
  ⟨h.interleave.look (g := fun t => t.swWord d i k) fun _ => rfl, h.interleave⟩

theorem Alike.swWrite (d : Dir) (i k : Nat) {v w : Word} (hv : v = w) : Alike (swWrite d i k v s) (swWrite d i k w u) :=
  hv ▸ h.interleave.map (f := fun t => { t with wb := t.wb ++ [.word d i k v] }) fun _ => rfl

theorem Alike.swModify (d : Dir) (i k : Nat) (f : Word → Word) : Alike (swModify d i k f s) (swModify d i k f u) :=
  have hold := h.swRead d i k
  hold.state.swWrite d i k (congrArg f hold.value)

theorem Alike.swReadByte (a : Nat) : ReadAlike (swReadByte a s) (swReadByte a u) :=
  ⟨h.interleave.look (g := fun t => (t.fetchByte (t.swByte a)).1) fun _ => rfl,
    h.interleave.map (f := fun t => (t.fetchByte (t.swByte a)).2) fun _ => rfl⟩

theorem Alike.swWriteByte (a : Nat) (b : Byte) : Alike (swWriteByte a b s) (swWriteByte a b u) :=
  h.interleave.map (f := fun t => { t with wb := t.wb ++ [.byte a b] }) fun _ => rfl

theorem Alike.fenceWw : Alike (fenceWw s) (fenceWw u) :=
  h.interleave.map (f := fun t => { t with wb := t.wb ++ [.fence] }) fun _ => rfl

theorem Alike.barrierDsb : Alike (barrierDsb s) (barrierDsb u) := h.interleave.flush

theorem Alike.fenceFull : Alike (fenceFull s) (fenceFull u) := h.interleave.flush

theorem Alike.fenceRr : Alike (fenceRr s) (fenceRr u) := h.interleave

end

theorem Alike.readBytes (base : Word) (n : Nat) : ∀ (i : Nat) {s u : State}, Alike s u →
    ReadAlike (readBytes base n i s) (readBytes base n i u) := by
  induction n with
  | zero => exact fun _ _ _ h => ⟨rfl, h⟩
  | succ n ih =>
    intro i s u h
    have hbyte := h.swReadByte (addrAt base i)
    have hrest := ih (i + 1) hbyte.state
    exact ⟨congrArg₂ List.cons hbyte.value hrest.value, hrest.state⟩

theorem Alike.writeBytes (base : Word) (bs : List Byte) : ∀ (i : Nat) {s u : State}, Alike s u →
    Alike (writeBytes base i bs s) (writeBytes base i bs u) := by
  induction bs with
  | nil => exact fun _ _ _ h => h
  | cons b bs ih => exact fun i _ _ h => ih (i + 1) (h.swWriteByte _ b)

section
variable {s u : State} (h : Alike s u)
include h

theorem Alike.memRead (base : Word) (n : Nat) : ReadAlike (memRead base n s) (memRead base n u) :=
  Alike.readBytes base n 0 h

theorem Alike.memWrite (base : Word) {bs bs' : List Byte} (hbs : bs = bs') :
    Alike (memWrite base bs s) (memWrite base bs' u) := hbs ▸ Alike.writeBytes base bs 0 h

/-! ### The operations on one descriptor -/

theorem Alike.isOwned (d : Dir) (i : Nat) : ReadAlike (isOwned d i s) (isOwned d i u) := by
  unfold Machine.isOwned
  rw [h.params]
  have hown := h.swRead d i (u.params.ownWord d)
  exact ⟨congrArg (u.params.ownedByHw d) hown.value, hown.state⟩

theorem Alike.frameLength (i : Nat) : ReadAlike (frameLength i s) (frameLength i u) := by
  unfold Machine.frameLength
  rw [h.params]
  have hown := h.swRead .rx i (u.params.ownWord .rx)
  exact ⟨congrArg (fun w => if u.params.ownedByHw .rx w then 0 else u.params.rxLen w) hown.value, hown.state⟩

theorem Alike.ownTransfer (d : Dir) (i : Nat) : Run.Alike (ownTransfer d i s) (ownTransfer d i u) := by
  unfold Machine.ownTransfer
  rw [h.params]
  have hold := h.fenceWw.swRead d i (u.params.ownWord d)
  have hwritten := hold.state.swWrite d i (u.params.ownWord d) (congrArg (· ||| u.params.handoverMask d) hold.value)
  have hopened := hwritten.map (f := fun t => { t with handover := some (d, i) }) fun _ => rfl
  have hback := hopened.barrierDsb.swRead d i (u.params.ownWord d)
  have hclosed := hback.state.map (f := fun t => { t with handover := none }) fun _ => rfl
  exact .ite (congrArg (fun w => u.params.ownedByHw d w = true) hback.value) (.done rfl hclosed.fenceFull)
    (.fatal rfl hclosed)

theorem Alike.rxSetup (i : Nat) (buf : Word) : Run.Alike (rxSetup i buf s) (rxSetup i buf u) := by
  unfold Machine.rxSetup
  rw [h.params]
  have haddressed := (h.setRxMeta i ⟨none, none⟩).swModify .rx i u.params.rxLayout.buf1ap.word fun _ => buf
  exact (haddressed.swModify .rx i (u.params.ownWord .rx) u.params.rxSetupWord).ownTransfer .rx i

theorem Alike.rxCacheTs (i : Nat) {w w' : Word} (hw : w = w') : ReadAlike (rxCacheTs i w s) (rxCacheTs i w' u) := by
  subst hw
  unfold Machine.rxCacheTs
  rw [h.params]
  refine .ite rfl ⟨rfl, h⟩ (.ite rfl ⟨rfl, h⟩ ?_)
  have htsv := h.swRead .rx i u.params.rxLayout.tsv.word
  have hvalid := ReadAlike.ite (c := u.params.hasTsValid = true) rfl
    (⟨congrArg u.params.rxLayout.tsv.isSet htsv.value, htsv.state⟩ : ReadAlike (_, _) (_, _))
    (⟨rfl, h⟩ : ReadAlike (true, s) (true, u))
  have hsec := hvalid.state.swRead .rx i u.params.rxLayout.tsSec.word
  have hsub := hsec.state.swRead .rx i u.params.rxLayout.tsSubsec.word
  exact .ite (congrArg (fun b => (!b) = true) hvalid.value) ⟨rfl, hvalid.state⟩
    ⟨congrArg some (congrArg₂ Timestamp.mk hsec.value hsub.value), hsub.state⟩

theorem Alike.takeReceived (i : Nat) (p : Option PacketId) (fb : Word) :
    Run.Alike (takeReceived i p fb s) (takeReceived i p fb u) := by
  unfold Machine.takeReceived
  rw [h.params]
  have howned := h.isOwned .rx i
  have hown := howned.state.fenceRr.swRead .rx i (u.params.ownWord .rx)
  have hts := hown.state.rxCacheTs i hown.value
  refine .ite (congrArg (· = true) howned.value) (.done rfl howned.state) ?_
  refine .ite (congrArg (fun w => u.params.rxWholeFrame w = true) hown.value) ?_ ?_
  · exact .done rfl (by rw [hts.value]; exact hts.state.setRxMeta i _)
  · exact (hown.state.rxSetup i fb).andThen fun _ _ _ ht => .done rfl ht

theorem Alike.txSend (j : Nat) (ptr len : Word) (p : Option PacketId) :
    Run.Alike (txSend j ptr len p s) (txSend j ptr len p u) := by
  unfold Machine.txSend
  rw [h.params]
  have htagged := h.setTxMeta j (congrArg (fun m : TxMeta => { m with pid := p, ts := none }) (h.txMetaAt j))
  have haddressed := htagged.swModify .tx j u.params.txLayout.buf1ap.word fun _ => ptr
  have hsized := haddressed.swModify .tx j u.params.txLayout.b1l.word fun w => u.params.txLayout.b1l.put w len
  exact (hsized.swModify .tx j (u.params.ownWord .tx) u.params.txSendWord).ownTransfer .tx j

theorem Alike.txTsValid (j : Nat) (w : Word) : ReadAlike (txTsValid j w s) (txTsValid j w u) := by
  unfold Machine.txTsValid
  rw [h.params]
  have htsv := h.swRead .tx j u.params.txLayout.tsv.word
  exact .ite rfl ⟨rfl, h⟩ (.ite rfl ⟨rfl, h⟩ ⟨congrArg u.params.txLayout.tsv.isSet htsv.value, htsv.state⟩)

theorem Alike.txCacheTs (j : Nat) {w w' : Word} (hw : w = w') : ReadAlike (txCacheTs j w s) (txCacheTs j w' u) := by
  subst hw
  unfold Machine.txCacheTs
  rw [h.params]
  have hvalid := h.txTsValid j w
  have hsec := hvalid.state.swRead .tx j u.params.txLayout.tsSec.word
  have hsub := hsec.state.swRead .tx j u.params.txLayout.tsSubsec.word
  refine .ite rfl ⟨rfl, h⟩ (.ite rfl ⟨rfl, h⟩ ?_)
  exact .ite (congrArg (fun b => (!b) = true) hvalid.value) ⟨rfl, hvalid.state⟩
    ⟨congrArg some (congrArg₂ Timestamp.mk hsec.value hsub.value), hsub.state⟩

theorem Alike.takeCompleted (j : Nat) (q : Option PacketId) :
    ReadAlike (takeCompleted j q s) (takeCompleted j q u) := by
  unfold Machine.takeCompleted
  rw [h.params]
  have howned := h.isOwned .tx j
  have hown := howned.state.fenceRr.swRead .tx j (u.params.ownWord .tx)
  have hmeta := hown.state.txMetaAt j
  have huntagged := hown.state.setTxMeta j (congrArg (fun m : TxMeta => { m with pid := none }) hmeta)
  refine .ite (congrArg (· = true) howned.value) ⟨rfl, howned.state⟩ ?_
  refine .ite (congrArg (fun w => u.params.txError w = true) hown.value) ⟨rfl, ?_⟩ ?_
  · exact huntagged.setTxMeta j (congrArg (fun m : TxMeta => { m with ts := none }) (huntagged.txMetaAt j))
  · have hts := huntagged.txCacheTs j hown.value
    exact ⟨congrArg Except.ok (congrArg₂ (fun m t => if TxMeta.pid m = q then t else none) hmeta hts.value),
      hts.state.setTxMeta j (congrArg₂ (fun (m : TxMeta) t => { m with ts := t }) (hts.state.txMetaAt j) hts.value)⟩

end

/-! ### The operations of the rings and of the engine -/

theorem Alike.zeroDescriptor {s u : State} (h : Alike s u) (d : Dir) (i : Nat) :
    Alike (zeroDescriptor d i s) (zeroDescriptor d i u) :=
  (((h.swModify d i 0 fun _ => 0).swModify d i 1 fun _ => 0).swModify d i 2 fun _ => 0).swModify d i 3 fun _ => 0

theorem Alike.armSlots (n : Nat) : ∀ (i : Nat) {s u : State}, Alike s u →
    Run.Alike (armSlots n i s) (armSlots n i u) := by
  induction n with
  | zero => exact fun _ _ _ h => .done rfl h
  | succ n ih =>
    intro i s u h
    unfold Machine.armSlots
    rw [h.params]
    exact ((h.zeroDescriptor .rx i).rxSetup i _).andThen fun _ _ _ ht => ih (i + 1) ht

theorem Alike.clearSlots (n : Nat) : ∀ (j : Nat) {s u : State}, Alike s u →
    Alike (clearSlots n j s) (clearSlots n j u) := by
  induction n with
  | zero => exact fun _ _ _ h => h
  | succ n ih => exact fun j _ _ h => ih (j + 1) ((h.zeroDescriptor .tx j).setTxMeta j rfl)

theorem Alike.countOwned (n : Nat) : ∀ (j : Nat) {s u : State}, Alike s u →
    ReadAlike (countOwned n j s) (countOwned n j u) := by
  induction n with
  | zero => exact fun _ _ _ h => ⟨rfl, h⟩
  | succ n ih =>
    intro j s u h
    have howned := h.isOwned .tx j
    have hrest := ih (j + 1) howned.state
    exact ⟨congrArg₂ (fun b n => if b = true then n + 1 else n) howned.value hrest.value, hrest.state⟩

section
variable {s u : State} (h : Alike s u)
include h

theorem Alike.rxringNew : Run.Alike (rxringNew s) (rxringNew u) := by
  unfold Machine.rxringNew
  rw [h.params]
  exact (Alike.armSlots _ 0 h).andThen fun _ _ _ ht =>
    .done rfl (ht.map (f := fun t => { t with rxNext := 0, rxHeld := none, readyRx := true }) fun _ => rfl)

theorem Alike.rearmHeld : Run.Alike (rearmHeld s) (rearmHeld u) := by
  have hheld : s.rxHeld = u.rxHeld := h.look (g := State.rxHeld) fun _ => rfl
  unfold Machine.rearmHeld
  rw [h.params, hheld]
  cases u.rxHeld with
  | none => exact .done rfl h
  | some slot =>
    exact (h.rxSetup slot _).andThen fun _ _ _ ht =>
      .done rfl (ht.map (f := fun t => { t with rxHeld := none }) fun _ => rfl)

theorem Alike.recvNext (p : Option PacketId) : Run.Alike (recvNext p s) (recvNext p u) := by
  have hnext : s.rxNext = u.rxNext := h.look (g := State.rxNext) fun _ => rfl
  unfold Machine.recvNext
  rw [h.params, hnext]
  refine (h.takeReceived u.rxNext p _).andThen fun r t t' ht => ?_
  rcases r with (_ | _) | _
  · exact .done rfl ht
  · exact ht.rearmHeld.andThen fun _ _ _ hv =>
      .done rfl (hv.map (f := fun v => { v with rxNext := nextSlot u.params.nRx u.rxNext }) fun _ => rfl)
  · have hlen := ht.frameLength u.rxNext
    dsimp only
    rw [ht.params, hlen.value]
    have hbytes := hlen.state.memRead (t'.params.rxBuf u.rxNext) (Machine.frameLength u.rxNext t').1
    refine .ite rfl (.fatal rfl hlen.state) (hbytes.state.rearmHeld.andThen fun _ _ _ hv => .done ?_ ?_)
    · exact congrArg (fun bs => Except.ok (FrameView.mk u.rxNext _ bs)) hbytes.value
    · exact hv.map (f := fun v => { v with rxHeld := some u.rxNext, rxNext := nextSlot u.params.nRx u.rxNext })
        fun _ => rfl

theorem Alike.txringNew : Alike (txringNew s) (txringNew u) := by
  unfold Machine.txringNew
  rw [h.params]
  exact (Alike.clearSlots _ 0 h).fenceWw.barrierDsb.map
    (f := fun t => { t with txNext := 0, txReclaim := 0, readyTx := true }) fun _ => rfl

theorem Alike.dropLapped (j : Nat) : Alike (dropLapped j s) (dropLapped j u) :=
  h.map (f := Machine.dropLapped j) fun t => by
    have hbusy : t.seen.busy j = t.busy j := rfl
    unfold Machine.dropLapped
    rw [hbusy]
    split <;> rfl

theorem Alike.setBusy (j : Nat) (b : Bool) : Alike (s.setBusy j b) (u.setBusy j b) :=
  h.map (f := fun t => t.setBusy j b) fun _ => rfl

theorem Alike.ringSend (len : Word) (p : Option PacketId) (g : FillFn) :
    Run.Alike (ringSend len p g s) (ringSend len p g u) := by
  have hnext : s.txNext = u.txNext := h.look (g := State.txNext) fun _ => rfl
  unfold Machine.ringSend
  rw [h.params, hnext]
  have howned := h.isOwned .tx u.txNext
  have hold := (howned.state.dropLapped u.txNext).memRead (u.params.txBuf u.txNext) len.toNat
  have hfilled := hold.state.memWrite (u.params.txBuf u.txNext) (congrArg g.eval hold.value)
  refine .ite (congrArg (· = true) howned.value) (.done rfl howned.state) ?_
  exact (hfilled.txSend u.txNext (u.params.txBuf u.txNext) len p).andThen fun _ _ _ ht =>
    .done rfl ((ht.setBusy u.txNext true).map (f := fun t => { t with txNext := nextSlot u.params.nTx u.txNext })
      fun _ => rfl)

theorem Alike.ringReclaim (q : Option PacketId) : ReadAlike (ringReclaim q s) (ringReclaim q u) := by
  have hreclaim : s.txReclaim = u.txReclaim := h.look (g := State.txReclaim) fun _ => rfl
  have htake := h.takeCompleted u.txReclaim q
  unfold Machine.ringReclaim
  dsimp only
  rw [h.params, hreclaim, h.busy, htake.value]
  refine .ite rfl ⟨rfl, h⟩ ?_
  split
  · exact htake
  · exact ⟨rfl, (htake.state.setBusy u.txReclaim false).map
      (f := fun t => { t with txReclaim := nextSlot u.params.nTx u.txReclaim }) fun _ => rfl⟩

end

/-! ### Every operation -/

theorem perform_alike (i : Instr) {s u : State} (h : Alike s u) : Run.Alike (perform i s) (perform i u) := by
  have hports : s.ports = u.ports := h.look (g := State.ports) fun _ => rfl
  have hread {α : Type} {p q : α × State} (hp : ReadAlike p q) (f : α → Reply) :
      Run.Alike (.done (f p.1) p.2) (.done (f q.1) q.2) := .done (congrArg f hp.value) hp.state
  have hreply {α : Type} {r r' : Run α} (hr : Run.Alike r r') (f : α → Reply) :
      Run.Alike (r.andThen fun v t => .done (f v) t) (r'.andThen fun v t => .done (f v) t) :=
    hr.andThen fun _ _ _ ht => .done rfl ht
  cases i with
  | rawRead d slot k => exact hread (h.swRead d slot k) _
  | rawModify d slot k => simpa only [perform, hports] using .done rfl (h.swModify d slot k _)
  | fenceWw => exact .done rfl h.fenceWw
  | barrierDsb => exact .done rfl h.barrierDsb
  | fenceFull => exact .done rfl h.fenceFull
  | fenceRr => exact .done rfl h.fenceRr
  | ownTransfer d slot => exact hreply (h.ownTransfer d slot) _
  | rxdIsOwned slot => exact hread (h.isOwned .rx slot) _
  | rxdSetup slot => simpa only [perform, hports] using hreply (h.rxSetup slot _) _
  | rxdTakeReceived slot => simpa only [perform, hports] using hreply (h.takeReceived slot _ _) _
  | rxdFrameLength slot => exact hread (h.frameLength slot) _
  | rxdPacketId slot => exact .done (h.look (g := fun t => Reply.packetId (t.rxMetaAt slot).pid) fun _ => rfl) h
  | rxdTimestamp slot => exact .done (h.look (g := fun t => Reply.timestamp (t.rxMetaAt slot).ts) fun _ => rfl) h
  | txdIsOwned slot => exact hread (h.isOwned .tx slot) _
  | txdSend slot => simpa only [perform, hports] using hreply (h.txSend slot _ _ _) _
  | txdTakeCompleted slot => simpa only [perform, hports] using hread (h.takeCompleted slot _) _
  | rxringNew => exact hreply h.rxringNew _
  | rxringRecvNext | engRecvNext => simpa only [perform, hports] using hreply (h.recvNext _) _
  | txringNew => exact .done rfl h.txringNew
  | txringSend | engSend => simpa only [perform, hports] using hreply (h.ringSend _ _ _) _
  | txringReclaim | engTxReclaim => simpa only [perform, hports] using hread (h.ringReclaim _) _
  | engNew => exact .done rfl (h.map (f := bindEngine) fun _ => rfl)
  | engEnableInterrupt => exact .done rfl (h.map (f := fun t => { t with intEnable := true }) fun _ => rfl)
  | engDisableInterrupt => exact .done rfl (h.map (f := fun t => { t with intEnable := false }) fun _ => rfl)
  | engInterruptAck => exact .done rfl (h.map (f := fun t => { t with ri := false, ti := false }) fun _ => rfl)
  | engTxState =>
    rw [perform, perform, h.params]
    have hcount := Alike.countOwned u.params.nTx 0 h
    have hring := hcount.state.look (g := fun t => TxState.mk t.txNext t.txReclaim t.outstanding) fun _ => rfl
    exact .done (congrArg₂ (fun f n => Reply.txState (f n)) hring hcount.value) hcount.state

theorem State.tests_alike {s u : State} (h : Alike s u) (i : Instr) : s.tests i = u.tests i :=
  h.look (g := fun t => t.tests i) fun t => by cases i <;> rfl

theorem conclude_alike {r r' : Run Reply} {t : State} (h : Run.Alike r r') (hend : conclude r = .next t) :
    ∃ v, conclude r' = .next v ∧ t.reply = v.reply ∧ Alike t v := by
  cases r with
  | done v w =>
    cases r' with
    | done v' w' =>
      obtain ⟨rfl, hw⟩ := Run.done.inj h
      cases hend
      exact ⟨w'.answer v, rfl, rfl, hw⟩
    | fatal f' w' => cases h
  | fatal f w =>
    cases r' with
    | done v' w' => cases h
    | fatal f' w' =>
      obtain ⟨rfl, hw⟩ := Run.fatal.inj h
      cases hend
      exact ⟨w'.raiseFatal f, rfl, rfl, Alike.map (f := fun t => { t with halted := true }) hw fun _ => rfl⟩

/-- Alike states end an operation with the same outcome, and alike. -/
theorem exec_alike {i : Instr} {s t u : State} (h : Alike s u) (hexec : exec i s = .next t) :
    ∃ v, exec i u = .next v ∧ t.reply = v.reply ∧ Alike t v := by
  have htests := State.tests_alike h i
  cases hc : firstRefusal (u.tests i) with
  | some r =>
    cases hexec.symm.trans (exec_of_firstRefusal (htests ▸ hc))
    exact ⟨u.answer r, exec_of_firstRefusal hc, rfl, h⟩
  | none =>
    rw [exec_of_tests (htests ▸ hc)] at hexec
    rw [exec_of_tests hc]
    exact conclude_alike (perform_alike i h) hexec

/-- Alike states differ in what `State.seen` leaves out. -/
theorem Alike.eq_aside {s u : State} (h : Alike s u) : s = u.aside ⟨s.ri, s.ti, s.halted, s.reply, s.schedule⟩ := by
  have hseen : s.seen = u.seen := h
  exact (congrArg (fun t => State.aside t ⟨s.ri, s.ti, s.halted, s.reply, s.schedule⟩) hseen :)

/-- Settles O59: the two states are alike, so the operation ends in alike states and with the same outcome. -/
theorem acknowledgementsDoNotDisturbOperations : Obligations.AcknowledgementsDoNotDisturbOperations := by
  unfold Obligations.AcknowledgementsDoNotDisturbOperations
  intro s t i hexec
  have hstart : Alike s { s with schedule := withoutAcks s.schedule } :=
    Alike.aside (a := ⟨s.ri, s.ti, s.halted, s.reply, withoutAcks s.schedule⟩) rfl (withoutAcks_withoutAcks _)
  obtain ⟨u, hu, hreply, hend⟩ := exec_alike hstart hexec
  have hhalted : t.halted = u.halted := hend.look (g := State.halted) fun _ => rfl
  refine ⟨u, hu, hend.eq_aside.trans ?_⟩
  rw [hhalted, hreply]
  rfl

end Sys2Proof.Machine
end

section
/-! SUPPORT. Operations that would block, undisturbed: nothing has changed but the result port, which no operation looks
at, so the operation may be repeated (spec/60_exceptions.md rule R273). -/

namespace Sys2Proof.Machine

/-- An operation that answers WouldBlock, undisturbed, has done nothing else (R273). -/
theorem exec_blocked {i : Instr} {s t : State} {r : Reply} (hq : s.Quiet) (hexec : exec i s = .next t)
    (hreply : t.reply = some r) (hr : r.ending = .blocked) : t = s.answer r := by
  obtain ⟨r', h, hrefused⟩ | ⟨r', u, h, _, hend⟩ | ⟨f, u, h⟩ := exec_cases i s
  · cases hexec.symm.trans h
    cases hreply
    cases hr.symm.trans hrefused
  · cases hexec.symm.trans h
    cases hreply
    obtain hend | ⟨_, hstays⟩ := hend
    · cases hr.symm.trans hend
    · rw [hstays hq]
  · cases hexec.symm.trans h
    cases hreply
    cases hr

/-- Settles O46: only the result port has changed, so the second call starts alike, answers the same, and again changes
nothing else. -/
theorem wouldBlockChangesNoState : Obligations.WouldBlockChangesNoState := by
  unfold Obligations.WouldBlockChangesNoState
  intro s t i hq hexec hreply
  obtain ⟨r, hr, hblocked⟩ : ∃ r, t.reply = some r ∧ r.ending = .blocked := by
    obtain h | h := hreply
    · exact ⟨_, h, rfl⟩
    · exact ⟨_, h, rfl⟩
  obtain rfl := exec_blocked hq hexec hr hblocked
  obtain ⟨v, hagain, hsame, _⟩ := exec_alike (show Alike s (s.answer r) from rfl) hexec
  obtain rfl := exec_blocked (s := s.answer r) hq hagain hsame.symm hblocked
  exact ⟨⟨r, rfl⟩, hagain⟩

end Sys2Proof.Machine
end

section
/-! SUPPORT. The power-on state (spec/70_reset_and_hazards.md rule R300; log entries 1 and 2). -/

namespace Sys2Proof.Machine

theorem referenceInstance_wf : referenceInstance.wf = true := by decide +kernel

/-- What the model chose where R300 leaves the state unspecified meets the invariants: empty lists of the right sizes,
cursors at 0, no held slot (log entry 1). -/
theorem State.reset_invariant : State.reset.Invariant where
  instanceWf := referenceInstance_wf
  sized := ⟨rfl, rfl, rfl, rfl⟩
  cursors := ⟨Nat.zero_lt_succ _, Nat.zero_lt_succ _, Nat.zero_lt_succ _⟩
  held := nofun
  memory := ⟨rfl, nofun⟩
  writeBuffer := nofun
  engine := ⟨nofun, nofun, fun _ => ⟨rfl, rfl, rfl⟩⟩
  window := rfl

/-- No slot is busy at power-on: the empty range. -/
theorem State.reset_busyRange : State.reset.BusyRange :=
  CyclicRange.empty (Nat.zero_lt_succ _) (by decide)

/-- Settles O52: the flags, the write buffer and the window by R300, the rest by the model's choice. -/
theorem powerOnState : Obligations.PowerOnState := by
  unfold Obligations.PowerOnState
  exact ⟨rfl, rfl, rfl, rfl, rfl, rfl, rfl, rfl, rfl, State.reset_invariant, State.reset_busyRange⟩

end Sys2Proof.Machine
end
